-- ==== Sys2Proof/Word.lean ====
section
/-! DEFINITION. The words of the block: what spec/00_scope.md R7 and R8 call words, symbols and codes, at the widths
the spec gives them. Bit 0 is the least significant bit of every word (R7). -/

namespace Sys2Proof

/-- A 32-bit word: a command word, a register value, an information word (00_scope.md R7). -/
abbrev Word := BitVec 32

/-- The operand field `[27:0]` of a command word (30_encoding.md R100, `OPERAND_W = 28` of 00_scope.md R5). -/
abbrev Operand := BitVec 28

/-- A code in its 28-bit field (00_scope.md R2, 10_state.md R22). -/
abbrev Code := BitVec 28

/-- A symbol, 0..255 (`SYM_W = 8` of 00_scope.md R5). -/
abbrev Symbol := BitVec 8

/-- The 29-bit `next` field of a unit, range 256..DICT_CAP (10_state.md R22, R30). -/
abbrev NextCode := BitVec 29

/-- A 32-bit event counter, which wraps modulo 2^32 (00_scope.md R8, 60_exceptions.md R237). -/
abbrev Count := BitVec 32

/-- `zext_32` (00_scope.md R8). -/
def zext32 {n : Nat} (v : BitVec n) : Word := v.setWidth 32

end Sys2Proof
end

