-- ==== Sys2Proof/Syntax.lean ====
section
/-! DEFINITION. The commands: one constructor for each row of spec/opcode_table.json (spec/30_encoding.md R102), and
the command lists the pseudo-instructions of R108 stand for. -/

namespace Sys2Proof

/-- The twelve rows of the opcode table. The operand classes of 30_encoding.md R103: `NONE` has no argument, `SYM28`
and `CODE28` are any 28-bit value, by type. The two reserved-opcode rows carry the whole word, which is what ILLEGAL
records (40_dispatch.md R134); their first bits are checked by `Instr.wellFormed`. -/
inductive Instr where
  | nop
  | encStart
  | encSym (s : Operand)
  | encEnd
  | encClear
  | decStart
  | decCode (k : Operand)
  | decEnd
  | decClear
  | blkClear
  | illegalAB (w : Word)
  | illegalCF (w : Word)
deriving DecidableEq, Repr

namespace Pseudo

/-- `ENC_SEQ s0, ..., s(n-1)` (30_encoding.md R108). -/
def encSeq (ss : List Operand) : List Instr := .encStart :: (ss.map .encSym ++ [.encEnd])

/-- The row-major order of 30_encoding.md R108: rows outer, columns inner. -/
def rowMajor (rows cols : Nat) (b : Nat → Nat → Operand) : List Operand :=
  (List.range rows).flatMap fun r => (List.range cols).map fun c => b r c

/-- `ENC_IMAGE rows, cols, B` (30_encoding.md R108). -/
def encImage (rows cols : Nat) (b : Nat → Nat → Operand) : List Instr := encSeq (rowMajor rows cols b)

/-- `DEC_SEQ k0, ..., k(m-1)` (30_encoding.md R108). -/
def decSeq (ks : List Operand) : List Instr := .decStart :: (ks.map .decCode ++ [.decEnd])

end Pseudo
end Sys2Proof
end

