-- ==== Sys2Proof/WellFormed.lean ====
section
/-! DEFINITION. Which terms of `Instr` a command word can spell (spec/30_encoding.md R102 to R104). The 28-bit operands
are bounded by their type (R101: a value that does not fit cannot be spelled), so what is left to check is that a
reserved-opcode row carries a word of that row. -/

namespace Sys2Proof

/-- `illegalAB w`: `w` matches 0xA0000000 under 0xE0000000; `illegalCF w`: `w` matches 0xC0000000 under 0xC0000000
(opcode_table.json, 30_encoding.md R104(a)). -/
def Instr.wellFormed : Instr → Bool
  | .nop => true
  | .encStart => true
  | .encSym _ => true
  | .encEnd => true
  | .encClear => true
  | .decStart => true
  | .decCode _ => true
  | .decEnd => true
  | .decClear => true
  | .blkClear => true
  | .illegalAB w => w.extractLsb' 29 3 == 0b101#3
  | .illegalCF w => w.extractLsb' 30 2 == 0b11#2

end Sys2Proof
end

