-- ==== Sys2Proof/Decode.lean ====
section
/-! DEFINITION. The decoder of spec/30_encoding.md R102, total on every 32-bit word, and the encoder written from the
same table. The words of R104(a) decode to the table's two reserved rows; the words of R104(b) match no row of the
table and are rejected by name. The block answers both alike, with ILLEGAL (40_dispatch.md R134). -/

namespace Sys2Proof

/-- A command word from its two fields (30_encoding.md R100). -/
def cmdWord (opcode : BitVec 4) (operand : Operand) : Word := opcode ++ operand

/-- `word[31:28]` (30_encoding.md R100). -/
def opcodeOf (w : Word) : BitVec 4 := w.extractLsb' 28 4

/-- `word[27:0]` (30_encoding.md R100, R101). -/
def operandOf (w : Word) : Operand := w.extractLsb' 0 28

/-- Why a word is no row of the opcode table: 30_encoding.md R104(b), a zero-operand opcode with a non-zero operand. -/
inductive Reject where
  | operandNotZero (w : Word)
deriving DecidableEq, Repr

/-- A command of operand class `NONE` (30_encoding.md R103): bits `[27:0]` must be 0. -/
def decodeNone (i : Instr) (w : Word) : Except Reject Instr :=
  if operandOf w = 0#28 then .ok i else .error (.operandNotZero w)

/-- The decoder of 30_encoding.md R102. It needs no state (R106). -/
def decode (w : Word) : Except Reject Instr :=
  match (opcodeOf w).toNat with
  | 0x0 => decodeNone .nop w
  | 0x1 => decodeNone .encStart w
  | 0x2 => .ok (.encSym (operandOf w))
  | 0x3 => decodeNone .encEnd w
  | 0x4 => decodeNone .encClear w
  | 0x5 => decodeNone .decStart w
  | 0x6 => .ok (.decCode (operandOf w))
  | 0x7 => decodeNone .decEnd w
  | 0x8 => decodeNone .decClear w
  | 0x9 => decodeNone .blkClear w
  | 0xA => .ok (.illegalAB w)
  | 0xB => .ok (.illegalAB w)
  | _ => .ok (.illegalCF w)

/-- The word of an instruction (30_encoding.md R102). -/
def encode : Instr → Word
  | .nop => cmdWord 0x0#4 0#28
  | .encStart => cmdWord 0x1#4 0#28
  | .encSym s => cmdWord 0x2#4 s
  | .encEnd => cmdWord 0x3#4 0#28
  | .encClear => cmdWord 0x4#4 0#28
  | .decStart => cmdWord 0x5#4 0#28
  | .decCode k => cmdWord 0x6#4 k
  | .decEnd => cmdWord 0x7#4 0#28
  | .decClear => cmdWord 0x8#4 0#28
  | .blkClear => cmdWord 0x9#4 0#28
  | .illegalAB w => w
  | .illegalCF w => w

/-- One row of opcode_table.json: the words whose bits under `mask` are those of `pattern`. -/
structure OpcodeRow where
  pattern : Word
  mask : Word
deriving DecidableEq, Repr

/-- A word belongs to a row. -/
def OpcodeRow.covers (r : OpcodeRow) (w : Word) : Bool := w &&& r.mask == r.pattern

/-- The row of opcode_table.json a constructor stands for (its "match" and "mask"). -/
def Instr.row : Instr → OpcodeRow
  | .nop => ⟨0x00000000#32, 0xFFFFFFFF#32⟩
  | .encStart => ⟨0x10000000#32, 0xFFFFFFFF#32⟩
  | .encSym _ => ⟨0x20000000#32, 0xF0000000#32⟩
  | .encEnd => ⟨0x30000000#32, 0xFFFFFFFF#32⟩
  | .encClear => ⟨0x40000000#32, 0xFFFFFFFF#32⟩
  | .decStart => ⟨0x50000000#32, 0xFFFFFFFF#32⟩
  | .decCode _ => ⟨0x60000000#32, 0xF0000000#32⟩
  | .decEnd => ⟨0x70000000#32, 0xFFFFFFFF#32⟩
  | .decClear => ⟨0x80000000#32, 0xFFFFFFFF#32⟩
  | .blkClear => ⟨0x90000000#32, 0xFFFFFFFF#32⟩
  | .illegalAB _ => ⟨0xA0000000#32, 0xE0000000#32⟩
  | .illegalCF _ => ⟨0xC0000000#32, 0xC0000000#32⟩

/-- The twelve rows of opcode_table.json, in its order. -/
def opcodeTable : List OpcodeRow :=
  [Instr.row .nop, Instr.row .encStart, Instr.row (.encSym 0), Instr.row .encEnd, Instr.row .encClear,
   Instr.row .decStart, Instr.row (.decCode 0), Instr.row .decEnd, Instr.row .decClear, Instr.row .blkClear,
   Instr.row (.illegalAB 0), Instr.row (.illegalCF 0)]

/-- The instruction the decoder reads from a word numbered as opcode_table.json numbers it: a command is one 32-bit
word (30_encoding.md R106), bit 0 its least significant bit; bits above `nbits` are 0. -/
def decodeTableWord (nbits w : Nat) : Option Instr :=
  match decode (BitVec.ofNat 32 (w % 2 ^ nbits)) with
  | .ok i => some i
  | .error _ => none

/-- `word[31:28]` is in `0xA..0xF` (30_encoding.md R104(a)), or it is one of the zero-operand opcodes and
`word[27:0] != 0` (R104(b)). -/
def illFormed (w : Word) : Bool :=
  [0xA#4, 0xB#4, 0xC#4, 0xD#4, 0xE#4, 0xF#4].contains (opcodeOf w) ||
  ([0x0#4, 0x1#4, 0x3#4, 0x4#4, 0x5#4, 0x7#4, 0x8#4, 0x9#4].contains (opcodeOf w) && operandOf w != 0#28)

/-- Byte lane `i` of a word carries bits `[8i+7:8i]` (20_memory.md R66). No access of the block can observe it. -/
def byteLane (w : Word) (i : Nat) : BitVec 8 := w.extractLsb' (8 * i) 8

/-- A line of a command list (30_encoding.md R107), split into its mnemonic and its operand, or a raw `.word`. -/
inductive AsmLine where
  | cmd (mnemonic : String) (operand : Option Nat)
  | word (literal : Nat)
deriving DecidableEq, Repr

/-- The opcode of a mnemonic and whether it takes an operand (30_encoding.md R102, R107). -/
def asmOpcode (mnemonic : String) : Option (BitVec 4 × Bool) :=
  [("NOP", 0x0#4, false), ("ENC_START", 0x1#4, false), ("ENC_SYM", 0x2#4, true), ("ENC_END", 0x3#4, false),
   ("ENC_CLEAR", 0x4#4, false), ("DEC_START", 0x5#4, false), ("DEC_CODE", 0x6#4, true), ("DEC_END", 0x7#4, false),
   ("DEC_CLEAR", 0x8#4, false), ("BLK_CLEAR", 0x9#4, false)].lookup mnemonic

/-- The assembler (30_encoding.md R107): `{opcode[3:0], zext_28(operand)}`; a line whose operand does not fit 28 bits
is rejected, and an operand is written only for ENC_SYM and DEC_CODE. `.word` emits its 32-bit literal unchanged; a
literal of more than 32 bits is no literal of that form and is rejected. -/
def assemble : AsmLine → Option Word
  | .word v => if v < 0x100000000 then some (BitVec.ofNat 32 v) else none
  | .cmd m operand =>
    match asmOpcode m, operand with
    | some (op, true), some v => if v < 0x10000000 then some (cmdWord op (BitVec.ofNat 28 v)) else none
    | some (op, false), none => some (cmdWord op 0#28)
    | _, _ => none

/-- The line that writes a command (30_encoding.md R107); an ill-formed word is written with `.word`. -/
def Instr.asmLine : Instr → AsmLine
  | .nop => .cmd "NOP" none
  | .encStart => .cmd "ENC_START" none
  | .encSym s => .cmd "ENC_SYM" (some s.toNat)
  | .encEnd => .cmd "ENC_END" none
  | .encClear => .cmd "ENC_CLEAR" none
  | .decStart => .cmd "DEC_START" none
  | .decCode k => .cmd "DEC_CODE" (some k.toNat)
  | .decEnd => .cmd "DEC_END" none
  | .decClear => .cmd "DEC_CLEAR" none
  | .blkClear => .cmd "BLK_CLEAR" none
  | .illegalAB w => .word w.toNat
  | .illegalCF w => .word w.toNat

end Sys2Proof
end

