-- ==== Sys2Proof/Config.lean ====
section
/-! DEFINITION. The implementation parameters of spec/00_scope.md R5. `DICT_CAP` is OPEN there: a machine is built
with one value of it, so it is a value of type `Params`. `OUT_DEPTH` is timing only and no rule computes with it
(70_reset_and_hazards.md R264), so it has no place here (log entry 9). -/

namespace Sys2Proof

/-- The parameter the spec leaves OPEN (00_scope.md R5): the number of codes a dictionary holds, seeds included, the
same for both units. -/
structure Params where
  dictCap : Nat
deriving DecidableEq, Repr

/-- The range 00_scope.md R5 gives `DICT_CAP`: `256 <= DICT_CAP <= 2^28`. -/
abbrev Params.wf (p : Params) : Prop := 256 ≤ p.dictCap ∧ p.dictCap ≤ 0x10000000

/-- `PHRASE_CAP = max(1, DICT_CAP - 255)` symbols (00_scope.md R5, 10_state.md R33). -/
def Params.phraseCap (p : Params) : Nat := if p.dictCap - 255 ≤ 1 then 1 else p.dictCap - 255

namespace Config

/-- `SEED_N`: codes `0..255` are the single-symbol phrases (00_scope.md R5). -/
abbrev seedN : Nat := 256

/-- `ID_VALUE` (00_scope.md R5, 10_state.md R40). -/
def idValue : Word := 0x4C5A5701#32

/-- The instance of the OPEN parameter that `State.reset` takes: `DICT_CAP = 2^28`, which 00_scope.md R5 says a model
may take. DESIGN CHOICE, log entry 1; every statement about the step holds for every value in range. -/
def params : Params := { dictCap := 0x10000000 }

end Config
end Sys2Proof
end

