-- ==== Sys2Proof/Machine/State.lean ====
section
/-! DEFINITION. The state of the block (spec/10_state.md), the outside world it meets as plain data
(spec/70_reset_and_hazards.md R272), the reasons a step can stop, and the state right after reset (R260, R261). -/

namespace Sys2Proof.Machine

/-- The session state of a unit (10_state.md R23). -/
inductive SessionState where
  | idle
  | active
  | done
  | error
deriving DecidableEq, Repr

/-- The error codes a unit can hold (60_exceptions.md R220). The reserved codes 4 and 7..15 are never produced
(93_implementation_defined.md I17), so they have no constructor. DEDUCED, log entry 11. -/
inductive ErrCode where
  | none
  | invalidSymbol
  | emptyStream
  | badCode
  | dictFull
  | sequenceError
deriving DecidableEq, Repr

/-- One dictionary entry: a 28-bit prefix code and an 8-bit suffix symbol (10_state.md R24). -/
structure Entry where
  prefixCode : Code
  suffixSym : Symbol
deriving DecidableEq, Repr

/-- A dictionary's storage array: (code, entry) pairs, codes strictly rising. An unlisted code has no value: its
contents are unspecified (10_state.md R22, R30; 70_reset_and_hazards.md R260). DESIGN CHOICE, log entry 5. -/
abbrev Memory := List (Nat × Entry)

/-- The fields both units have (10_state.md R22, R30). -/
structure UnitCore where
  state : SessionState
  err : ErrCode
  errinfo : Word
  next : NextCode
  inCount : Count
  outCount : Count
  dict : Memory
deriving DecidableEq, Repr

/-- The encoder unit (10_state.md R22): the common fields, `w_valid` and `w_code`. -/
structure EncUnit extends UnitCore where
  wValid : Bool
  wCode : Code
deriving DecidableEq, Repr

/-- The decoder unit (10_state.md R30): the common fields, `have_prev` and `prev`. -/
structure DecUnit extends UnitCore where
  havePrev : Bool
  prev : Code
deriving DecidableEq, Repr

/-- The block-level fields (10_state.md R21). -/
structure Blk where
  illegal : Bool
  illegalWord : Word
deriving DecidableEq, Repr

/-- Which agent moves next and what it does (10_state.md R20, 70_reset_and_hazards.md R272). A register access carries
its byte offset (6 bits, 20_memory.md R61) and its width in bits. DESIGN CHOICE, log entry 2. -/
inductive Turn where
  | block
  | offer
  | regRead (off : BitVec 6) (width : Nat)
  | regWrite (off : BitVec 6) (width : Nat) (value : Nat)
  | encTake
  | decTake
  | reset
deriving DecidableEq, Repr

/-- What a register access returns to the host (20_memory.md R62 to R64). -/
inductive Reply where
  | value (w : Word)
  | busError
deriving DecidableEq, Repr

/-- The world outside the block, as plain data: the host's command list, not yet offered (10_state.md R37, R58), the
agents' turns (R20), the replies the host got, oldest first, and the items the two sinks took, oldest first
(20_memory.md R68 to R70). Not state of the block. DESIGN CHOICE, log entries 2 and 3. -/
structure HostSide where
  commands : List Word
  turns : List Turn
  replies : List Reply
  encTaken : List Word
  decTaken : List Symbol
deriving DecidableEq, Repr

/-- The whole state: the parameter the block was built with (00_scope.md R5, log entry 1), the block (10_state.md R21,
R22, R30), the decoder's phrase buffer (R34), the two output streams, oldest item first (R35), the word offered on the
command port and not yet accepted (20_memory.md R67), and the outside world. -/
structure State where
  params : Params
  blk : Blk
  enc : EncUnit
  dec : DecUnit
  phraseBuf : List Symbol
  encOut : List Code
  decOut : List Symbol
  port : Option Word
  host : HostSide
deriving DecidableEq, Repr

/-- Where pseudocode of the spec has a precondition and a state breaks it. No run from reset meets one of these (the
invariant `Machine.Inv` of Safety.lean rules them out), and each is safe: the model stops where the spec gives the
hardware no effect. -/
inductive Fault where
  /-- Raised by DictRead at a code that is not valid or not stored: 20_memory.md R71 requires `256 <= k < u.next`.
  Reached only from DEC_CODE. Safe (log entry 6). -/
  | dictReadInvalid
  /-- Raised by DictWrite when `u.next < DICT_CAP` or `p < k` fails: 20_memory.md R71. Reached only from ENC_SYM and
  DEC_CODE. Safe (log entry 6). -/
  | dictWriteInvalid
  /-- Raised by the phrase sequencer when a prefix chain is longer than the phrase buffer has slots: 10_state.md R33
  and R34 say it never is. Reached only from DEC_CODE. Safe (log entry 7). -/
  | phraseTooLong
deriving DecidableEq, Repr

/-- Why an instruction has no meaning. -/
inductive Refusal where
  /-- An instruction the model gives no meaning yet; raised by `exec`'s own arms only. No arm raises it now. Safe. -/
  | notModelled (mnemonic : String)
deriving DecidableEq, Repr

/-- The common fields after reset (10_state.md R22, R30; 70_reset_and_hazards.md R261). The dictionary's contents are
unspecified there: nothing is listed (log entry 5). -/
def UnitCore.atReset : UnitCore :=
  { state := .idle, err := .none, errinfo := 0, next := 256, inCount := 0, outCount := 0, dict := [] }

/-- The block right after reset, for one value of the OPEN parameter (70_reset_and_hazards.md R260, R261), with a host
that has nothing to send yet (log entry 3). -/
def State.resetWith (p : Params) : State :=
  { params := p
    blk := { illegal := false, illegalWord := 0 }
    enc := { UnitCore.atReset with wValid := false, wCode := 0 }
    dec := { UnitCore.atReset with havePrev := false, prev := 0 }
    phraseBuf := []
    encOut := []
    decOut := []
    port := none
    host := { commands := [], turns := [], replies := [], encTaken := [], decTaken := [] } }

/-- The machine right after reset, with the instance of `DICT_CAP` that Config names (log entry 1). -/
def State.reset : State := State.resetWith Config.params

end Sys2Proof.Machine
end

