-- ==== Sys2Proof/Machine/Flags.lean ====
section
/-! DEFINITION. The status fields as the bits a register shows (spec/10_state.md R23, R38, R42, R44, R50;
spec/60_exceptions.md R220) and the event counters' arithmetic (spec/00_scope.md R8, spec/60_exceptions.md R237). There
are no condition codes (10_state.md R38). -/

namespace Sys2Proof.Machine

/-- The 2-bit STATE field (10_state.md R23). -/
def stateBits : SessionState → BitVec 2
  | .idle => 0
  | .active => 1
  | .done => 2
  | .error => 3

/-- The 4-bit ERR field (60_exceptions.md R220). -/
def errBits : ErrCode → BitVec 4
  | .none => 0
  | .invalidSymbol => 1
  | .emptyStream => 2
  | .badCode => 3
  | .dictFull => 5
  | .sequenceError => 6

/-- The layout ENC_STATUS and DEC_STATUS share: STATE `[1:0]`, W_VALID or HAVE_PREV `[2]`, 0 `[3]`, ERR `[7:4]`,
0 `[31:8]` (10_state.md R44, R50). -/
def statusWord (u : UnitCore) (flag : Bool) : Word :=
  0#24 ++ errBits u.err ++ 0#1 ++ BitVec.ofBool flag ++ stateBits u.state

/-- ENC_STATUS (10_state.md R44). -/
def encStatus (e : EncUnit) : Word := statusWord e.toUnitCore e.wValid

/-- DEC_STATUS (10_state.md R50). -/
def decStatus (d : DecUnit) : Word := statusWord d.toUnitCore d.havePrev

/-- BLK_STATUS: ILLEGAL in bit 0, the rest 0 (10_state.md R42). -/
def blkStatus (b : Blk) : Word := 0#31 ++ BitVec.ofBool b.illegal

/-- `c <- c + n (mod 2^32)` (00_scope.md R8). -/
def addCount (c : Count) (n : Nat) : Count := c + BitVec.ofNat 32 n

end Sys2Proof.Machine
end

