-- ==== Sys2Proof/Machine/Operands.lean ====
section
/-! DEFINITION. What a unit reads from a 28-bit operand: the symbol candidate of ENC_SYM (operand class SYM28) and the
code of DEC_CODE (operand class CODE28), spec/30_encoding.md R101 and R103. The range checks are the units' own
(spec/60_exceptions.md R221, R223). -/

namespace Sys2Proof.Machine

/-- The symbol an operand spells, if it is one: 0..255 (41_encoder.md R153, 60_exceptions.md R221). -/
def symbolOf (x : Operand) : Option Symbol := if x.toNat ≤ 255 then some (x.setWidth 8) else none

/-- The code of a seed: symbol `s` has code `s` (10_state.md R24, R25). -/
def seedCode (s : Symbol) : Code := s.setWidth 28

/-- The classes of a DEC_CODE operand (42_decoder.md R180). -/
inductive CodeClass where
  | first (s : Symbol)
  | firstBad
  | known
  | selfRef
  | bad
deriving DecidableEq, Repr

/-- Sorting a DEC_CODE operand against the state before the command (42_decoder.md R180). -/
def classify (d : DecUnit) (k : Operand) : CodeClass :=
  if d.havePrev then
    if k.toNat < d.next.toNat then .known
    else if k.toNat = d.next.toNat then .selfRef
    else .bad
  else
    match symbolOf k with
    | some s => .first s
    | none => .firstBad

end Sys2Proof.Machine
end

