-- ==== Sys2Proof/Machine/Ops.lean ====
section
/-! DEFINITION. The named operations every command is written with: the dictionary primitives (spec/20_memory.md R71,
spec/41_encoder.md R150), the phrase sequencer (spec/42_decoder.md R181), appending to the streams, entering a unit's
error state (spec/60_exceptions.md R228) and leaving it (R231), and the checks that discard a word (spec/40_dispatch.md
R130). -/

namespace Sys2Proof.Machine

/-- The answer of a command. -/
abbrev Answer := Host.Outcome State Fault Refusal

/-! ### The dictionary arrays -/

/-- The canonical form of a dictionary array: codes strictly rising. An unlisted code has no value, so no listed entry
equals what an unlisted code reads as. -/
def Memory.wf : Memory → Bool
  | [] => true
  | [_] => true
  | a :: b :: rest => decide (a.1 < b.1) && Memory.wf (b :: rest)

/-- What is stored at a code; `none` where nothing is. -/
def Memory.read (m : Memory) (k : Nat) : Option Entry := m.lookup k

/-- Storing an entry at a code, keeping the codes strictly rising. -/
def Memory.write (m : Memory) (k : Nat) (e : Entry) : Memory :=
  match m with
  | [] => [(k, e)]
  | (j, f) :: rest =>
    if k < j then (k, e) :: (j, f) :: rest
    else if k = j then (k, e) :: rest
    else (j, f) :: Memory.write rest k e

/-- `DictRead(u, k)` (20_memory.md R71): requires `256 <= k < u.next`. -/
def dictRead (m : Memory) (next : NextCode) (k : Nat) : Except Fault Entry :=
  if 256 ≤ k ∧ k < next.toNat then
    match Memory.read m k with
    | some e => .ok e
    | none => .error .dictReadInvalid
  else .error .dictReadInvalid

/-- `DictWrite(u, u.next, p, s)` (20_memory.md R71): requires `k = u.next < DICT_CAP` and `p < k`; a code of a
dictionary is at least 256. The symbol is `<= 255` by its type. -/
def dictWrite (params : Params) (m : Memory) (next : NextCode) (p : Code) (s : Symbol) : Except Fault Memory :=
  if 256 ≤ next.toNat ∧ next.toNat < params.dictCap ∧ p.toNat < next.toNat then
    .ok (Memory.write m next.toNat { prefixCode := p, suffixSym := s })
  else .error .dictWriteInvalid

/-- `CamFind(p, s)` (41_encoder.md R150): the valid code whose entry is `(p, s)`, if there is one. At most one matches
(10_state.md R26(c)); the lowest is taken in a state where that fails (DESIGN CHOICE, log entry 8). -/
def camFind (m : Memory) (next : NextCode) (p : Code) (s : Symbol) : Option Nat :=
  match m with
  | [] => none
  | (k, e) :: rest =>
    if 256 ≤ k ∧ k < next.toNat ∧ e = { prefixCode := p, suffixSym := s } then some k
    else camFind rest next p s

/-! ### Phrases -/

/-- The trie walk of 42_decoder.md R181 from code `c` back to its seed, with `slots` free slots of the phrase buffer and
`pb` what has been pushed so far, last pushed first. It answers the full buffer, which pops first symbol first. The
symbol of a seed is its code's low 8 bits. DEDUCED, log entry 7: running out of slots is a fault. -/
def walk (m : Memory) (next : NextCode) : (slots : Nat) → (c : Code) → (pb : List Symbol) → Except Fault (List Symbol)
  | 0, _, _ => .error .phraseTooLong
  | slots + 1, c, pb =>
    if c.toNat < 256 then .ok (c.setWidth 8 :: pb)
    else
      match dictRead m next c.toNat with
      | .ok e => walk m next slots e.prefixCode (e.suffixSym :: pb)
      | .error f => .error f

/-- `first(u, k)` (10_state.md R31), along the prefix chain, which is at most as long as the phrase buffer (R33). -/
def firstSym (m : Memory) (next : NextCode) : (len : Nat) → (c : Code) → Except Fault Symbol
  | 0, _ => .error .phraseTooLong
  | len + 1, c =>
    if c.toNat < 256 then .ok (c.setWidth 8)
    else
      match dictRead m next c.toNat with
      | .ok e => firstSym m next len e.prefixCode
      | .error f => .error f

/-! ### Updates of the state -/

/-- Write the block-level fields. -/
def State.setBlk (b : Blk) (s : State) : State := { s with blk := b }

/-- Write the encoder unit's fields. -/
def State.setEnc (e : EncUnit) (s : State) : State := { s with enc := e }

/-- Write the decoder unit's fields. -/
def State.setDec (d : DecUnit) (s : State) : State := { s with dec := d }

/-- `Emit(ENC_OUT, c)` (00_scope.md R10, 20_memory.md R68): append one code. -/
def State.emitCode (c : Code) (s : State) : State := { s with encOut := s.encOut ++ [c] }

/-- `EmitPhrase(DEC_OUT, p)` (42_decoder.md R181): append the symbols popped from the phrase buffer, first symbol
first, which leaves the buffer empty (10_state.md R34). -/
def State.emitPhrase (p : List Symbol) (s : State) : State := { s with decOut := s.decOut ++ p, phraseBuf := [] }

/-- Write the word on the command port. -/
def State.setPort (w : Option Word) (s : State) : State := { s with port := w }

/-- Write the outside world's data. -/
def State.setHost (h : HostSide) (s : State) : State := { s with host := h }

/-! ### Sessions, errors and their return -/

/-- What START leaves in the common fields (41_encoder.md R152, 42_decoder.md R182); the array is not written. -/
def UnitCore.opened (u : UnitCore) : UnitCore :=
  { u with state := .active, err := .none, errinfo := 0, next := 256, inCount := 0, outCount := 0 }

/-- What CLEAR leaves in the common fields (41_encoder.md R155, 42_decoder.md R185): the return from the error state
(60_exceptions.md R231). -/
def UnitCore.cleared (u : UnitCore) : UnitCore :=
  { u with state := .idle, err := .none, errinfo := 0, next := 256, inCount := 0, outCount := 0 }

/-- `raise E(info)` (60_exceptions.md R228): the one error entry of both units. It writes these three fields and
nothing else; every other write of the command is abandoned (R229). -/
def UnitCore.raised (e : ErrCode) (info : Word) (u : UnitCore) : UnitCore :=
  { u with state := .error, err := e, errinfo := info }

/-- `raise` in a command of the encoder. -/
def raiseEnc (e : ErrCode) (info : Word) (s : State) : Answer :=
  .next (s.setEnc { s.enc with toUnitCore := s.enc.toUnitCore.raised e info })

/-- `raise` in a command of the decoder. -/
def raiseDec (e : ErrCode) (info : Word) (s : State) : Answer :=
  .next (s.setDec { s.dec with toUnitCore := s.dec.toUnitCore.raised e info })

/-- The first check of 40_dispatch.md R130: while `blk.illegal = 1` a word other than BLK_CLEAR is discarded. -/
def unlessIllegal (s : State) (k : Answer) : Answer := if s.blk.illegal then .next s else k

/-- The checks before an encoder command other than ENC_CLEAR (40_dispatch.md R130, R135): discarded while the block is
illegal or the unit is in ERROR. -/
def unlessEncDiscards (s : State) (k : Answer) : Answer :=
  unlessIllegal s (if s.enc.state = .error then .next s else k)

/-- The checks before a decoder command other than DEC_CLEAR (40_dispatch.md R130, R135). -/
def unlessDecDiscards (s : State) (k : Answer) : Answer :=
  unlessIllegal s (if s.dec.state = .error then .next s else k)

/-- IllegalCommand: `ILLEGAL(word)` (40_dispatch.md R134, 60_exceptions.md R226). Only the first ill-formed word after
a BLK_CLEAR or reset is recorded. -/
def takeIllegal (w : Word) (s : State) : Answer :=
  unlessIllegal s (.next (s.setBlk { illegal := true, illegalWord := w }))

end Sys2Proof.Machine
end

