-- ==== Sys2Proof/Machine/Block.lean ====
section
/-! DEFINITION. The block commands (spec/40_dispatch.md R132, R133) and the two reserved-opcode rows of the opcode table,
which are ill-formed words (R134, spec/30_encoding.md R104(a)). -/

namespace Sys2Proof.Machine

/-- NOP (40_dispatch.md R132): no state changes, whether it is performed or discarded. -/
def execNop (s : State) : Answer := unlessIllegal s (.next s)

/-- BLK_CLEAR (40_dispatch.md R133): the only word that takes effect while `blk.illegal = 1`. -/
def execBlkClear (s : State) : Answer := .next (s.setBlk { illegal := false, illegalWord := 0 })

/-- A word with opcode 0xA or 0xB (40_dispatch.md R134). -/
def execIllegalAB (w : Word) (s : State) : Answer := takeIllegal w s

/-- A word with opcode 0xC to 0xF (40_dispatch.md R134). -/
def execIllegalCF (w : Word) (s : State) : Answer := takeIllegal w s

end Sys2Proof.Machine
end

