-- ==== Sys2Proof/Machine/Decoder.lean ====
section
/-! DEFINITION. The decoder unit's commands (spec/42_decoder.md). -/

namespace Sys2Proof.Machine

/-- DEC_START (42_decoder.md R182). -/
def execDecStart (s : State) : Answer :=
  unlessDecDiscards s (.next (s.setDec { s.dec with toUnitCore := s.dec.toUnitCore.opened, havePrev := false, prev := 0 }))

/-- The first code of a session (42_decoder.md R183, class FIRST of R180): emit `[k]`, insert nothing. -/
def decFirst (x : Symbol) (s : State) : State :=
  (s.emitPhrase [x]).setDec
    { s.dec with
      outCount := addCount s.dec.outCount 1
      havePrev := true
      prev := seedCode x
      inCount := addCount s.dec.inCount 1 }

/-- A later code (42_decoder.md R183, classes KNOWN and SELFREF of R180). `c` is the code whose first symbol is
`entry[0]`: `k` for KNOWN, `dec.prev` for SELFREF. The new entry is written, then the sequencer of R181 walks from `k`
in the dictionary that holds it, so that `phrase(dec, k)` is `entry` in both cases. -/
def decNext (k c : Code) (s : State) : Answer :=
  if s.dec.next.toNat = s.params.dictCap then raiseDec .dictFull (zext32 s.dec.next) s
  else
    match firstSym s.dec.dict s.dec.next s.params.phraseCap c with
    | .error f => .fault f
    | .ok x =>
      match dictWrite s.params s.dec.dict s.dec.next s.dec.prev x with
      | .error f => .fault f
      | .ok m =>
        match walk m (s.dec.next + 1) s.params.phraseCap k [] with
        | .error f => .fault f
        | .ok p =>
          .next ((s.emitPhrase p).setDec
            { s.dec with
              dict := m
              next := s.dec.next + 1
              outCount := addCount s.dec.outCount p.length
              prev := k
              inCount := addCount s.dec.inCount 1 })

/-- DEC_CODE (42_decoder.md R183). -/
def execDecCode (k : Operand) (s : State) : Answer :=
  unlessDecDiscards s <|
    if s.dec.state = .active then
      match classify s.dec k with
      | .first x => .next (decFirst x s)
      | .firstBad => raiseDec .badCode (zext32 k) s
      | .known => decNext k k s
      | .selfRef => decNext k s.dec.prev s
      | .bad => raiseDec .badCode (zext32 k) s
    else raiseDec .sequenceError (encode (.decCode k)) s

/-- DEC_END (42_decoder.md R184): `have_prev` and `prev` are kept. -/
def execDecEnd (s : State) : Answer :=
  unlessDecDiscards s <|
    if s.dec.state = .active then
      if s.dec.havePrev then .next (s.setDec { s.dec with state := .done })
      else raiseDec .emptyStream 0 s
    else raiseDec .sequenceError (encode .decEnd) s

/-- DEC_CLEAR (42_decoder.md R185): accepted in every unit state. -/
def execDecClear (s : State) : Answer :=
  unlessIllegal s (.next (s.setDec { s.dec with toUnitCore := s.dec.toUnitCore.cleared, havePrev := false, prev := 0 }))

end Sys2Proof.Machine
end

