-- ==== Sys2Proof/Machine/Encoder.lean ====
section
/-! DEFINITION. The encoder unit's commands (spec/41_encoder.md). -/

namespace Sys2Proof.Machine

/-- ENC_START (41_encoder.md R152). -/
def execEncStart (s : State) : Answer :=
  unlessEncDiscards s (.next (s.setEnc { s.enc with toUnitCore := s.enc.toUnitCore.opened, wValid := false, wCode := 0 }))

/-- The last two branches of ENC_SYM (41_encoder.md R153): one more symbol matched, `w` now has code `c`. -/
def encAdvance (c : Code) (s : State) : State :=
  s.setEnc { s.enc with wValid := true, wCode := c, inCount := addCount s.enc.inCount 1 }

/-- The miss branch of ENC_SYM (41_encoder.md R153): DictFull, or emit the code of `w`, insert `w ++ [x]`, restart at
`x`. -/
def encMiss (x : Symbol) (s : State) : Answer :=
  if s.enc.next.toNat = s.params.dictCap then raiseEnc .dictFull (zext32 s.enc.next) s
  else
    match dictWrite s.params s.enc.dict s.enc.next s.enc.wCode x with
    | .error f => .fault f
    | .ok m =>
      .next ((s.emitCode s.enc.wCode).setEnc
        { s.enc with
          outCount := addCount s.enc.outCount 1
          dict := m
          next := s.enc.next + 1
          wCode := seedCode x
          inCount := addCount s.enc.inCount 1 })

/-- ENC_SYM (41_encoder.md R153). -/
def execEncSym (x : Operand) (s : State) : Answer :=
  unlessEncDiscards s <|
    if s.enc.state = .active then
      match symbolOf x with
      | none => raiseEnc .invalidSymbol (zext32 x) s
      | some c =>
        if s.enc.wValid then
          match camFind s.enc.dict s.enc.next s.enc.wCode c with
          | some k => .next (encAdvance (BitVec.ofNat 28 k) s)
          | none => encMiss c s
        else .next (encAdvance (seedCode c) s)
    else raiseEnc .sequenceError (encode (.encSym x)) s

/-- The emission of ENC_END (41_encoder.md R154): the code of `w`, if `w` is not empty. -/
def encFlush (s : State) : State :=
  if s.enc.wValid then
    (s.emitCode s.enc.wCode).setEnc { s.enc with outCount := addCount s.enc.outCount 1 }
  else s

/-- ENC_END (41_encoder.md R154). -/
def execEncEnd (s : State) : Answer :=
  unlessEncDiscards s <|
    if s.enc.state = .active then
      .next ((encFlush s).setEnc { (encFlush s).enc with wValid := false, wCode := 0, state := .done })
    else raiseEnc .sequenceError (encode .encEnd) s

/-- ENC_CLEAR (41_encoder.md R155): accepted in every unit state. -/
def execEncClear (s : State) : Answer :=
  unlessIllegal s (.next (s.setEnc { s.enc with toUnitCore := s.enc.toUnitCore.cleared, wValid := false, wCode := 0 }))

end Sys2Proof.Machine
end

