-- ==== Sys2Proof/Machine/Dispatch.lean ====
section
/-! DEFINITION. One arm for each constructor of Instr (spec/40_dispatch.md R130). -/

namespace Sys2Proof.Machine

-- The checks of 40_dispatch.md R131 stand in each meaning; the hold of 70_reset_and_hazards.md R265 comes before.
def exec (i : Instr) (s : State) : Host.Outcome State Fault Refusal :=
  match i with
  | .nop => Sys2Proof.Machine.execNop s
  | .encStart => Sys2Proof.Machine.execEncStart s
  | .encSym x => Sys2Proof.Machine.execEncSym x s
  | .encEnd => Sys2Proof.Machine.execEncEnd s
  | .encClear => Sys2Proof.Machine.execEncClear s
  | .decStart => Sys2Proof.Machine.execDecStart s
  | .decCode k => Sys2Proof.Machine.execDecCode k s
  | .decEnd => Sys2Proof.Machine.execDecEnd s
  | .decClear => Sys2Proof.Machine.execDecClear s
  | .blkClear => Sys2Proof.Machine.execBlkClear s
  | .illegalAB w => Sys2Proof.Machine.execIllegalAB w s
  | .illegalCF w => Sys2Proof.Machine.execIllegalCF w s

end Sys2Proof.Machine
end

