-- ==== Sys2Proof/Machine/Window.lean ====
section
/-! DEFINITION. The register window: the sixteen read-only status registers (spec/10_state.md R39 to R55) and what an
access returns (spec/20_memory.md R61 to R65). -/

namespace Sys2Proof.Machine

/-- The register at word offset `i` (byte offset `4 * i`), computed from the state it shows (10_state.md R39). The
window has no holes: the last arm is offset 0x3C. -/
def register (i : BitVec 4) (s : State) : Word :=
  match i.toNat with
  | 0x0 => Config.idValue
  | 0x1 => BitVec.ofNat 32 s.params.dictCap
  | 0x2 => blkStatus s.blk
  | 0x3 => s.blk.illegalWord
  | 0x4 => encStatus s.enc
  | 0x5 => s.enc.errinfo
  | 0x6 => zext32 s.enc.wCode
  | 0x7 => zext32 s.enc.next
  | 0x8 => s.enc.inCount
  | 0x9 => s.enc.outCount
  | 0xA => decStatus s.dec
  | 0xB => s.dec.errinfo
  | 0xC => zext32 s.dec.prev
  | 0xD => zext32 s.dec.next
  | 0xE => s.dec.inCount
  | _ => s.dec.outCount

/-- `RegRead(off)` (20_memory.md R62, R64): only an aligned 32-bit read is admitted. -/
def regRead (off : BitVec 6) (width : Nat) (s : State) : Reply :=
  if off.extractLsb' 0 2 = 0#2 ∧ width = 32 then .value (register (off.extractLsb' 2 4) s) else .busError

/-- A host write to any offset, of any width (20_memory.md R63). -/
def regWrite (_off : BitVec 6) (_width _value : Nat) (_s : State) : Reply := .busError

end Sys2Proof.Machine
end

