-- ==== Sys2Proof/Machine/Turns.lean ====
section
/-! DEFINITION. What each agent does on its turn (spec/10_state.md R20, spec/70_reset_and_hazards.md R272): the block
accepts or holds the offered word (R264, R265, spec/40_dispatch.md R130), the host offers a word, accesses a register or
resets (R260), a sink takes an item (spec/20_memory.md R70). A turn that is not enabled changes nothing (log entry
15). -/

namespace Sys2Proof.Machine

/-- The hold of 70_reset_and_hazards.md R265: the exact START and CLEAR words wait for their stream to drain, whatever
the unit state and whatever `blk.illegal`. -/
def held (w : Word) (s : State) : Bool :=
  ((w == 0x10000000#32 || w == 0x40000000#32) && !s.encOut.isEmpty) ||
  ((w == 0x50000000#32 || w == 0x80000000#32) && !s.decOut.isEmpty)

/-- `Step(word)` (40_dispatch.md R130) for an accepted word: the instruction it decodes to, or ILLEGAL. -/
def perform (w : Word) (s : State) : Answer :=
  match decode w with
  | .ok i => exec i s
  | .error (.operandNotZero v) => takeIllegal v s

/-- The block's turn: idle with no word offered (60_exceptions.md R241), a held word stays offered (20_memory.md R67),
any other is accepted and performed as one step. -/
def blockTurn (s : State) : Answer :=
  match s.port with
  | none => .next s
  | some w => if held w s then .next s else perform w (s.setPort none)

/-- The host's offer: the next word of its list goes on the port if the port is free; else the word waits (20_memory.md
R67: a held word may not be replaced). DEDUCED, log entry 4. -/
def offerTurn (s : State) : State :=
  match s.port, s.host.commands with
  | none, w :: ws => (s.setPort (some w)).setHost { s.host with commands := ws }
  | _, _ => s

/-- The host gets a reply from the register window; nothing else changes (20_memory.md R62 to R65). -/
def replyTurn (r : Reply) (s : State) : State := s.setHost { s.host with replies := s.host.replies ++ [r] }

/-- The ENC_OUT sink takes the head of `enc_out`, delivered as one 32-bit word (20_memory.md R68, R70). -/
def encTakeTurn (s : State) : State :=
  match s.encOut with
  | [] => s
  | c :: rest => { s with encOut := rest, host := { s.host with encTaken := s.host.encTaken ++ [zext32 c] } }

/-- The DEC_OUT sink takes the head of `dec_out` (20_memory.md R69, R70). -/
def decTakeTurn (s : State) : State :=
  match s.decOut with
  | [] => s
  | x :: rest => { s with decOut := rest, host := { s.host with decTaken := s.host.decTaken ++ [x] } }

/-- Reset (70_reset_and_hazards.md R260): every field of the block at its reset value, both streams empty, the offered
word dropped. The outside world keeps its data. -/
def resetTurn (s : State) : State := (State.resetWith s.params).setHost s.host

/-- One turn of one agent. -/
def takeTurn (t : Turn) (s : State) : Answer :=
  match t with
  | .block => blockTurn s
  | .offer => .next (offerTurn s)
  | .regRead off width => .next (replyTurn (regRead off width s) s)
  | .regWrite off width value => .next (replyTurn (regWrite off width value s) s)
  | .encTake => .next (encTakeTurn s)
  | .decTake => .next (decTakeTurn s)
  | .reset => .next (resetTurn s)

/-- Who moves when no turn is listed: the block if a word stands on the port, else the host offers its next word.
DESIGN CHOICE, log entry 2. -/
def defaultTurn (s : State) : Turn :=
  match s.port with
  | some _ => .block
  | none => .offer

/-- The turn a step takes and the state it takes it in: the listed turn is used up. -/
def nextTurn (s : State) : Turn × State :=
  match s.host.turns with
  | [] => (defaultTurn s, s)
  | t :: ts => (t, s.setHost { s.host with turns := ts })

/-- The state in which the next step accepts the word `w`: `w` stands on the port and the block moves next. -/
def offerNow (w : Word) (s : State) : State :=
  (s.setPort (some w)).setHost { s.host with turns := .block :: s.host.turns }

end Sys2Proof.Machine
end

