-- ==== Sys2Proof/Machine/Step.lean ====
section
/-! DEFINITION. One step: the agent whose turn it is moves (spec/10_state.md R20). Each accepted command is one step
(spec/20_memory.md R72). -/

namespace Sys2Proof.Machine

/-- One step of the machine and its outside world. -/
def step (s : State) : Host.Outcome State Fault Refusal := takeTurn (nextTurn s).1 (nextTurn s).2

/-- The state `s` with a command word offered on the port, so that the very next step accepts it (log entry 3). Bits
above `nbits` are 0. -/
def State.withFetchWord (s : State) (nbits w : Nat) : State := offerNow (BitVec.ofNat 32 (w % 2 ^ nbits)) s

end Sys2Proof.Machine
end

