-- ==== Sys2Proof/Safety.lean ====
section
/-! DEFINITION. What claims about the block are stated in: the phrase a code denotes (spec/10_state.md R25, R31), the
invariant of the machine (R26, R32, R34, spec/60_exceptions.md R228), dictionary growth (spec/41_encoder.md R157,
spec/42_decoder.md R189), runs, sessions and their result (spec/00_scope.md R12, spec/70_reset_and_hazards.md R271,
spec/60_exceptions.md R233), and the source's two algorithms on whole sequences, which R156 and R187 compare the units
with. -/

namespace Sys2Proof.Machine

/-! ### Phrases -/

/-- `phrase(u, k)` (10_state.md R25, R31) in a dictionary array with `next` codes, by recursion on `fuel`. -/
def phraseFuel (m : Memory) (next : Nat) : (fuel : Nat) → (k : Nat) → Option (List Symbol)
  | 0, _ => none
  | fuel + 1, k =>
    if k < 256 then some [BitVec.ofNat 8 k]
    else if k < next then
      match Memory.read m k with
      | some e => (phraseFuel m next fuel e.prefixCode.toNat).map (· ++ [e.suffixSym])
      | none => none
    else none

/-- `phrase(u, k)` (10_state.md R31): prefixes are smaller codes, so `k + 1` links are enough. `none` where it is
undefined. -/
def UnitCore.phrase (u : UnitCore) (k : Nat) : Option (List Symbol) := phraseFuel u.dict u.next.toNat (k + 1) k

/-- Code `k` is a valid entry of the unit (10_state.md R24): `256 <= k < u.next`. -/
def UnitCore.validEntry (u : UnitCore) (k : Nat) : Prop := 256 ≤ k ∧ k < u.next.toNat

/-! ### The invariant -/

/-- What holds of either unit after every command (10_state.md R24, R26(a), R32(a); 60_exceptions.md R224, R228). -/
structure UnitCore.Inv (p : Params) (u : UnitCore) : Prop where
  next_ge : 256 ≤ u.next.toNat
  next_le : u.next.toNat ≤ p.dictCap
  dict_wf : Memory.wf u.dict = true
  dict_codes : ∀ k e, Memory.read u.dict k = some e → 256 ≤ k ∧ k < p.dictCap
  entry : ∀ k, u.validEntry k → ∃ e, Memory.read u.dict k = some e ∧ e.prefixCode.toNat < k
  err_iff : u.err ≠ .none ↔ u.state = .error
  errinfo_zero : u.state ≠ .error → u.errinfo = 0

/-- The encoder's invariant (10_state.md R22, R26, R44; 41_encoder.md R151). -/
structure EncUnit.Inv (p : Params) (e : EncUnit) : Prop where
  core : e.toUnitCore.Inv p
  w_code_lt : e.wValid = true → e.wCode.toNat < e.next.toNat
  w_code_zero : e.wValid = false → e.wCode = 0
  distinct : ∀ j k, e.validEntry j → e.validEntry k → Memory.read e.dict j = Memory.read e.dict k → j = k
  err_code : e.err = .none ∨ e.err = .invalidSymbol ∨ e.err = .dictFull ∨ e.err = .sequenceError
  idle_reset : e.state = .idle → e.wValid = false ∧ e.next = 256 ∧ e.inCount = 0 ∧ e.outCount = 0
  done_empty : e.state = .done → e.wValid = false

/-- The decoder's invariant (10_state.md R30, R32, R50; 42_decoder.md R186). -/
structure DecUnit.Inv (p : Params) (d : DecUnit) : Prop where
  core : d.toUnitCore.Inv p
  prev_lt : d.havePrev = true → d.prev.toNat < d.next.toNat
  prev_zero : d.havePrev = false → d.prev = 0
  fresh : d.havePrev = false → d.next = 256
  err_code : d.err = .none ∨ d.err = .emptyStream ∨ d.err = .badCode ∨ d.err = .dictFull ∨ d.err = .sequenceError
  idle_reset : d.state = .idle → d.havePrev = false ∧ d.next = 256 ∧ d.inCount = 0 ∧ d.outCount = 0
  done_prev : d.state = .done → d.havePrev = true

/-- The invariant of the machine. It says nothing about the streams, the port or the outside world, and nothing about
what an array holds at a code that is not valid. -/
structure Inv (s : State) : Prop where
  params : s.params.wf
  enc : s.enc.Inv s.params
  dec : s.dec.Inv s.params
  buffer_empty : s.phraseBuf = []
  legal_word : s.blk.illegal = false → s.blk.illegalWord = 0
  illegal_word : s.blk.illegal = true → illFormed s.blk.illegalWord = true

/-- Dictionary growth in an encoder session (41_encoder.md R157, R154): one entry for each code emitted by ENC_SYM and
none for the code emitted by ENC_END. Nothing is said of a unit in ERROR. -/
structure EncUnit.Growth (e : EncUnit) : Prop where
  active : e.state = .active → e.outCount.toNat + 256 = e.next.toNat ∧ (e.wValid = false → e.next = 256)
  done : e.state = .done → (e.outCount = 0 ∧ e.next = 256) ∨ e.outCount.toNat + 255 = e.next.toNat

/-- Dictionary growth in a decoder session (42_decoder.md R189): after `m >= 1` codes, `next = 256 + m - 1`. -/
structure DecUnit.Growth (d : DecUnit) : Prop where
  none : d.havePrev = false → d.inCount = 0 ∧ d.next = 256
  some : d.havePrev = true → d.inCount.toNat + 255 = d.next.toNat

/-- Both units grow as the spec says. -/
def Growth (s : State) : Prop := s.enc.Growth ∧ s.dec.Growth

/-! ### What no command can see -/

/-- Two units that differ at most in what their arrays hold at codes that are not valid (10_state.md R22, R30: "No rule
reads an entry at code `k >= next`"). -/
def UnitCore.SameValid (u v : UnitCore) : Prop :=
  { v with dict := u.dict } = u ∧ ∀ k, u.validEntry k → Memory.read v.dict k = Memory.read u.dict k

/-- Two states that differ at most in such entries of either dictionary. -/
def SameButStale (s s' : State) : Prop :=
  s.enc.toUnitCore.SameValid s'.enc.toUnitCore ∧
  s.dec.toUnitCore.SameValid s'.dec.toUnitCore ∧
  { s' with enc := { s'.enc with dict := s.enc.dict }, dec := { s'.dec with dict := s.dec.dict } } = s

/-! ### Runs and sessions -/

/-- Performing a list of instructions one after the other, stopping at the first fault or refusal. -/
def execList : List Instr → State → Answer
  | [], s => .next s
  | i :: is, s =>
    match exec i s with
    | .next t => execList is t
    | .fault f => .fault f
    | .refused r => .refused r

/-- The word the next step accepts, if it accepts one (20_memory.md R67). -/
def acceptedWord (s : State) : Option Word :=
  match (nextTurn s).1, s.port with
  | .block, some w => if held w s then none else some w
  | _, _ => none

/-- What the next step means to a unit's session (00_scope.md R12). A word that is discarded (40_dispatch.md R130,
R135) or that no open session receives (60_exceptions.md R225) is `other` (log entry 21). -/
inductive SessionEvent where
  /-- A START is performed. -/
  | opens
  /-- An ENC_SYM or DEC_CODE is performed in an open session. -/
  | item (x : Operand)
  /-- An END succeeds. -/
  | completes
  /-- A CLEAR is performed, or reset. -/
  | clears
  /-- The unit's sink takes an item. -/
  | take
  | other
deriving DecidableEq, Repr

/-- The next step, seen from the encoder. -/
def encEvent (s : State) : SessionEvent :=
  match (nextTurn s).1 with
  | .reset => .clears
  | .encTake => .take
  | _ =>
    match acceptedWord s with
    | none => .other
    | some w =>
      if s.blk.illegal then .other
      else if w = 0x40000000#32 then .clears
      else if s.enc.state = .error then .other
      else if w = 0x10000000#32 then .opens
      else if s.enc.state = .active then
        match decode w with
        | .ok (.encSym x) => .item x
        | .ok .encEnd => .completes
        | _ => .other
      else .other

/-- The next step, seen from the decoder. A DEC_END succeeds once a code was consumed (42_decoder.md R184). -/
def decEvent (s : State) : SessionEvent :=
  match (nextTurn s).1 with
  | .reset => .clears
  | .decTake => .take
  | _ =>
    match acceptedWord s with
    | none => .other
    | some w =>
      if s.blk.illegal then .other
      else if w = 0x80000000#32 then .clears
      else if s.dec.state = .error then .other
      else if w = 0x50000000#32 then .opens
      else if s.dec.state = .active then
        match decode w with
        | .ok (.decCode k) => .item k
        | .ok .decEnd => if s.dec.havePrev then .completes else .other
        | _ => .other
      else .other

/-- How a session stands (00_scope.md R12, 60_exceptions.md R233, 70_reset_and_hazards.md R271). -/
inductive SessionPhase where
  /-- Opened by its START, not ended and not failed. -/
  | running
  /-- An error put the unit in ERROR before the session ended (R233(a)). R271's failed is `EncFailed` and `DecFailed`:
  it is wider, and BLK_CLEAR can undo it. -/
  | failed
  /-- Its END succeeded, so it ended in DONE. -/
  | ended
  /-- START, CLEAR or reset ended it before a successful END and before any error. -/
  | abandoned
deriving DecidableEq, Repr

/-- The phase after one more step, from the event and the unit state after it. Only a running session can still come to
an end: a later word, error, START, CLEAR or reset does not change how a session ended (R12: "the first of these"). -/
def SessionPhase.after (p : SessionPhase) (ev : SessionEvent) (after : SessionState) : SessionPhase :=
  match p with
  | .running =>
    match ev with
    | .completes => .ended
    | .opens => .abandoned
    | .clears => .abandoned
    | _ => if after = .error then .failed else .running
  | .failed => .failed
  | .ended => .ended
  | .abandoned => .abandoned

/-- What there is to know of a session. -/
structure SessionLog (α : Type) where
  /-- The symbols or codes performed in it. -/
  ins : List Operand
  /-- The items the unit appended since the START (60_exceptions.md R233). -/
  out : List α
  /-- The items the sink took since the START (70_reset_and_hazards.md R271). -/
  taken : List α
  phase : SessionPhase
  /-- The unit's next START, or a CLEAR or reset, has been performed: no item taken from now on is the session's. -/
  closed : Bool
  /-- `blk.illegal = 0` has held since the START (R271). -/
  clean : Bool
  /-- `blk.illegal` became 1 while the session was ACTIVE (R233(b)). -/
  spoiled : Bool
  /-- The session has ended well (R271), in this state or an earlier one. -/
  well : Bool
  /-- The session has failed (R271, `EncFailed`, `DecFailed`), in this state or an earlier one. -/
  everFailed : Bool

/-- The log of a session whose START has just been performed. -/
def SessionLog.new {α : Type} : SessionLog α :=
  { ins := [], out := [], taken := [], phase := .running, closed := false, clean := true, spoiled := false,
    well := false, everFailed := false }

/-- The log after one more step: which event it was, what was appended and what a take takes, and the unit state,
`blk.illegal` and whether the stream is empty after it. -/
def SessionLog.after {α : Type} (l : SessionLog α) (ev : SessionEvent) (appended taken : List α) (unit : SessionState)
    (illegal drained : Bool) : SessionLog α :=
  let well := l.well || (l.phase.after ev unit == .ended && unit == .done && (l.clean && !illegal) && drained)
  { ins := match ev with
      | .item x => l.ins ++ [x]
      | _ => l.ins
    out := l.out ++ appended
    taken := match ev with
      | .take => l.taken ++ taken
      | _ => l.taken
    phase := l.phase.after ev unit
    closed := l.closed || ev == .opens || ev == .clears
    clean := l.clean && !illegal
    spoiled := l.spoiled || (illegal && unit == .active)
    well := well
    everFailed := l.everFailed || (!well && (unit == .error || illegal)) }

/-- The encoder session's log after the step from `s` to `t`. A take or a reset appends nothing. -/
def encLogAfter (l : SessionLog Word) (s t : State) : SessionLog Word :=
  l.after (encEvent s) ((t.encOut.drop s.encOut.length).map zext32) ((s.encOut.take 1).map zext32) t.enc.state
    t.blk.illegal t.encOut.isEmpty

/-- The decoder session's log after the step from `s` to `t`. -/
def decLogAfter (l : SessionLog Symbol) (s t : State) : SessionLog Symbol :=
  l.after (decEvent s) (t.decOut.drop s.decOut.length) (s.decOut.take 1) t.dec.state t.blk.illegal
    t.decOut.isEmpty

/-- `EncSession s0 l s`: in `s0` an ENC_START opens a session, `s` is reached from it by steps of any agents, at most
the last of which is the unit's next START, a CLEAR or a reset, and `l` is the session's log (00_scope.md R12). -/
inductive EncSession (s0 : State) : SessionLog Word → State → Prop
  | opened {t : State} : encEvent s0 = .opens → step s0 = .next t → EncSession s0 SessionLog.new t
  | later {l : SessionLog Word} {s t : State} : EncSession s0 l s → l.closed = false → step s = .next t →
      EncSession s0 (encLogAfter l s t) t

/-- `DecSession s0 l s`: the same for the decoder. -/
inductive DecSession (s0 : State) : SessionLog Symbol → State → Prop
  | opened {t : State} : decEvent s0 = .opens → step s0 = .next t → DecSession s0 SessionLog.new t
  | later {l : SessionLog Symbol} {s t : State} : DecSession s0 l s → l.closed = false → step s = .next t →
      DecSession s0 (decLogAfter l s t) t

/-- The session has ended well in `s` (70_reset_and_hazards.md R271): its END has been accepted and the unit is DONE,
`blk.illegal = 0` has held since its START, and the stream is drained. Its result is `l.taken`. -/
def EncEndedWell (l : SessionLog Word) (s : State) : Prop :=
  l.phase = .ended ∧ s.enc.state = .done ∧ l.clean = true ∧ s.encOut = []

/-- The decoder session has ended well in `s` (70_reset_and_hazards.md R271). -/
def DecEndedWell (l : SessionLog Symbol) (s : State) : Prop :=
  l.phase = .ended ∧ s.dec.state = .done ∧ l.clean = true ∧ s.decOut = []

/-- The session has failed (70_reset_and_hazards.md R271): its unit is in ERROR, until CLEAR, or `blk.illegal` is 1, until
BLK_CLEAR. A session that has ended well is never one that has failed (log entry 21). -/
def EncFailed (l : SessionLog Word) (s : State) : Prop :=
  l.closed = false ∧ l.well = false ∧ (s.enc.state = .error ∨ s.blk.illegal = true)

/-- The decoder session has failed (70_reset_and_hazards.md R271). -/
def DecFailed (l : SessionLog Symbol) (s : State) : Prop :=
  l.closed = false ∧ l.well = false ∧ (s.dec.state = .error ∨ s.blk.illegal = true)

/-- The session is void: by 60_exceptions.md R233 (a) an error ended it, (b) `blk.illegal` became 1 while it was ACTIVE,
or (c) it was abandoned before a successful END; and by 00_scope.md R13 and 90_conflicts.md C12 because it does not end
well: it has failed, or it was closed before it ended well (log entry 21). -/
def SessionLog.void {α : Type} (l : SessionLog α) : Prop :=
  l.phase = .failed ∨ l.spoiled = true ∨ l.phase = .abandoned ∨ l.everFailed = true ∨
    (l.closed = true ∧ l.well = false)

/-- The session reached DONE with `blk.illegal = 0` throughout (60_exceptions.md R233). -/
def SessionLog.completed {α : Type} (l : SessionLog α) : Prop := l.phase = .ended ∧ l.spoiled = false

/-- The session has a valid output, which is `l.out` (60_exceptions.md R233: "Only a session that reached DONE with
`blk.illegal = 0` throughout"; 00_scope.md R13): it is completed and not void. -/
def SessionLog.valid {α : Type} (l : SessionLog α) : Prop := l.completed ∧ ¬ l.void

end Sys2Proof.Machine

/-! ### The source's algorithms on whole sequences -/

namespace Sys2Proof.Source

/-- The source's dictionary as the list of its phrases: the phrase at position `k` has code `k`, and `next_code` is the
length (41_encoder.md R152, 10_state.md R24). Unbounded. -/
abbrev Dict := List (List Symbol)

/-- The 256 single-symbol phrases, codes 0..255. -/
def seeds : Dict := (List.range 256).map fun k => [BitVec.ofNat 8 k]

/-- The loop of the source's encode from a dictionary and a current phrase `w`, as 41_encoder.md R153 and R154 quote it:
if `w + c` is a key extend, else emit `dictionary[w]`, insert `w + c`, reset `w = c`; at the end emit a non-empty `w`. -/
def encodeLoop (d : Dict) (w : List Symbol) : List Symbol → List Nat
  | [] => if w = [] then [] else [d.idxOf w]
  | c :: cs =>
    if w ++ [c] ∈ d then encodeLoop d (w ++ [c]) cs
    else d.idxOf w :: encodeLoop (d ++ [w ++ [c]]) [c] cs

/-- The source's `encode` (41_encoder.md R156). -/
def encode (symbols : List Symbol) : List Nat := encodeLoop seeds [] symbols

/-- What the source's `decode` has produced: the symbols, and the code it failed on with BadCode, if it did. -/
structure Decoded where
  symbols : List Symbol
  bad : Option Nat
deriving DecidableEq, Repr

/-- The phrase of a later code (42_decoder.md R183): a known code's phrase, `w + w[0]` for the code `next_code`, else
none. -/
def entryFor (d : Dict) (w : List Symbol) (k : Nat) : Option (List Symbol) :=
  if k < d.length then d[k]? else if k = d.length then some (w ++ w.take 1) else none

/-- The loop of the source's decode from a dictionary and a previous phrase `w`, as 42_decoder.md R183 quotes it. -/
def decodeLoop (d : Dict) (w : List Symbol) : List Nat → Decoded
  | [] => { symbols := [], bad := none }
  | k :: ks =>
    match entryFor d w k with
    | none => { symbols := [], bad := some k }
    | some e =>
      let r := decodeLoop (d ++ [w ++ e.take 1]) e ks
      { symbols := e ++ r.symbols, bad := r.bad }

/-- The source's `decode` on a non-empty code sequence with first code `k` (42_decoder.md R183, R187). -/
def decode (k : Nat) (ks : List Nat) : Decoded :=
  if k ≤ 255 then
    let r := decodeLoop seeds [BitVec.ofNat 8 k] ks
    { symbols := BitVec.ofNat 8 k :: r.symbols, bad := r.bad }
  else { symbols := [], bad := some k }

end Sys2Proof.Source
end

