-- ==== Sys2Proof/Certificates/Slice0/Obligations.lean ====
section
/-! DEFINITION. The statements about the block, for the provers. Each docstring names the rule of the spec it
formalises. Where a statement needs a state that a run can reach, its premise is the invariant `Inv` of Safety.lean,
which `ResetMeetsTheInvariants` and `StepKeepsTheInvariant` are about. A record update `{ s with … }` on the right says
what changes and that nothing else does. -/

open Sys2Proof Sys2Proof.Machine

/-! ### Encoding -/

/-- Words written out from the table of 30_encoding.md R102 and from 95_test_vectors.md decode to their command. -/
def Obligations.SpecWordsDecode : Prop :=
  decode 0x00000000#32 = .ok .nop ∧
  decode 0x10000000#32 = .ok .encStart ∧
  decode 0x2000012C#32 = .ok (.encSym 300#28) ∧
  decode 0x2FFFFFFF#32 = .ok (.encSym 268435455#28) ∧
  decode 0x40000000#32 = .ok .encClear ∧
  decode 0x600F423F#32 = .ok (.decCode 999999#28) ∧
  decode 0x70000000#32 = .ok .decEnd ∧
  decode 0x90000000#32 = .ok .blkClear ∧
  decode 0xB1234567#32 = .ok (.illegalAB 0xB1234567#32) ∧
  decode 0xF0000000#32 = .ok (.illegalCF 0xF0000000#32) ∧
  decode 0x10000001#32 = .error (.operandNotZero 0x10000001#32) ∧
  decode 0x80000100#32 = .error (.operandNotZero 0x80000100#32)

/-- Decoding the word of a well-formed instruction gives the instruction back, whatever its operand (30_encoding.md
R100 to R102). -/
def Obligations.DecodeOfEncode : Prop :=
  ∀ i : Instr, i.wellFormed = true → decode (encode i) = .ok i

/-- The decoder of 30_encoding.md R102 is total, and answers a command exactly on the words that are not ill-formed by
R104: on those it reads an instruction whose word is that very word; an ill-formed word is one of the two reserved rows
or is rejected by name. -/
def Obligations.DecoderReadsExactlyTheLegalWords : Prop :=
  ∀ w : Word,
    let reserved : Prop := 0xA ≤ (opcodeOf w).toNat
    let badOperand : Prop :=
      (opcodeOf w).toNat ∈ [0x0, 0x1, 0x3, 0x4, 0x5, 0x7, 0x8, 0x9] ∧ operandOf w ≠ 0
    (reserved → decode w = .ok (.illegalAB w) ∨ decode w = .ok (.illegalCF w)) ∧
    (badOperand → decode w = .error (.operandNotZero w)) ∧
    (¬ reserved → ¬ badOperand →
      ∃ i, decode w = .ok i ∧ encode i = w ∧ i.wellFormed = true ∧ (∀ v, i ≠ .illegalAB v) ∧ ∀ v, i ≠ .illegalCF v) ∧
    (illFormed w = true ↔ reserved ∨ badOperand)

/-- No word belongs to two rows of opcode_table.json, and the decoder reads a word as the instruction of the row it
belongs to, or rejects it when it belongs to none. -/
def Obligations.OpcodeRowsDoNotOverlap : Prop :=
  (∀ w : Word, ∀ r ∈ opcodeTable, ∀ r' ∈ opcodeTable, r.covers w = true → r'.covers w = true → r = r') ∧
  (∀ w i, decode w = .ok i → i.row ∈ opcodeTable ∧ i.row.covers w = true) ∧
  (∀ w r, decode w = .error r → ∀ row ∈ opcodeTable, row.covers w = false)

/-- 30_encoding.md R107: the assembler turns the line of every well-formed instruction into its word, `.word` emits its
literal unchanged, and an operand that does not fit 28 bits is rejected. -/
def Obligations.AssemblerEmitsTheEncoding : Prop :=
  (∀ i : Instr, assemble i.asmLine = some (encode i)) ∧
  (∀ w : Word, assemble (.word w.toNat) = some w) ∧
  (∀ m v, 0x10000000 ≤ v → assemble (.cmd m (some v)) = none)

/-! ### Reset -/

/-- 70_reset_and_hazards.md R261, for every value of the OPEN parameter: the fields and the sixteen registers right
after reset. The dictionary's contents are unspecified there and the statement says nothing about them. -/
def Obligations.ResetValuesOfEveryField : Prop :=
  ∀ p : Params,
    let s := State.resetWith p
    s.blk = { illegal := false, illegalWord := 0 } ∧
    (s.enc.state = .idle ∧ s.enc.err = .none ∧ s.enc.errinfo = 0 ∧ s.enc.wValid = false ∧ s.enc.wCode = 0 ∧
      s.enc.next = 256 ∧ s.enc.inCount = 0 ∧ s.enc.outCount = 0) ∧
    (s.dec.state = .idle ∧ s.dec.err = .none ∧ s.dec.errinfo = 0 ∧ s.dec.havePrev = false ∧ s.dec.prev = 0 ∧
      s.dec.next = 256 ∧ s.dec.inCount = 0 ∧ s.dec.outCount = 0) ∧
    s.phraseBuf = [] ∧ s.encOut = [] ∧ s.decOut = [] ∧
    register 0 s = 0x4C5A5701#32 ∧ register 1 s = BitVec.ofNat 32 p.dictCap ∧
    ∀ i : BitVec 4, i ≠ 0 → i ≠ 1 → register i s = if i = 7 ∨ i = 13 then 0x100#32 else 0

/-- 70_reset_and_hazards.md R260: a reset step, in any state, whatever the unit states, gives every field its reset
value, empties the phrase buffer and both streams and drops the offered word. That the host's own data and the parameter
stay is the model's choice (log entry 17, 10_state.md R58). Nothing is said of the dictionaries' contents. -/
def Obligations.ResetTurnResetsTheBlock : Prop :=
  ∀ (s : State) (ts : List Turn), s.host.turns = .reset :: ts →
    ∃ t, step s = .next t ∧
      t.blk = { illegal := false, illegalWord := 0 } ∧
      { t.enc with dict := s.enc.dict } =
        { s.enc with
          state := .idle, err := .none, errinfo := 0, wValid := false, wCode := 0, next := 256, inCount := 0,
          outCount := 0 } ∧
      { t.dec with dict := s.dec.dict } =
        { s.dec with
          state := .idle, err := .none, errinfo := 0, havePrev := false, prev := 0, next := 256, inCount := 0,
          outCount := 0 } ∧
      t.phraseBuf = [] ∧ t.encOut = [] ∧ t.decOut = [] ∧ t.port = none ∧
      t.host = { s.host with turns := ts } ∧ t.params = s.params

/-- The reset state meets the invariants, for every legal value of `DICT_CAP`; the instance `State.reset` takes is
legal (the model's choice, log entry 1). -/
def Obligations.ResetMeetsTheInvariants : Prop :=
  (∀ p : Params, p.wf → Inv (State.resetWith p) ∧ Growth (State.resetWith p)) ∧
  State.reset = State.resetWith { dictCap := 2 ^ 28 } ∧ Inv State.reset

/-! ### Invariants every step keeps -/

/-- Every step of every agent keeps the invariant: 10_state.md R26, R32 (the dictionaries stay tries of smaller codes,
no two encoder entries are equal, `w` and `prev` stay codes of the dictionary), 60_exceptions.md R224 (`next` stays
within `DICT_CAP`), R220 and R228 (ERR is non-zero exactly in ERROR), 10_state.md R34 (the phrase buffer is empty),
40_dispatch.md R134 (the recorded word is ill-formed). -/
def Obligations.StepKeepsTheInvariant : Prop :=
  ∀ s t : State, Inv s → step s = .next t → Inv t

/-- In a state that meets the invariant no step stops: every use of the dictionary primitives meets its requires clause
(20_memory.md R71) and the phrase buffer never overflows (10_state.md R34). -/
def Obligations.StepFromAnInvariantStateAnswersNext : Prop :=
  ∀ s : State, Inv s → ∃ t, step s = .next t

/-- 41_encoder.md R157 and 42_decoder.md R189 as an invariant of every step: one entry for each code ENC_SYM emitted
and none for the code of ENC_END; one entry for each code DEC_CODE accepted after the first. -/
def Obligations.StepKeepsDictionaryGrowth : Prop :=
  ∀ s t : State, Inv s → Growth s → step s = .next t → Growth t

/-- 10_state.md R58 and R37, 20_memory.md R72: no command touches the parameter, the port or the outside world, and no
step of any agent changes the parameter. -/
def Obligations.CommandsTouchOnlyTheBlock : Prop :=
  (∀ i s t, exec i s = .next t → t.params = s.params ∧ t.port = s.port ∧ t.host = s.host) ∧
  (∀ s t, step s = .next t → t.params = s.params)

/-! ### The step: acceptance, hold, discard -/

/-- When it is the block's turn and the offered word is not held and decodes to an instruction, the step is that
instruction performed with the port freed and the turn used up: on a listed turn and on the default turn. -/
def Obligations.StepRunsTheDecodedInstruction : Prop :=
  ∀ (s : State) (w : Word) (i : Instr), s.port = some w → held w s = false → decode w = .ok i →
    (∀ ts, s.host.turns = .block :: ts →
      step s = exec i { s with port := none, host := { s.host with turns := ts } }) ∧
    (s.host.turns = [] → step s = exec i { s with port := none })

/-- 30_encoding.md R104, 40_dispatch.md R134 and 60_exceptions.md R226: an ill-formed word sets `blk.illegal`, records
itself and does nothing else; while the flag is set every accepted word other than `0x90000000`, well-formed or not, is
discarded with no change at all; BLK_CLEAR clears both fields. -/
def Obligations.IllFormedWordFreezesTheBlock : Prop :=
  ∀ (s : State) (w : Word) (ts : List Turn), s.host.turns = .block :: ts → s.port = some w → held w s = false →
    (s.blk.illegal = false → illFormed w = true →
      step s = .next
        { s with
          blk := { illegal := true, illegalWord := w }
          port := none
          host := { s.host with turns := ts } }) ∧
    (s.blk.illegal = true → w ≠ 0x90000000#32 →
      step s = .next { s with port := none, host := { s.host with turns := ts } }) ∧
    (w = 0x90000000#32 →
      step s = .next
        { s with
          blk := { illegal := false, illegalWord := 0 }
          port := none
          host := { s.host with turns := ts } })

/-- 70_reset_and_hazards.md R265: the words ENC_START and ENC_CLEAR are held while `enc_out` is non-empty, DEC_START and
DEC_CLEAR while `dec_out` is non-empty, whatever the unit state and whatever `blk.illegal`; a held word stays offered
and changes nothing. That every other word on the port is accepted at once is the model's choice (R264, log entry
9). -/
def Obligations.StartAndClearWaitForTheirStream : Prop :=
  ∀ (s : State) (w : Word) (ts : List Turn), s.host.turns = .block :: ts → s.port = some w →
    let waits : Prop :=
      ((w = 0x10000000#32 ∨ w = 0x40000000#32) ∧ s.encOut ≠ []) ∨
      ((w = 0x50000000#32 ∨ w = 0x80000000#32) ∧ s.decOut ≠ [])
    (waits → step s = .next { s with host := { s.host with turns := ts } }) ∧
    (¬ waits → ∀ t, step s = .next t → t.port = none)

/-- 70_reset_and_hazards.md R264 to R266: an ENC_START held by `n` untaken codes is performed by the block's next turn
once the sink has taken them, and the sink got exactly those codes, in order. -/
def Obligations.HeldStartRunsOnceDrained : Prop :=
  ∀ (s : State) (ts : List Turn), s.port = some 0x10000000#32 →
    s.host.turns = List.replicate s.encOut.length .encTake ++ .block :: ts →
    core.run (s.encOut.length + 1) s =
      exec .encStart
        { s with
          encOut := []
          port := none
          host := { s.host with turns := ts, encTaken := s.host.encTaken ++ s.encOut.map (·.setWidth 32) } }

/-- 20_memory.md R67: a word on the port stays there until it is accepted or dropped by reset; words are offered in the
order of the host's list, one at a time, and none is lost or offered twice. -/
def Obligations.OfferedWordsStayInOrder : Prop :=
  ∀ s t : State, step s = .next t →
    (t.port = s.port ∧ t.host.commands = s.host.commands) ∨
    (∃ w ws, s.port = none ∧ s.host.commands = w :: ws ∧ t.port = some w ∧ t.host.commands = ws) ∨
    (∃ w, s.port = some w ∧ t.port = none ∧ t.host.commands = s.host.commands ∧
      (acceptedWord s = some w ∨ (nextTurn s).1 = .reset))

/-- 60_exceptions.md R241: with no word offered the block takes no step: all state is kept. -/
def Obligations.NothingOfferedNothingDone : Prop :=
  (∀ s ts, s.host.turns = .block :: ts → s.port = none →
    step s = .next { s with host := { s.host with turns := ts } }) ∧
  (∀ s : State, s.host.turns = [] → s.host.commands = [] → s.port = none → step s = .next s)

/-! ### The sinks and the register window -/

/-- 20_memory.md R68 to R70: a sink's take delivers the head of its stream (a code as a 32-bit word with zeros above
bit 27, a symbol as it is) and changes nothing else. That a take from an empty stream changes nothing is the model's
choice (log entry 15). -/
def Obligations.SinksTakeTheHead : Prop :=
  (∀ s ts c rest, s.host.turns = .encTake :: ts → s.encOut = c :: rest →
    step s = .next
      { s with
        encOut := rest
        host := { s.host with turns := ts, encTaken := s.host.encTaken ++ [(0#4 ++ c : Word)] } }) ∧
  (∀ s ts, s.host.turns = .encTake :: ts → s.encOut = [] →
    step s = .next { s with host := { s.host with turns := ts } }) ∧
  (∀ s ts x rest, s.host.turns = .decTake :: ts → s.decOut = x :: rest →
    step s = .next
      { s with decOut := rest, host := { s.host with turns := ts, decTaken := s.host.decTaken ++ [x] } }) ∧
  (∀ s ts, s.host.turns = .decTake :: ts → s.decOut = [] →
    step s = .next { s with host := { s.host with turns := ts } })

/-- 20_memory.md R73: a sink's take commutes with every command, unless the stream is empty; the hold rule is the only
way a take bears on a command. -/
def Obligations.SinkTakesCommuteWithCommands : Prop :=
  ∀ (i : Instr) (s t : State), exec i s = .next t →
    (s.encOut ≠ [] → exec i (encTakeTurn s) = .next (encTakeTurn t)) ∧
    (s.decOut ≠ [] → exec i (decTakeTurn s) = .next (decTakeTurn t))

/-- 20_memory.md R62 to R65: an aligned 32-bit read returns the register at that offset, any other read and every write
gets BUS_ERROR, and none of them changes the block or pops a stream. -/
def Obligations.RegisterAccessesReturnAndChangeNothing : Prop :=
  (∀ s ts off width, s.host.turns = .regRead off width :: ts → off.toNat % 4 = 0 → width = 32 →
    step s = .next
      { s with
        host :=
          { s.host with
            turns := ts
            replies := s.host.replies ++ [.value (register (BitVec.ofNat 4 (off.toNat / 4)) s)] } }) ∧
  (∀ s ts off width, s.host.turns = .regRead off width :: ts → (off.toNat % 4 ≠ 0 ∨ width ≠ 32) →
    step s = .next { s with host := { s.host with turns := ts, replies := s.host.replies ++ [.busError] } }) ∧
  (∀ s ts off width value, s.host.turns = .regWrite off width value :: ts →
    step s = .next { s with host := { s.host with turns := ts, replies := s.host.replies ++ [.busError] } })

/-- 10_state.md R40 to R43, R45 to R49 and R51 to R55: the registers that show one field, with zeros in the unused high
bits. -/
def Obligations.RegistersShowTheirFields : Prop :=
  ∀ s : State,
    (register 0x0 s).toNat = 0x4C5A5701 ∧
    (s.params.wf → (register 0x1 s).toNat = s.params.dictCap) ∧
    (register 0x2 s).toNat = s.blk.illegal.toNat ∧
    register 0x3 s = s.blk.illegalWord ∧
    register 0x5 s = s.enc.errinfo ∧
    (register 0x6 s).toNat = s.enc.wCode.toNat ∧
    (register 0x7 s).toNat = s.enc.next.toNat ∧
    register 0x8 s = s.enc.inCount ∧
    register 0x9 s = s.enc.outCount ∧
    register 0xB s = s.dec.errinfo ∧
    (register 0xC s).toNat = s.dec.prev.toNat ∧
    (register 0xD s).toNat = s.dec.next.toNat ∧
    register 0xE s = s.dec.inCount ∧
    register 0xF s = s.dec.outCount

/-- 10_state.md R44 and R50: the fields of ENC_STATUS and DEC_STATUS; in a state that meets the invariant ERR is one of
the codes the unit raises and is non-zero exactly when STATE = 3. -/
def Obligations.StatusRegistersShowStateAndError : Prop :=
  ∀ s : State,
    let state (u : UnitCore) : Nat :=
      match u.state with
      | .idle => 0
      | .active => 1
      | .done => 2
      | .error => 3
    (∀ e, e = register 0x4 s →
      (e.extractLsb' 0 2).toNat = state s.enc.toUnitCore ∧
      (e.extractLsb' 2 1).toNat = s.enc.wValid.toNat ∧
      e.extractLsb' 3 1 = 0 ∧
      e.extractLsb' 8 24 = 0 ∧
      (Inv s → (e.extractLsb' 4 4).toNat ∈ [0, 1, 5, 6] ∧
        ((e.extractLsb' 4 4).toNat ≠ 0 ↔ (e.extractLsb' 0 2).toNat = 3))) ∧
    (∀ d, d = register 0xA s →
      (d.extractLsb' 0 2).toNat = state s.dec.toUnitCore ∧
      (d.extractLsb' 2 1).toNat = s.dec.havePrev.toNat ∧
      d.extractLsb' 3 1 = 0 ∧
      d.extractLsb' 8 24 = 0 ∧
      (Inv s → (d.extractLsb' 4 4).toNat ∈ [0, 2, 3, 5, 6] ∧
        ((d.extractLsb' 4 4).toNat ≠ 0 ↔ (d.extractLsb' 0 2).toNat = 3)))

/-- 60_exceptions.md R220: the number ERR shows for each error, and 0 for none. -/
def Obligations.ErrorCodesAreTheSpecs : Prop :=
  ∀ s : State, ∀ u ∈ [(s.enc.toUnitCore, register 0x4 s), (s.dec.toUnitCore, register 0xA s)],
    (u.2.extractLsb' 4 4).toNat =
      match u.1.err with
      | .none => 0
      | .invalidSymbol => 1
      | .emptyStream => 2
      | .badCode => 3
      | .dictFull => 5
      | .sequenceError => 6

/-! ### Block commands and the checks before a unit command -/

/-- 40_dispatch.md R132 and R133: NOP changes nothing in any state; BLK_CLEAR clears the two block fields in any state
and touches neither unit, dictionary or stream. A NOP word with an operand is ill-formed. While
`blk.illegal = 1` no word but the exact `0x90000000` takes effect, `0x90000001` included. -/
def Obligations.NopAndBlkClear : Prop :=
  encode .nop = 0x00000000#32 ∧ encode .blkClear = 0x90000000#32 ∧
  (∀ s, exec .nop s = .next s) ∧
  (∀ s, exec .blkClear s = .next { s with blk := { illegal := false, illegalWord := 0 } }) ∧
  (∀ x : Operand, x ≠ 0 → illFormed (0x0#4 ++ x) = true) ∧
  (∀ s w, s.blk.illegal = true → w ≠ 0x90000000#32 → perform w s = .next s)

/-- 40_dispatch.md R134 for the two reserved rows of the table: the word is recorded if no word was, and discarded if
one was. -/
def Obligations.ReservedOpcodesAreRecorded : Prop :=
  ∀ (s : State) (w : Word),
    (s.blk.illegal = false →
      exec (.illegalAB w) s = .next { s with blk := { illegal := true, illegalWord := w } } ∧
      exec (.illegalCF w) s = .next { s with blk := { illegal := true, illegalWord := w } }) ∧
    (s.blk.illegal = true → exec (.illegalAB w) s = .next s ∧ exec (.illegalCF w) s = .next s)

/-- 40_dispatch.md R130 and R131, first check: while `blk.illegal = 1` every instruction but BLK_CLEAR leaves the state
as it is. -/
def Obligations.IllegalFlagDiscardsAllButBlkClear : Prop :=
  ∀ (s : State) (i : Instr), s.blk.illegal = true → i ≠ .blkClear → exec i s = .next s

/-- 40_dispatch.md R135: in ERROR every command of the unit but its CLEAR leaves the state as it is. -/
def Obligations.UnitInErrorDiscardsAllButClear : Prop :=
  (∀ s : State, s.enc.state = .error →
    exec .encStart s = .next s ∧ (∀ x, exec (.encSym x) s = .next s) ∧ exec .encEnd s = .next s) ∧
  (∀ s : State, s.dec.state = .error →
    exec .decStart s = .next s ∧ (∀ k, exec (.decCode k) s = .next s) ∧ exec .decEnd s = .next s)

/-- 40_dispatch.md R136: an encoder command writes only the encoder unit and `enc_out` and its effect on them depends
only on them, the parameter and the discard of `blk.illegal`; the same for the decoder. -/
def Obligations.UnitsAreIndependent : Prop :=
  (∀ (i : Instr) (s s' t : State), (i = .encStart ∨ (∃ x, i = .encSym x) ∨ i = .encEnd ∨ i = .encClear) →
      exec i s = .next t →
      { t with enc := s.enc, encOut := s.encOut } = s ∧
      (s'.enc = s.enc → s'.encOut = s.encOut → s'.params = s.params → s'.blk.illegal = s.blk.illegal →
        exec i s' = .next { s' with enc := t.enc, encOut := t.encOut })) ∧
  (∀ (i : Instr) (s s' t : State), (i = .decStart ∨ (∃ k, i = .decCode k) ∨ i = .decEnd ∨ i = .decClear) →
      s.phraseBuf = [] → s'.phraseBuf = [] → exec i s = .next t →
      { t with dec := s.dec, decOut := s.decOut } = s ∧
      (s'.dec = s.dec → s'.decOut = s.decOut → s'.params = s.params → s'.blk.illegal = s.blk.illegal →
        exec i s' = .next { s' with dec := t.dec, decOut := t.decOut }))

/-- 60_exceptions.md R228 and R229: the command that takes a unit to ERROR writes its `state`, a non-zero `err` and
`errinfo`, and nothing else: no emission, no dictionary write, no counter, no other field, not the other unit. -/
def Obligations.ErrorEntryIsPrecise : Prop :=
  ∀ (i : Instr) (s t : State), exec i s = .next t →
    (s.enc.state ≠ .error → t.enc.state = .error →
      t.enc.err ≠ .none ∧
      t = { s with enc := { s.enc with state := .error, err := t.enc.err, errinfo := t.enc.errinfo } }) ∧
    (s.dec.state ≠ .error → t.dec.state = .error →
      t.dec.err ≠ .none ∧
      t = { s with dec := { s.dec with state := .error, err := t.dec.err, errinfo := t.dec.errinfo } })

/-- 60_exceptions.md R231: only the unit's own CLEAR word and reset leave ERROR, to IDLE with `err = 0` and
`errinfo = 0`; only BLK_CLEAR and reset leave `blk.illegal = 1`. -/
def Obligations.OnlyClearOrResetLeavesAnError : Prop :=
  ∀ s t : State, step s = .next t →
    (s.enc.state = .error → t.enc.state ≠ .error →
      (acceptedWord s = some 0x40000000#32 ∨ (nextTurn s).1 = .reset) ∧
      t.enc.state = .idle ∧ t.enc.err = .none ∧ t.enc.errinfo = 0) ∧
    (s.dec.state = .error → t.dec.state ≠ .error →
      (acceptedWord s = some 0x80000000#32 ∨ (nextTurn s).1 = .reset) ∧
      t.dec.state = .idle ∧ t.dec.err = .none ∧ t.dec.errinfo = 0) ∧
    (s.blk.illegal = true → t.blk.illegal = false →
      acceptedWord s = some 0x90000000#32 ∨ (nextTurn s).1 = .reset)

/-- 60_exceptions.md R232: a unit that stays in ERROR keeps every field, so the first error's ERR and ERRINFO are kept;
a block that stays illegal keeps the recorded word. -/
def Obligations.FirstErrorIsKept : Prop :=
  ∀ s t : State, step s = .next t →
    (s.enc.state = .error → t.enc.state = .error → t.enc = s.enc) ∧
    (s.dec.state = .error → t.dec.state = .error → t.dec = s.dec) ∧
    (s.blk.illegal = true → t.blk.illegal = true → t.blk = s.blk)

/-- 20_memory.md R74: a command only appends to the streams, at most one code, and only DEC_CODE appends symbols. -/
def Obligations.CommandsOnlyAppendToTheStreams : Prop :=
  ∀ (i : Instr) (s t : State), exec i s = .next t →
    (∃ cs, t.encOut = s.encOut ++ cs ∧ cs.length ≤ 1 ∧ (cs ≠ [] → i = .encEnd ∨ ∃ x, i = .encSym x)) ∧
    (∃ p, t.decOut = s.decOut ++ p ∧ (p ≠ [] → ∃ k, i = .decCode k))

/-! ### The encoder's commands -/

/-- 41_encoder.md R152: ENC_START in IDLE, ACTIVE or DONE opens a session and writes nothing else; the dictionary array
is not written and `w` is not emitted. -/
def Obligations.EncStartOpensASession : Prop :=
  encode .encStart = 0x10000000#32 ∧
  (∀ s : State, held 0x10000000#32 s = true ↔ s.encOut ≠ []) ∧
  ∀ s : State, s.blk.illegal = false → s.enc.state ≠ .error →
    exec .encStart s = .next
      { s with
        enc :=
          { s.enc with
            state := .active, err := .none, errinfo := 0, wValid := false, wCode := 0, next := 256, inCount := 0,
            outCount := 0 } }

/-- 41_encoder.md R153 with R150, and 60_exceptions.md R221, R224, R225: ENC_SYM in every state and for every operand:
SequenceError, InvalidSymbol, the first symbol, a hit, DictFull and a miss, each with all it changes. -/
def Obligations.EncSymIsOneGreedyStep : Prop :=
  (∀ x, encode (.encSym x) = 0x2#4 ++ x) ∧
  ∀ (s : State) (x : Operand), Inv s → s.blk.illegal = false → s.enc.state ≠ .error →
    let raised (e : ErrCode) (info : Word) : State :=
      { s with enc := { s.enc with state := .error, err := e, errinfo := info } }
    let pair : Entry := { prefixCode := s.enc.wCode, suffixSym := x.setWidth 8 }
    (s.enc.state ≠ .active → exec (.encSym x) s = .next (raised .sequenceError (0x2#4 ++ x))) ∧
    (s.enc.state = .active → 255 < x.toNat → exec (.encSym x) s = .next (raised .invalidSymbol (0#4 ++ x))) ∧
    (s.enc.state = .active → x.toNat ≤ 255 → s.enc.wValid = false →
      exec (.encSym x) s = .next
        { s with enc := { s.enc with wValid := true, wCode := x, inCount := s.enc.inCount + 1 } }) ∧
    (∀ k : Code, s.enc.state = .active → x.toNat ≤ 255 → s.enc.wValid = true → s.enc.validEntry k.toNat →
      Memory.read s.enc.dict k.toNat = some pair →
      exec (.encSym x) s = .next { s with enc := { s.enc with wCode := k, inCount := s.enc.inCount + 1 } }) ∧
    (s.enc.state = .active → x.toNat ≤ 255 → s.enc.wValid = true →
      (∀ k, s.enc.validEntry k → Memory.read s.enc.dict k ≠ some pair) →
      (s.enc.next.toNat = s.params.dictCap → exec (.encSym x) s = .next (raised .dictFull (0#3 ++ s.enc.next))) ∧
      (s.enc.next.toNat ≠ s.params.dictCap →
        ∃ m, exec (.encSym x) s = .next
            { s with
              encOut := s.encOut ++ [s.enc.wCode]
              enc :=
                { s.enc with
                  outCount := s.enc.outCount + 1, dict := m, next := s.enc.next + 1, wCode := x,
                  inCount := s.enc.inCount + 1 } } ∧
          ∀ j, Memory.read m j = if j = s.enc.next.toNat then some pair else Memory.read s.enc.dict j))

/-- 41_encoder.md R154: ENC_END in every state. -/
def Obligations.EncEndEmitsTheLastCode : Prop :=
  encode .encEnd = 0x30000000#32 ∧
  ∀ s : State, s.blk.illegal = false → s.enc.state ≠ .error →
    (s.enc.state ≠ .active →
      exec .encEnd s = .next
        { s with enc := { s.enc with state := .error, err := .sequenceError, errinfo := 0x30000000#32 } }) ∧
    (s.enc.state = .active → s.enc.wValid = true →
      exec .encEnd s = .next
        { s with
          encOut := s.encOut ++ [s.enc.wCode]
          enc := { s.enc with outCount := s.enc.outCount + 1, wValid := false, wCode := 0, state := .done } }) ∧
    (s.enc.state = .active → s.enc.wValid = false →
      exec .encEnd s = .next { s with enc := { s.enc with wValid := false, wCode := 0, state := .done } })

/-- 41_encoder.md R155: ENC_CLEAR in every unit state, ERROR included, and the registers read their reset values
afterwards. -/
def Obligations.EncClearReturnsToIdle : Prop :=
  encode .encClear = 0x40000000#32 ∧
  (∀ s : State, held 0x40000000#32 s = true ↔ s.encOut ≠ []) ∧
  ∀ s : State, s.blk.illegal = false →
    exec .encClear s = .next
      { s with
        enc :=
          { s.enc with
            state := .idle, err := .none, errinfo := 0, wValid := false, wCode := 0, next := 256, inCount := 0,
            outCount := 0 } } ∧
    ∀ t, exec .encClear s = .next t → ∀ i ∈ [0x4#4, 0x5, 0x6, 0x7, 0x8, 0x9],
      register i t = register i State.reset

/-! ### The decoder's commands -/

/-- 42_decoder.md R182: DEC_START in IDLE, ACTIVE or DONE. -/
def Obligations.DecStartOpensASession : Prop :=
  encode .decStart = 0x50000000#32 ∧
  (∀ s : State, held 0x50000000#32 s = true ↔ s.decOut ≠ []) ∧
  ∀ s : State, s.blk.illegal = false → s.dec.state ≠ .error →
    exec .decStart s = .next
      { s with
        dec :=
          { s.dec with
            state := .active, err := .none, errinfo := 0, havePrev := false, prev := 0, next := 256, inCount := 0,
            outCount := 0 } }

/-- 42_decoder.md R183 with R180 and R181, and 60_exceptions.md R223 to R225: DEC_CODE in every state and for every
operand. The emitted phrase is that of R31 in the dictionary before the command: `phrase(dec, k)` for a KNOWN code,
`w ++ [w[0]]` for SELFREF. The last clause, that afterwards `phrase(dec, k)` is the emitted phrase, is an inference R183
marks as its own, so the statement is derived. -/
def Obligations.DecCodeEmitsThePhrase : Prop :=
  (∀ k, encode (.decCode k) = 0x6#4 ++ k) ∧
  ∀ (s : State) (k : Operand), Inv s → s.blk.illegal = false → s.dec.state ≠ .error →
    let raised (e : ErrCode) (info : Word) : State :=
      { s with dec := { s.dec with state := .error, err := e, errinfo := info } }
    (s.dec.state ≠ .active → exec (.decCode k) s = .next (raised .sequenceError (0x6#4 ++ k))) ∧
    (s.dec.state = .active → s.dec.havePrev = false → k.toNat ≤ 255 →
      exec (.decCode k) s = .next
        { s with
          decOut := s.decOut ++ [k.setWidth 8]
          dec :=
            { s.dec with
              outCount := s.dec.outCount + 1, havePrev := true, prev := k, inCount := s.dec.inCount + 1 } }) ∧
    (s.dec.state = .active → s.dec.havePrev = false → 255 < k.toNat →
      exec (.decCode k) s = .next (raised .badCode (0#4 ++ k))) ∧
    (s.dec.state = .active → s.dec.havePrev = true → s.dec.next.toNat < k.toNat →
      exec (.decCode k) s = .next (raised .badCode (0#4 ++ k))) ∧
    (s.dec.state = .active → s.dec.havePrev = true → k.toNat ≤ s.dec.next.toNat →
      s.dec.next.toNat = s.params.dictCap →
      exec (.decCode k) s = .next (raised .dictFull (0#3 ++ s.dec.next))) ∧
    (s.dec.state = .active → s.dec.havePrev = true → k.toNat ≤ s.dec.next.toNat →
      s.dec.next.toNat ≠ s.params.dictCap →
      ∃ m x rest,
        (k.toNat < s.dec.next.toNat → s.dec.phrase k.toNat = some (x :: rest)) ∧
        (k.toNat = s.dec.next.toNat → ∃ w, s.dec.phrase s.dec.prev.toNat = some (x :: w) ∧ rest = w ++ [x]) ∧
        exec (.decCode k) s = .next
          { s with
            decOut := s.decOut ++ (x :: rest)
            dec :=
              { s.dec with
                dict := m, next := s.dec.next + 1,
                outCount := s.dec.outCount + BitVec.ofNat 32 (x :: rest).length, prev := k,
                inCount := s.dec.inCount + 1 } } ∧
        (∀ j, Memory.read m j =
          if j = s.dec.next.toNat then some { prefixCode := s.dec.prev, suffixSym := x }
          else Memory.read s.dec.dict j) ∧
        ({ s.dec.toUnitCore with dict := m, next := s.dec.next + 1 } : UnitCore).phrase k.toNat = some (x :: rest))

/-- 42_decoder.md R184 and 60_exceptions.md R222: DEC_END in every state; `have_prev` and `prev` are kept. -/
def Obligations.DecEndClosesTheSession : Prop :=
  encode .decEnd = 0x70000000#32 ∧
  ∀ s : State, s.blk.illegal = false → s.dec.state ≠ .error →
    (s.dec.state ≠ .active →
      exec .decEnd s = .next
        { s with dec := { s.dec with state := .error, err := .sequenceError, errinfo := 0x70000000#32 } }) ∧
    (s.dec.state = .active → s.dec.havePrev = false →
      exec .decEnd s = .next { s with dec := { s.dec with state := .error, err := .emptyStream, errinfo := 0 } }) ∧
    (s.dec.state = .active → s.dec.havePrev = true →
      exec .decEnd s = .next { s with dec := { s.dec with state := .done } })

/-- 42_decoder.md R185: DEC_CLEAR in every unit state, ERROR included, and the registers read their reset values
afterwards. -/
def Obligations.DecClearReturnsToIdle : Prop :=
  encode .decClear = 0x80000000#32 ∧
  (∀ s : State, held 0x80000000#32 s = true ↔ s.decOut ≠ []) ∧
  ∀ s : State, s.blk.illegal = false →
    exec .decClear s = .next
      { s with
        dec :=
          { s.dec with
            state := .idle, err := .none, errinfo := 0, havePrev := false, prev := 0, next := 256, inCount := 0,
            outCount := 0 } } ∧
    ∀ t, exec .decClear s = .next t → ∀ i ∈ [0xA#4, 0xB, 0xC, 0xD, 0xE, 0xF],
      register i t = register i State.reset

/-! ### Laws of the dictionaries -/

/-- 10_state.md R33: seeds have one symbol, a valid entry `k` at most `k - 254`, every phrase at most `PHRASE_CAP`; and
every code below `next` has a phrase. -/
def Obligations.PhrasesFitThePhraseBuffer : Prop :=
  ∀ s : State, Inv s → ∀ u ∈ [s.enc.toUnitCore, s.dec.toUnitCore], ∀ k, k < u.next.toNat →
    ∃ p, u.phrase k = some p ∧ (k < 256 → p.length = 1) ∧ (256 ≤ k → p.length ≤ k - 254) ∧
      p.length ≤ s.params.phraseCap

/-- 42_decoder.md R181: the sequencer's walk over the trie, popped first symbol first, is the phrase of R31, and it
needs no more than the buffer's slots. -/
def Obligations.SequencerEmitsThePhrase : Prop :=
  ∀ s : State, Inv s → ∀ k : Code, k.toNat < s.dec.next.toNat →
    ∃ p, s.dec.phrase k.toNat = some p ∧ walk s.dec.dict s.dec.next s.params.phraseCap k [] = .ok p

/-- 10_state.md R26: (a) prefixes are smaller codes, (b) `w` is a dictionary phrase, (c) no two codes of the encoder have
equal phrases. -/
def Obligations.EncoderPhrasesAreDistinct : Prop :=
  ∀ s : State, Inv s →
    (∀ k, s.enc.validEntry k → ∃ e, Memory.read s.enc.dict k = some e ∧ e.prefixCode.toNat < k) ∧
    (s.enc.wValid = true → ∃ w, s.enc.wCode.toNat < s.enc.next.toNat ∧ s.enc.phrase s.enc.wCode.toNat = some w) ∧
    (∀ j k, j < s.enc.next.toNat → k < s.enc.next.toNat → s.enc.phrase j = s.enc.phrase k → j = k)

/-- 10_state.md R27: `w ++ [c]` is a key of the source's phrase map exactly when CamFind hits, and the hit is the key's
code. -/
def Obligations.CamHitIffPhraseIsAKey : Prop :=
  ∀ (s : State) (p : Code) (c : Symbol) (w : List Symbol), Inv s → p.toNat < s.enc.next.toNat →
    s.enc.phrase p.toNat = some w →
    ∀ k, camFind s.enc.dict s.enc.next p c = some k ↔ k < s.enc.next.toNat ∧ s.enc.phrase k = some (w ++ [c])

/-- 20_memory.md R71: an entry is never overwritten within a session. Every step that is not a reset, a START or a CLEAR
of the unit keeps what is stored at every valid code, and the codes stay valid. -/
def Obligations.EntriesAreWrittenOnce : Prop :=
  ∀ s t : State, Inv s → step s = .next t → (nextTurn s).1 ≠ .reset →
    (acceptedWord s ≠ some 0x10000000#32 → acceptedWord s ≠ some 0x40000000#32 →
      ∀ k, s.enc.validEntry k → t.enc.validEntry k ∧ Memory.read t.enc.dict k = Memory.read s.enc.dict k) ∧
    (acceptedWord s ≠ some 0x50000000#32 → acceptedWord s ≠ some 0x80000000#32 →
      ∀ k, s.dec.validEntry k → t.dec.validEntry k ∧ Memory.read t.dec.dict k = Memory.read s.dec.dict k)

/-- 10_state.md R24, R30 and 70_reset_and_hazards.md R260: what an array holds at a code that is not valid is never read.
Two states that differ only there make the same step, and differ only there afterwards: the same outputs, registers,
replies and errors, whatever was left in the arrays. -/
def Obligations.StaleEntriesAreNeverRead : Prop :=
  ∀ s s' t : State, Inv s → Inv s' → SameButStale s s' → step s = .next t →
    ∃ t', step s' = .next t' ∧ SameButStale t t'

/-! ### Sessions -/

/-- 41_encoder.md R156: the commands `ENC_SEQ S`, performed with no other command in between, from any legal state. With
`C` the source's encode of `S`: (a) if `C` fits, the codes appended are exactly `C` and the counters and `next` are as
said; (b) otherwise the session ends in DictFull after the first `DICT_CAP - 256` codes of `C`. -/
def Obligations.EncoderSessionIsTheSourcesEncode : Prop :=
  ∀ (s : State) (S : List Operand), Inv s → s.blk.illegal = false → s.enc.state ≠ .error → s.encOut = [] →
    (∀ x ∈ S, x.toNat ≤ 255) →
    let C := Source.encode (S.map (·.setWidth 8))
    C.length ≤ S.length ∧
    (C.length ≤ s.params.dictCap - 255 ∨ S = [] →
      ∃ t, execList (Pseudo.encSeq S) s = .next t ∧
        t.encOut.map (·.toNat) = C ∧ t.enc.state = .done ∧
        t.enc.inCount = BitVec.ofNat 32 S.length ∧ t.enc.outCount = BitVec.ofNat 32 C.length ∧
        t.enc.next.toNat = 256 + (C.length - 1) ∧
        { t with enc := s.enc, encOut := s.encOut } = s) ∧
    (s.params.dictCap - 255 < C.length → S ≠ [] →
      ∃ t, execList (Pseudo.encSeq S) s = .next t ∧
        t.encOut.map (·.toNat) = C.take (s.params.dictCap - 256) ∧
        t.enc.state = .error ∧ t.enc.err = .dictFull ∧ t.enc.errinfo = BitVec.ofNat 32 s.params.dictCap ∧
        { t with enc := s.enc, encOut := s.encOut } = s)

/-- 42_decoder.md R187: the commands `DEC_SEQ k1, …, km`, performed with no other command in between. No code at all is
EmptyStream. A code that is bad for the source raises BadCode with that code, after the symbols of the codes before it.
Otherwise the symbols are the source's decode and the unit is DONE, unless there are more codes than the dictionary can
take: then code number `DICT_CAP - 254` raises DictFull after the symbols of the codes before it. -/
def Obligations.DecoderSessionIsTheSourcesDecode : Prop :=
  ∀ s : State, Inv s → s.blk.illegal = false → s.dec.state ≠ .error → s.decOut = [] →
    (∃ t, execList (Pseudo.decSeq []) s = .next t ∧ t.decOut = [] ∧
      t.dec.state = .error ∧ t.dec.err = .emptyStream ∧ t.dec.errinfo = 0) ∧
    ∀ (k : Operand) (ks : List Operand),
      let fits := ks.take (s.params.dictCap - 256)
      let upTo := ks.take (s.params.dictCap - 255)
      let nats (l : List Operand) : List Nat := l.map (·.toNat)
      ∃ t, execList (Pseudo.decSeq (k :: ks)) s = .next t ∧
        { t with dec := s.dec, decOut := s.decOut } = s ∧
        (∀ b, (Source.decode k.toNat (nats upTo)).bad = some b →
          t.decOut = (Source.decode k.toNat (nats upTo)).symbols ∧
          t.dec.state = .error ∧ t.dec.err = .badCode ∧ t.dec.errinfo = BitVec.ofNat 32 b) ∧
        ((Source.decode k.toNat (nats upTo)).bad = none →
          (ks.length ≤ s.params.dictCap - 256 →
            t.decOut = (Source.decode k.toNat (nats ks)).symbols ∧ t.dec.state = .done) ∧
          (s.params.dictCap - 256 < ks.length →
            t.decOut = (Source.decode k.toNat (nats fits)).symbols ∧
            t.dec.state = .error ∧ t.dec.err = .dictFull ∧ t.dec.errinfo = BitVec.ofNat 32 s.params.dictCap))

/-- 42_decoder.md R188: the codes of a successful encoder session on a non-empty symbol sequence `S`, sent to the
decoder, raise no error, end DONE and give back exactly `S`, and the two dictionaries end equal, phrase for phrase. -/
def Obligations.DecodingAnEncodedSequenceGivesItBack : Prop :=
  ∀ (s t : State) (S : List Operand), Inv s → s.blk.illegal = false → s.enc.state ≠ .error → s.dec.state ≠ .error →
    s.encOut = [] → S ≠ [] → (∀ x ∈ S, x.toNat ≤ 255) →
    execList (Pseudo.encSeq S) s = .next t → t.enc.state = .done →
    ∃ u, execList (Pseudo.decSeq t.encOut) t = .next u ∧
      u.dec.state = .done ∧
      u.decOut = s.decOut ++ S.map (·.setWidth 8) ∧
      u.dec.next = u.enc.next ∧
      ∀ k, k < u.dec.next.toNat → u.dec.phrase k = u.enc.phrase k

/-- 00_scope.md R12 with 10_state.md R23: until the next START, CLEAR or reset a session is running exactly while its
unit is ACTIVE, a failed one has its unit in ERROR, an ended one has it in DONE, or in ERROR after a stray word
(60_exceptions.md R225), and none is abandoned. -/
def Obligations.SessionPhasesFollowTheUnit : Prop :=
  (∀ (s0 s : State) (l : SessionLog Word), EncSession s0 l s → l.closed = false →
    (l.phase = .running ↔ s.enc.state = .active) ∧
    (l.phase = .failed → s.enc.state = .error) ∧
    (l.phase = .ended → s.enc.state = .done ∨ s.enc.state = .error) ∧
    l.phase ≠ .abandoned) ∧
  (∀ (s0 s : State) (l : SessionLog Symbol), DecSession s0 l s → l.closed = false →
    (l.phase = .running ↔ s.dec.state = .active) ∧
    (l.phase = .failed → s.dec.state = .error) ∧
    (l.phase = .ended → s.dec.state = .done ∨ s.dec.state = .error) ∧
    l.phase ≠ .abandoned)

/-- 00_scope.md R12, R13: a successful END ends the session. No later step, a stray word, an error, an ill-formed word, a
START, a CLEAR or a reset, changes its inputs, its output, how it ended or whether it reached DONE with `blk.illegal = 0`
throughout; nor does one make it void once it has ended well. Before that, while its stream is not drained, only an error
of its unit, `blk.illegal = 1` or reset can still void it (log entry 21): START and CLEAR are held. -/
def Obligations.NothingAfterItsEndChangesASession : Prop :=
  (∀ (s0 s t : State) (l : SessionLog Word), EncSession s0 l s → l.phase = .ended → l.closed = false →
    step s = .next t →
    let l' := encLogAfter l s t
    l'.ins = l.ins ∧ l'.out = l.out ∧ l'.phase = .ended ∧ (l'.completed ↔ l.completed) ∧
    (l.well = true → l'.well = true ∧ ¬ l'.void) ∧ (l.void → l'.void) ∧
    (l'.void → l.void ∨ (l.well = false ∧
      (t.enc.state = .error ∨ t.blk.illegal = true ∨ (nextTurn s).1 = .reset)))) ∧
  (∀ (s0 s t : State) (l : SessionLog Symbol), DecSession s0 l s → l.phase = .ended → l.closed = false →
    step s = .next t →
    let l' := decLogAfter l s t
    l'.ins = l.ins ∧ l'.out = l.out ∧ l'.phase = .ended ∧ (l'.completed ↔ l.completed) ∧
    (l.well = true → l'.well = true ∧ ¬ l'.void) ∧ (l.void → l'.void) ∧
    (l'.void → l.void ∨ (l.well = false ∧
      (t.dec.state = .error ∨ t.blk.illegal = true ∨ (nextTurn s).1 = .reset))))

/-- What the hold of 70_reset_and_hazards.md R265 is for: until the next START, CLEAR or reset, what the sink took since
the START followed by what is still in the stream is exactly what the session appended. -/
def Obligations.StreamItemsBelongToTheSession : Prop :=
  (∀ (s0 s : State) (l : SessionLog Word), EncSession s0 l s → l.closed = false →
    l.taken ++ s.encOut.map zext32 = l.out) ∧
  (∀ (s0 s : State) (l : SessionLog Symbol), DecSession s0 l s → l.closed = false → l.taken ++ s.decOut = l.out)

/-- 70_reset_and_hazards.md R271, its second half: a session that an error stopped has failed; a session that has failed
stays failed until the unit's CLEAR or reset if its unit is in ERROR, and until BLK_CLEAR or reset if `blk.illegal` is
1; and it does not end well, now or after any further step: CLEAR closes it, and after BLK_CLEAR `blk.illegal = 0` has
still not held since its START. That a session which ended before is not failed is log entry 21's reading. -/
def Obligations.FailedSessionsStayFailedAndNeverEndWell : Prop :=
  (∀ (s0 s : State) (l : SessionLog Word), EncSession s0 l s →
    (l.phase = .failed → l.closed = false → EncFailed l s) ∧
    (EncFailed l s → l.void ∧ ¬ EncEndedWell l s ∧ (s.enc.state = .error ∨ l.clean = false) ∧
      ∀ t, step s = .next t →
        (encLogAfter l s t).well = false ∧
        (s.enc.state = .error → EncFailed (encLogAfter l s t) t ∨ (encLogAfter l s t).closed = true ∧
          (acceptedWord s = some 0x40000000#32 ∨ (nextTurn s).1 = .reset)) ∧
        (s.blk.illegal = true → EncFailed (encLogAfter l s t) t ∨ acceptedWord s = some 0x90000000#32 ∨
          (nextTurn s).1 = .reset))) ∧
  (∀ (s0 s : State) (l : SessionLog Symbol), DecSession s0 l s →
    (l.phase = .failed → l.closed = false → DecFailed l s) ∧
    (DecFailed l s → l.void ∧ ¬ DecEndedWell l s ∧ (s.dec.state = .error ∨ l.clean = false) ∧
      ∀ t, step s = .next t →
        (decLogAfter l s t).well = false ∧
        (s.dec.state = .error → DecFailed (decLogAfter l s t) t ∨ (decLogAfter l s t).closed = true ∧
          (acceptedWord s = some 0x80000000#32 ∨ (nextTurn s).1 = .reset)) ∧
        (s.blk.illegal = true → DecFailed (decLogAfter l s t) t ∨ acceptedWord s = some 0x90000000#32 ∨
          (nextTurn s).1 = .reset))) ∧
  (∀ (s t : State) (l : SessionLog Word), l.well = false → l.clean = false →
    (encLogAfter l s t).well = false ∧ (encLogAfter l s t).clean = false) ∧
  (∀ (s t : State) (l : SessionLog Symbol), l.well = false → l.clean = false →
    (decLogAfter l s t).well = false ∧ (decLogAfter l s t).clean = false)

/-- 00_scope.md R13 and 90_conflicts.md C12, with 60_exceptions.md R233: a void session has not ended well; a session
that is over is void exactly when it did not end well; a void session stays void; and a session not yet over is void,
has ended well, still runs, or is in DONE with its valid output not yet drained. That a session is void only from the
moment it can no longer end well is log entry 21's reading. -/
def Obligations.ASessionThatDoesNotEndWellIsVoid : Prop :=
  (∀ (s0 s : State) (l : SessionLog Word), EncSession s0 l s →
    (l.void → l.well = false ∧ ¬ EncEndedWell l s) ∧
    (l.closed = true → (l.void ↔ l.well = false)) ∧
    (l.closed = false →
      (l.void → ∀ t, step s = .next t → (encLogAfter l s t).void) ∧
      (l.void ∨ l.well = true ∨ (l.phase = .running ∧ s.enc.state = .active ∧ s.blk.illegal = false) ∨
        (l.valid ∧ s.enc.state = .done ∧ s.blk.illegal = false ∧ s.encOut ≠ [])))) ∧
  (∀ (s0 s : State) (l : SessionLog Symbol), DecSession s0 l s →
    (l.void → l.well = false ∧ ¬ DecEndedWell l s) ∧
    (l.closed = true → (l.void ↔ l.well = false)) ∧
    (l.closed = false →
      (l.void → ∀ t, step s = .next t → (decLogAfter l s t).void) ∧
      (l.void ∨ l.well = true ∨ (l.phase = .running ∧ s.dec.state = .active ∧ s.blk.illegal = false) ∨
        (l.valid ∧ s.dec.state = .done ∧ s.blk.illegal = false ∧ s.decOut ≠ []))))

/-- 60_exceptions.md R233 and 70_reset_and_hazards.md R271: in a state in which a session ends well the block is not
illegal; a session that has ended well is not void, by any case, and its result is its valid output. -/
def Obligations.EndedWellIsNeverVoid : Prop :=
  (∀ (s0 s : State) (l : SessionLog Word), EncSession s0 l s →
    (EncEndedWell l s → l.well = true ∧ s.blk.illegal = false) ∧
    (l.well = true → ¬ l.void ∧ l.valid ∧ l.taken = l.out)) ∧
  (∀ (s0 s : State) (l : SessionLog Symbol), DecSession s0 l s →
    (DecEndedWell l s → l.well = true ∧ s.blk.illegal = false) ∧
    (l.well = true → ¬ l.void ∧ l.valid ∧ l.taken = l.out))

/-- 60_exceptions.md R233 with 41_encoder.md R156: the output of an encoder session that reached DONE with
`blk.illegal = 0` throughout, every item appended between its START and its END, and so in particular a valid output,
is the source's encode of the symbols performed in it, whatever came in between and afterwards, drained or not. -/
def Obligations.ValidEncoderOutputIsRight : Prop :=
  ∀ (s0 s : State) (l : SessionLog Word), Inv s0 → EncSession s0 l s → l.completed →
    (∀ x ∈ l.ins, x.toNat ≤ 255) ∧
    l.out.map (·.toNat) = Source.encode (l.ins.map (·.setWidth 8))

/-- 60_exceptions.md R233 with 42_decoder.md R187: the output of a decoder session that reached DONE with
`blk.illegal = 0` throughout, and so in particular a valid output, is the source's decode of the codes performed in it,
of which there is at least one. -/
def Obligations.ValidDecoderOutputIsRight : Prop :=
  ∀ (s0 s : State) (l : SessionLog Symbol), Inv s0 → DecSession s0 l s → l.completed →
    ∃ k ks, l.ins = k :: ks ∧
      Source.decode k.toNat (ks.map (·.toNat)) = { symbols := l.out, bad := none }

/-- 70_reset_and_hazards.md R271 with 41_encoder.md R156 and 00_scope.md R13: in a run with any interleaving of decoder
words, register accesses, sink takes and ill-formed words, a session that ended well performed only symbols `<= 255`,
and its result, the words the sink took since the START, is the source's encode of exactly those symbols. -/
def Obligations.EncoderSessionThatEndedWellIsRight : Prop :=
  ∀ (s0 s : State) (l : SessionLog Word), Inv s0 → EncSession s0 l s → l.well = true →
    (∀ x ∈ l.ins, x.toNat ≤ 255) ∧
    l.taken.map (·.toNat) = Source.encode (l.ins.map (·.setWidth 8))

/-- 70_reset_and_hazards.md R271 with 42_decoder.md R187: a decoder session that ended well, whatever the other agents
did meanwhile, performed at least one code, and its result is the source's decode of its codes, with no bad code. -/
def Obligations.DecoderSessionThatEndedWellIsRight : Prop :=
  ∀ (s0 s : State) (l : SessionLog Symbol), Inv s0 → DecSession s0 l s → l.well = true →
    ∃ k ks, l.ins = k :: ks ∧
      Source.decode k.toNat (ks.map (·.toNat)) = { symbols := l.taken, bad := none }
end

