-- ==== Sys2Proof/Laws/Memory.lean ====
section
/-! SUPPORT. The dictionary arrays (spec/20_memory.md R71): what reading after a write gives, that a write keeps the
canonical form, and what DictRead, DictWrite and CamFind can answer. -/

namespace Sys2Proof.Machine

/-! ### Reading and writing -/

@[simp] theorem Memory.read_nil (k : Nat) : Memory.read [] k = none := rfl

theorem Memory.read_cons (j : Nat) (f : Entry) (m : Memory) (k : Nat) :
    Memory.read ((j, f) :: m) k = if k = j then some f else Memory.read m k := by
  by_cases h : k = j
  · simp [Memory.read, h]
  · have hb : (k == j) = false := by simpa using h
    simp [Memory.read, List.lookup_cons, h, hb]

/-- In a canonical array every listed code after the head is larger than the head's. -/
theorem Memory.wf_cons {a : Nat × Entry} {m : Memory} :
    Memory.wf (a :: m) = true ↔ (∀ b ∈ m, a.1 < b.1) ∧ Memory.wf m = true := by
  induction m generalizing a with
  | nil => simp [Memory.wf]
  | cons b rest ih =>
    simp only [Memory.wf, Bool.and_eq_true, decide_eq_true_eq, List.forall_mem_cons]
    constructor
    · rintro ⟨hab, hw⟩
      exact ⟨⟨hab, fun c hc => hab.trans ((ih.1 hw).1 c hc)⟩, hw⟩
    · rintro ⟨⟨hab, -⟩, hw⟩
      exact ⟨hab, hw⟩

/-- A canonical array lists nothing at a code below its head's. -/
theorem Memory.read_eq_none_of_lt {m : Memory} {k : Nat} (h : ∀ b ∈ m, k < b.1) : Memory.read m k = none := by
  induction m with
  | nil => rfl
  | cons b rest ih =>
    obtain ⟨j, f⟩ := b
    have hj : k < j := h (j, f) (by simp)
    rw [Memory.read_cons, if_neg (by omega)]
    exact ih fun c hc => h c (by simp [hc])

/-- Every listed pair is what its code reads as. -/
theorem Memory.read_of_mem {m : Memory} (hw : Memory.wf m = true) {k : Nat} {e : Entry} (h : (k, e) ∈ m) :
    Memory.read m k = some e := by
  induction m with
  | nil => simp at h
  | cons b rest ih =>
    obtain ⟨j, f⟩ := b
    obtain ⟨hlt, hrest⟩ := Memory.wf_cons.1 hw
    rw [Memory.read_cons]
    rcases List.mem_cons.1 h with heq | hmem
    · cases heq; simp
    · have := hlt _ hmem
      rw [if_neg (by simp at this; omega)]
      exact ih hrest hmem

/-- What a code reads as is a listed pair. -/
theorem Memory.mem_of_read {m : Memory} {k : Nat} {e : Entry} (h : Memory.read m k = some e) : (k, e) ∈ m := by
  induction m with
  | nil => simp at h
  | cons b rest ih =>
    obtain ⟨j, f⟩ := b
    rw [Memory.read_cons] at h
    split at h
    · cases h; subst_vars; simp
    · exact List.mem_cons_of_mem _ (ih h)

/-- Reading after a write: the written code gives the written entry, every other code what it gave before. -/
theorem Memory.read_write {m : Memory} (hw : Memory.wf m = true) (k : Nat) (e : Entry) (j : Nat) :
    Memory.read (Memory.write m k e) j = if j = k then some e else Memory.read m j := by
  induction m with
  | nil => simp [Memory.write, Memory.read_cons]
  | cons b rest ih =>
    obtain ⟨i, f⟩ := b
    obtain ⟨hlt, hrest⟩ := Memory.wf_cons.1 hw
    simp only [Memory.write]
    split
    · rw [Memory.read_cons]
    · split
      · subst_vars; simp only [Memory.read_cons]; split <;> rfl
      · simp only [Memory.read_cons, ih hrest]
        by_cases hji : j = i
        · subst hji; simp; omega
        · simp [hji]

theorem Memory.mem_write {m : Memory} {k : Nat} {e : Entry} {b : Nat × Entry} (h : b ∈ Memory.write m k e) :
    b = (k, e) ∨ b ∈ m := by
  induction m with
  | nil => simpa [Memory.write] using h
  | cons a rest ih =>
    obtain ⟨i, f⟩ := a
    simp only [Memory.write] at h
    split at h
    · exact List.mem_cons.1 h
    · split at h
      · rcases List.mem_cons.1 h with h | h
        · exact .inl h
        · exact .inr (List.mem_cons_of_mem _ h)
      · rcases List.mem_cons.1 h with h | h
        · exact .inr (by simp [h])
        · exact (ih h).imp_right (List.mem_cons_of_mem _)

/-- A write keeps the canonical form. -/
theorem Memory.wf_write {m : Memory} (hw : Memory.wf m = true) (k : Nat) (e : Entry) :
    Memory.wf (Memory.write m k e) = true := by
  induction m with
  | nil => rfl
  | cons b rest ih =>
    obtain ⟨i, f⟩ := b
    obtain ⟨hlt, hrest⟩ := Memory.wf_cons.1 hw
    simp only [Memory.write]
    split
    · rename_i hk
      refine Memory.wf_cons.2 ⟨fun b hb => ?_, hw⟩
      rcases List.mem_cons.1 hb with rfl | hb
      · exact hk
      · exact hk.trans (hlt b hb)
    · split
      · subst_vars; exact Memory.wf_cons.2 ⟨hlt, hrest⟩
      · rename_i h1 h2
        refine Memory.wf_cons.2 ⟨fun b hb => ?_, ih hrest⟩
        rcases Memory.mem_write hb with rfl | hb
        · show i < k; omega
        · exact hlt b hb

/-! ### The primitives of 20_memory.md R71 and 41_encoder.md R150 -/

/-- DictRead answers the stored entry exactly when its requires clause holds and something is stored. -/
theorem dictRead_ok {m : Memory} {next : NextCode} {k : Nat} {e : Entry} :
    dictRead m next k = .ok e ↔ (256 ≤ k ∧ k < next.toNat) ∧ Memory.read m k = some e := by
  unfold dictRead
  by_cases h : 256 ≤ k ∧ k < next.toNat
  · simp only [h, and_self, if_true, true_and]
    cases Memory.read m k <;> simp
  · simp [h]

/-- DictRead looks at valid codes only. -/
theorem dictRead_congr {m m' : Memory} {next : NextCode}
    (h : ∀ k, 256 ≤ k → k < next.toNat → Memory.read m' k = Memory.read m k) (k : Nat) :
    dictRead m' next k = dictRead m next k := by
  unfold dictRead
  split
  · rename_i hk
    rw [h k hk.1 hk.2]
  · rfl

/-- DictWrite answers the array with the entry stored at `next` exactly when its requires clause holds. -/
theorem dictWrite_ok {p : Params} {m m' : Memory} {next : NextCode} {c : Code} {x : Symbol} :
    dictWrite p m next c x = .ok m' ↔
      (256 ≤ next.toNat ∧ next.toNat < p.dictCap ∧ c.toNat < next.toNat) ∧
      m' = Memory.write m next.toNat { prefixCode := c, suffixSym := x } := by
  unfold dictWrite
  by_cases h : 256 ≤ next.toNat ∧ next.toNat < p.dictCap ∧ c.toNat < next.toNat
  · simp [h, eq_comm]
  · simp [h]

/-- A CamFind hit is a valid code that stores the pair. -/
theorem camFind_some {m : Memory} (hw : Memory.wf m = true) {next : NextCode} {p : Code} {x : Symbol} {k : Nat}
    (h : camFind m next p x = some k) :
    256 ≤ k ∧ k < next.toNat ∧ Memory.read m k = some { prefixCode := p, suffixSym := x } := by
  induction m with
  | nil => simp [camFind] at h
  | cons b rest ih =>
    obtain ⟨j, f⟩ := b
    simp only [camFind] at h
    split at h
    · rename_i hj
      obtain ⟨h1, h2, h3⟩ := hj
      cases h
      exact ⟨h1, h2, Memory.read_of_mem hw (by simp [h3])⟩
    · obtain ⟨h1, h2, h3⟩ := ih (Memory.wf_cons.1 hw).2 h
      exact ⟨h1, h2, Memory.read_of_mem hw (List.mem_cons_of_mem _ (Memory.mem_of_read h3))⟩

/-- CamFind misses exactly when no valid code stores the pair. -/
theorem camFind_none {m : Memory} (hw : Memory.wf m = true) {next : NextCode} {p : Code} {x : Symbol} :
    camFind m next p x = none ↔
      ∀ k, 256 ≤ k → k < next.toNat → Memory.read m k ≠ some { prefixCode := p, suffixSym := x } := by
  constructor
  · intro h k h1 h2 h3
    have hmem := Memory.mem_of_read h3
    clear h3 hw
    induction m with
    | nil => simp at hmem
    | cons b rest ih =>
      obtain ⟨j, f⟩ := b
      simp only [camFind] at h
      split at h
      · simp at h
      · rename_i hj
        rcases List.mem_cons.1 hmem with heq | hmem
        · cases heq; exact hj ⟨h1, h2, rfl⟩
        · exact ih h hmem
  · intro h
    by_contra hne
    obtain ⟨k, hk⟩ := Option.ne_none_iff_exists'.1 hne
    obtain ⟨h1, h2, h3⟩ := camFind_some hw hk
    exact h k h1 h2 h3

end Sys2Proof.Machine
end

