-- ==== Sys2Proof/Laws/State.lean ====
section
/-! SUPPORT. One lemma for each field of State and each named update: what the update leaves there. -/

namespace Sys2Proof.Machine

variable (s : State)

/-! `setBlk` writes `blk` only. -/

@[simp] theorem State.setBlk_params (b : Blk) : (s.setBlk b).params = s.params := rfl
@[simp] theorem State.setBlk_blk (b : Blk) : (s.setBlk b).blk = b := rfl
@[simp] theorem State.setBlk_enc (b : Blk) : (s.setBlk b).enc = s.enc := rfl
@[simp] theorem State.setBlk_dec (b : Blk) : (s.setBlk b).dec = s.dec := rfl
@[simp] theorem State.setBlk_phraseBuf (b : Blk) : (s.setBlk b).phraseBuf = s.phraseBuf := rfl
@[simp] theorem State.setBlk_encOut (b : Blk) : (s.setBlk b).encOut = s.encOut := rfl
@[simp] theorem State.setBlk_decOut (b : Blk) : (s.setBlk b).decOut = s.decOut := rfl
@[simp] theorem State.setBlk_port (b : Blk) : (s.setBlk b).port = s.port := rfl
@[simp] theorem State.setBlk_host (b : Blk) : (s.setBlk b).host = s.host := rfl

/-! `setEnc` writes `enc` only. -/

@[simp] theorem State.setEnc_params (e : EncUnit) : (s.setEnc e).params = s.params := rfl
@[simp] theorem State.setEnc_blk (e : EncUnit) : (s.setEnc e).blk = s.blk := rfl
@[simp] theorem State.setEnc_enc (e : EncUnit) : (s.setEnc e).enc = e := rfl
@[simp] theorem State.setEnc_dec (e : EncUnit) : (s.setEnc e).dec = s.dec := rfl
@[simp] theorem State.setEnc_phraseBuf (e : EncUnit) : (s.setEnc e).phraseBuf = s.phraseBuf := rfl
@[simp] theorem State.setEnc_encOut (e : EncUnit) : (s.setEnc e).encOut = s.encOut := rfl
@[simp] theorem State.setEnc_decOut (e : EncUnit) : (s.setEnc e).decOut = s.decOut := rfl
@[simp] theorem State.setEnc_port (e : EncUnit) : (s.setEnc e).port = s.port := rfl
@[simp] theorem State.setEnc_host (e : EncUnit) : (s.setEnc e).host = s.host := rfl

/-! `setDec` writes `dec` only. -/

@[simp] theorem State.setDec_params (d : DecUnit) : (s.setDec d).params = s.params := rfl
@[simp] theorem State.setDec_blk (d : DecUnit) : (s.setDec d).blk = s.blk := rfl
@[simp] theorem State.setDec_enc (d : DecUnit) : (s.setDec d).enc = s.enc := rfl
@[simp] theorem State.setDec_dec (d : DecUnit) : (s.setDec d).dec = d := rfl
@[simp] theorem State.setDec_phraseBuf (d : DecUnit) : (s.setDec d).phraseBuf = s.phraseBuf := rfl
@[simp] theorem State.setDec_encOut (d : DecUnit) : (s.setDec d).encOut = s.encOut := rfl
@[simp] theorem State.setDec_decOut (d : DecUnit) : (s.setDec d).decOut = s.decOut := rfl
@[simp] theorem State.setDec_port (d : DecUnit) : (s.setDec d).port = s.port := rfl
@[simp] theorem State.setDec_host (d : DecUnit) : (s.setDec d).host = s.host := rfl

/-! `emitCode` appends to `enc_out` only (20_memory.md R68). -/

@[simp] theorem State.emitCode_params (c : Code) : (s.emitCode c).params = s.params := rfl
@[simp] theorem State.emitCode_blk (c : Code) : (s.emitCode c).blk = s.blk := rfl
@[simp] theorem State.emitCode_enc (c : Code) : (s.emitCode c).enc = s.enc := rfl
@[simp] theorem State.emitCode_dec (c : Code) : (s.emitCode c).dec = s.dec := rfl
@[simp] theorem State.emitCode_phraseBuf (c : Code) : (s.emitCode c).phraseBuf = s.phraseBuf := rfl
@[simp] theorem State.emitCode_encOut (c : Code) : (s.emitCode c).encOut = s.encOut ++ [c] := rfl
@[simp] theorem State.emitCode_decOut (c : Code) : (s.emitCode c).decOut = s.decOut := rfl
@[simp] theorem State.emitCode_port (c : Code) : (s.emitCode c).port = s.port := rfl
@[simp] theorem State.emitCode_host (c : Code) : (s.emitCode c).host = s.host := rfl

/-! `emitPhrase` appends to `dec_out` and leaves the phrase buffer empty (42_decoder.md R181). -/

@[simp] theorem State.emitPhrase_params (p : List Symbol) : (s.emitPhrase p).params = s.params := rfl
@[simp] theorem State.emitPhrase_blk (p : List Symbol) : (s.emitPhrase p).blk = s.blk := rfl
@[simp] theorem State.emitPhrase_enc (p : List Symbol) : (s.emitPhrase p).enc = s.enc := rfl
@[simp] theorem State.emitPhrase_dec (p : List Symbol) : (s.emitPhrase p).dec = s.dec := rfl
@[simp] theorem State.emitPhrase_phraseBuf (p : List Symbol) : (s.emitPhrase p).phraseBuf = [] := rfl
@[simp] theorem State.emitPhrase_encOut (p : List Symbol) : (s.emitPhrase p).encOut = s.encOut := rfl
@[simp] theorem State.emitPhrase_decOut (p : List Symbol) : (s.emitPhrase p).decOut = s.decOut ++ p := rfl
@[simp] theorem State.emitPhrase_port (p : List Symbol) : (s.emitPhrase p).port = s.port := rfl
@[simp] theorem State.emitPhrase_host (p : List Symbol) : (s.emitPhrase p).host = s.host := rfl

/-! `setPort` writes the port only. -/

@[simp] theorem State.setPort_params (w : Option Word) : (s.setPort w).params = s.params := rfl
@[simp] theorem State.setPort_blk (w : Option Word) : (s.setPort w).blk = s.blk := rfl
@[simp] theorem State.setPort_enc (w : Option Word) : (s.setPort w).enc = s.enc := rfl
@[simp] theorem State.setPort_dec (w : Option Word) : (s.setPort w).dec = s.dec := rfl
@[simp] theorem State.setPort_phraseBuf (w : Option Word) : (s.setPort w).phraseBuf = s.phraseBuf := rfl
@[simp] theorem State.setPort_encOut (w : Option Word) : (s.setPort w).encOut = s.encOut := rfl
@[simp] theorem State.setPort_decOut (w : Option Word) : (s.setPort w).decOut = s.decOut := rfl
@[simp] theorem State.setPort_port (w : Option Word) : (s.setPort w).port = w := rfl
@[simp] theorem State.setPort_host (w : Option Word) : (s.setPort w).host = s.host := rfl

/-! `setHost` writes the outside world only. -/

@[simp] theorem State.setHost_params (h : HostSide) : (s.setHost h).params = s.params := rfl
@[simp] theorem State.setHost_blk (h : HostSide) : (s.setHost h).blk = s.blk := rfl
@[simp] theorem State.setHost_enc (h : HostSide) : (s.setHost h).enc = s.enc := rfl
@[simp] theorem State.setHost_dec (h : HostSide) : (s.setHost h).dec = s.dec := rfl
@[simp] theorem State.setHost_phraseBuf (h : HostSide) : (s.setHost h).phraseBuf = s.phraseBuf := rfl
@[simp] theorem State.setHost_encOut (h : HostSide) : (s.setHost h).encOut = s.encOut := rfl
@[simp] theorem State.setHost_decOut (h : HostSide) : (s.setHost h).decOut = s.decOut := rfl
@[simp] theorem State.setHost_port (h : HostSide) : (s.setHost h).port = s.port := rfl
@[simp] theorem State.setHost_host (h : HostSide) : (s.setHost h).host = h := rfl

/-! `opened` writes every common field but the array. -/

@[simp] theorem UnitCore.opened_state (u : UnitCore) : u.opened.state = .active := rfl
@[simp] theorem UnitCore.opened_err (u : UnitCore) : u.opened.err = .none := rfl
@[simp] theorem UnitCore.opened_errinfo (u : UnitCore) : u.opened.errinfo = 0 := rfl
@[simp] theorem UnitCore.opened_next (u : UnitCore) : u.opened.next = 256 := rfl
@[simp] theorem UnitCore.opened_inCount (u : UnitCore) : u.opened.inCount = 0 := rfl
@[simp] theorem UnitCore.opened_outCount (u : UnitCore) : u.opened.outCount = 0 := rfl
@[simp] theorem UnitCore.opened_dict (u : UnitCore) : u.opened.dict = u.dict := rfl

/-! `cleared` writes every common field but the array. -/

@[simp] theorem UnitCore.cleared_state (u : UnitCore) : u.cleared.state = .idle := rfl
@[simp] theorem UnitCore.cleared_err (u : UnitCore) : u.cleared.err = .none := rfl
@[simp] theorem UnitCore.cleared_errinfo (u : UnitCore) : u.cleared.errinfo = 0 := rfl
@[simp] theorem UnitCore.cleared_next (u : UnitCore) : u.cleared.next = 256 := rfl
@[simp] theorem UnitCore.cleared_inCount (u : UnitCore) : u.cleared.inCount = 0 := rfl
@[simp] theorem UnitCore.cleared_outCount (u : UnitCore) : u.cleared.outCount = 0 := rfl
@[simp] theorem UnitCore.cleared_dict (u : UnitCore) : u.cleared.dict = u.dict := rfl

/-! `raised` writes `state`, `err` and `errinfo` only (60_exceptions.md R228). -/

@[simp] theorem UnitCore.raised_state (u : UnitCore) (c : ErrCode) (i : Word) : (u.raised c i).state = .error := rfl
@[simp] theorem UnitCore.raised_err (u : UnitCore) (c : ErrCode) (i : Word) : (u.raised c i).err = c := rfl
@[simp] theorem UnitCore.raised_errinfo (u : UnitCore) (c : ErrCode) (i : Word) : (u.raised c i).errinfo = i := rfl
@[simp] theorem UnitCore.raised_next (u : UnitCore) (c : ErrCode) (i : Word) : (u.raised c i).next = u.next := rfl
@[simp] theorem UnitCore.raised_inCount (u : UnitCore) (c : ErrCode) (i : Word) : (u.raised c i).inCount = u.inCount := rfl
@[simp] theorem UnitCore.raised_outCount (u : UnitCore) (c : ErrCode) (i : Word) : (u.raised c i).outCount = u.outCount := rfl
@[simp] theorem UnitCore.raised_dict (u : UnitCore) (c : ErrCode) (i : Word) : (u.raised c i).dict = u.dict := rfl

end Sys2Proof.Machine
end

