-- ==== Sys2Proof/Laws/Effects.lean ====
section
/-! SUPPORT. Everything a command can do, said once (spec/40_dispatch.md R130 to R136, spec/41_encoder.md R151,
spec/42_decoder.md R186): the effects of an encoder command on the encoder, of a decoder command on the decoder, of a
block command on the block, and that `exec` has one of them or leaves the state as it is. Later proofs take these cases
instead of unfolding the meanings. -/

namespace Sys2Proof.Machine

/-! ### The checks before a command -/

theorem unlessIllegal_next {s t : State} {k : Answer} :
    unlessIllegal s k = .next t ↔ (s.blk.illegal = true ∧ t = s) ∨ (s.blk.illegal = false ∧ k = .next t) := by
  unfold unlessIllegal
  cases s.blk.illegal <;> simp [eq_comm]

theorem unlessEncDiscards_next {s t : State} {k : Answer} :
    unlessEncDiscards s k = .next t ↔
      ((s.blk.illegal = true ∨ s.enc.state = .error) ∧ t = s) ∨
      (s.blk.illegal = false ∧ s.enc.state ≠ .error ∧ k = .next t) := by
  unfold unlessEncDiscards
  rw [unlessIllegal_next]
  cases s.blk.illegal <;> by_cases h : s.enc.state = .error <;> simp [h, eq_comm]

theorem unlessDecDiscards_next {s t : State} {k : Answer} :
    unlessDecDiscards s k = .next t ↔
      ((s.blk.illegal = true ∨ s.dec.state = .error) ∧ t = s) ∨
      (s.blk.illegal = false ∧ s.dec.state ≠ .error ∧ k = .next t) := by
  unfold unlessDecDiscards
  rw [unlessIllegal_next]
  cases s.blk.illegal <;> by_cases h : s.dec.state = .error <;> simp [h, eq_comm]

theorem unlessIllegal_false {s : State} (h : s.blk.illegal = false) (k : Answer) : unlessIllegal s k = k := by
  simp [unlessIllegal, h]

theorem unlessEncDiscards_false {s : State} (h : s.blk.illegal = false) (h' : s.enc.state ≠ .error) (k : Answer) :
    unlessEncDiscards s k = k := by
  simp [unlessEncDiscards, unlessIllegal, h, h']

theorem unlessDecDiscards_false {s : State} (h : s.blk.illegal = false) (h' : s.dec.state ≠ .error) (k : Answer) :
    unlessDecDiscards s k = k := by
  simp [unlessDecDiscards, unlessIllegal, h, h']

theorem symbolOf_some {x : Operand} {c : Symbol} : symbolOf x = some c ↔ x.toNat ≤ 255 ∧ c = x.setWidth 8 := by
  unfold symbolOf
  split <;> simp_all [eq_comm]

theorem symbolOf_none {x : Operand} : symbolOf x = none ↔ 255 < x.toNat := by
  unfold symbolOf
  split <;> simp_all

@[simp] theorem seedCode_toNat (c : Symbol) : (seedCode c).toNat = c.toNat := by
  have := c.isLt
  simp [seedCode]
  omega

/-- The seed code of a symbol candidate in range is the candidate (10_state.md R25). -/
theorem seedCode_setWidth {x : Operand} (h : x.toNat ≤ 255) : seedCode (x.setWidth 8) = x := by
  apply BitVec.eq_of_toNat_eq
  simp
  omega

/-! ### Effects -/

/-- What an encoder command that is not discarded does to the encoder: the unit it leaves and the codes it appends. -/
inductive EncEffect (p : Params) (e : EncUnit) : Instr → EncUnit → List Code → Prop
  | opened : e.state ≠ .error →
      EncEffect p e .encStart { e with toUnitCore := e.toUnitCore.opened, wValid := false, wCode := 0 } []
  | cleared : EncEffect p e .encClear { e with toUnitCore := e.toUnitCore.cleared, wValid := false, wCode := 0 } []
  | wrongState (i : Instr) : e.state ≠ .active → e.state ≠ .error → (i = .encEnd ∨ ∃ x, i = .encSym x) →
      EncEffect p e i { e with toUnitCore := e.toUnitCore.raised .sequenceError (encode i) } []
  | invalidSymbol (x : Operand) : e.state = .active → 255 < x.toNat →
      EncEffect p e (.encSym x) { e with toUnitCore := e.toUnitCore.raised .invalidSymbol (zext32 x) } []
  | dictFull (x : Operand) : e.state = .active → x.toNat ≤ 255 → e.wValid = true → e.next.toNat = p.dictCap →
      camFind e.dict e.next e.wCode (x.setWidth 8) = none →
      EncEffect p e (.encSym x) { e with toUnitCore := e.toUnitCore.raised .dictFull (zext32 e.next) } []
  | started (x : Operand) : e.state = .active → x.toNat ≤ 255 → e.wValid = false →
      EncEffect p e (.encSym x) { e with wValid := true, wCode := x, inCount := addCount e.inCount 1 } []
  | extended (x : Operand) (k : Nat) : e.state = .active → x.toNat ≤ 255 → e.wValid = true →
      camFind e.dict e.next e.wCode (x.setWidth 8) = some k →
      EncEffect p e (.encSym x)
        { e with wValid := true, wCode := BitVec.ofNat 28 k, inCount := addCount e.inCount 1 } []
  | missed (x : Operand) (m : Memory) : e.state = .active → x.toNat ≤ 255 → e.wValid = true →
      e.next.toNat ≠ p.dictCap → camFind e.dict e.next e.wCode (x.setWidth 8) = none →
      dictWrite p e.dict e.next e.wCode (x.setWidth 8) = .ok m →
      EncEffect p e (.encSym x)
        { e with
          outCount := addCount e.outCount 1, dict := m, next := e.next + 1, wCode := x,
          inCount := addCount e.inCount 1 } [e.wCode]
  | flushed : e.state = .active → e.wValid = true →
      EncEffect p e .encEnd
        { e with outCount := addCount e.outCount 1, wValid := false, wCode := 0, state := .done } [e.wCode]
  | closed : e.state = .active → e.wValid = false →
      EncEffect p e .encEnd { e with wValid := false, wCode := 0, state := .done } []

/-- What a decoder command that is not discarded does to the decoder: the unit it leaves and the symbols it appends. -/
inductive DecEffect (p : Params) (d : DecUnit) : Instr → DecUnit → List Symbol → Prop
  | opened : d.state ≠ .error →
      DecEffect p d .decStart { d with toUnitCore := d.toUnitCore.opened, havePrev := false, prev := 0 } []
  | cleared : DecEffect p d .decClear { d with toUnitCore := d.toUnitCore.cleared, havePrev := false, prev := 0 } []
  | wrongState (i : Instr) : d.state ≠ .active → d.state ≠ .error → (i = .decEnd ∨ ∃ k, i = .decCode k) →
      DecEffect p d i { d with toUnitCore := d.toUnitCore.raised .sequenceError (encode i) } []
  | emptyStream : d.state = .active → d.havePrev = false →
      DecEffect p d .decEnd { d with toUnitCore := d.toUnitCore.raised .emptyStream 0 } []
  | badCode (k : Operand) : d.state = .active →
      (d.havePrev = false ∧ 255 < k.toNat ∨ d.havePrev = true ∧ d.next.toNat < k.toNat) →
      DecEffect p d (.decCode k) { d with toUnitCore := d.toUnitCore.raised .badCode (zext32 k) } []
  | dictFull (k : Operand) : d.state = .active → d.havePrev = true → k.toNat ≤ d.next.toNat →
      d.next.toNat = p.dictCap →
      DecEffect p d (.decCode k) { d with toUnitCore := d.toUnitCore.raised .dictFull (zext32 d.next) } []
  | first (k : Operand) : d.state = .active → d.havePrev = false → k.toNat ≤ 255 →
      DecEffect p d (.decCode k)
        { d with
          outCount := addCount d.outCount 1, havePrev := true, prev := k, inCount := addCount d.inCount 1 }
        [k.setWidth 8]
  | later (k c : Operand) (x : Symbol) (m : Memory) (ph : List Symbol) : d.state = .active → d.havePrev = true →
      (k.toNat < d.next.toNat ∧ c = k ∨ k.toNat = d.next.toNat ∧ c = d.prev) → d.next.toNat ≠ p.dictCap →
      firstSym d.dict d.next p.phraseCap c = .ok x → dictWrite p d.dict d.next d.prev x = .ok m →
      walk m (d.next + 1) p.phraseCap k [] = .ok ph →
      DecEffect p d (.decCode k)
        { d with
          dict := m, next := d.next + 1, outCount := addCount d.outCount ph.length, prev := k,
          inCount := addCount d.inCount 1 } ph
  | closed : d.state = .active → d.havePrev = true → DecEffect p d .decEnd { d with state := .done } []

/-- What a command does: nothing (NOP, and every discarded word), a block command's effect, or an effect on one unit and
its stream. The phrase buffer ends empty where the decoder used it, and is left alone elsewhere. -/
inductive Effect (s : State) : Instr → State → Prop
  | kept (i : Instr) : Effect s i s
  | recorded (i : Instr) (w : Word) : s.blk.illegal = false → (i = .illegalAB w ∨ i = .illegalCF w) →
      Effect s i { s with blk := { illegal := true, illegalWord := w } }
  | blkCleared : Effect s .blkClear { s with blk := { illegal := false, illegalWord := 0 } }
  | enc {i : Instr} {e : EncUnit} {cs : List Code} : s.blk.illegal = false → EncEffect s.params s.enc i e cs →
      Effect s i { s with enc := e, encOut := s.encOut ++ cs }
  | dec {i : Instr} {d : DecUnit} {ph buf : List Symbol} : s.blk.illegal = false → DecEffect s.params s.dec i d ph →
      (ph = [] ∧ buf = s.phraseBuf ∨ buf = [] ∧ d.state = s.dec.state) →
      Effect s i { s with dec := d, decOut := s.decOut ++ ph, phraseBuf := buf }

theorem Effect.enc_nil {s : State} {i : Instr} {e : EncUnit} (hb : s.blk.illegal = false)
    (h : EncEffect s.params s.enc i e []) : Effect s i { s with enc := e } := by
  simpa using Effect.enc hb h

theorem Effect.dec_nil {s : State} {i : Instr} {d : DecUnit} (hb : s.blk.illegal = false)
    (h : DecEffect s.params s.dec i d []) : Effect s i { s with dec := d } := by
  simpa using Effect.dec hb h (.inl ⟨rfl, rfl⟩)

/-! ### Every meaning has an effect -/

theorem execEncSym_effect {x : Operand} {s t : State} (h : execEncSym x s = .next t) : Effect s (.encSym x) t := by
  unfold execEncSym at h
  rw [unlessEncDiscards_next] at h
  rcases h with ⟨-, rfl⟩ | ⟨hb, hs, h⟩
  · exact .kept _
  split at h
  · rename_i ha
    split at h
    · rename_i hx
      cases h
      exact .enc_nil hb (.invalidSymbol x ha (symbolOf_none.1 hx))
    · rename_i c hx
      obtain ⟨hle, rfl⟩ := symbolOf_some.1 hx
      split at h
      · rename_i hw
        split at h
        · rename_i k hk
          cases h
          exact .enc_nil hb (.extended x k ha hle hw hk)
        · rename_i hk
          unfold encMiss at h
          split at h
          · rename_i hn
            cases h
            exact .enc_nil hb (.dictFull x ha hle hw hn hk)
          · rename_i hn
            split at h
            · cases h
            · rename_i m hm
              cases h
              have := Effect.enc hb (EncEffect.missed x m ha hle hw hn hk hm)
              rw [seedCode_setWidth hle]
              exact this
      · rename_i hw
        cases h
        have := Effect.enc_nil hb (EncEffect.started x ha hle (by simpa using hw))
        rw [encAdvance, seedCode_setWidth hle]
        exact this
  · rename_i ha
    cases h
    exact .enc_nil hb (.wrongState _ ha hs (.inr ⟨x, rfl⟩))

theorem execEncEnd_effect {s t : State} (h : execEncEnd s = .next t) : Effect s .encEnd t := by
  unfold execEncEnd at h
  rw [unlessEncDiscards_next] at h
  rcases h with ⟨-, rfl⟩ | ⟨hb, hs, h⟩
  · exact .kept _
  split at h
  · rename_i ha
    cases h
    by_cases hw : s.enc.wValid = true
    · simpa [encFlush, hw, State.setEnc, State.emitCode] using Effect.enc hb (EncEffect.flushed ha hw)
    · have hw' : s.enc.wValid = false := by simpa using hw
      simpa [encFlush, hw', State.setEnc] using Effect.enc_nil hb (EncEffect.closed ha hw')
  · rename_i ha
    cases h
    exact .enc_nil hb (.wrongState _ ha hs (.inl rfl))

theorem decNext_effect {k c : Code} {s t : State} (hb : s.blk.illegal = false) (ha : s.dec.state = .active)
    (hp : s.dec.havePrev = true)
    (hk : k.toNat < s.dec.next.toNat ∧ c = k ∨ k.toNat = s.dec.next.toNat ∧ c = s.dec.prev)
    (h : decNext k c s = .next t) : Effect s (.decCode k) t := by
  unfold decNext at h
  split at h
  · rename_i hn
    cases h
    exact .dec_nil hb (.dictFull k ha hp (by omega) hn)
  · rename_i hn
    split at h
    · cases h
    · rename_i x hx
      split at h
      · cases h
      · rename_i m hm
        split at h
        · cases h
        · rename_i ph hph
          cases h
          exact .dec hb (.later k c x m ph ha hp hk hn hx hm hph) (.inr ⟨rfl, rfl⟩)

theorem execDecCode_effect {k : Operand} {s t : State} (h : execDecCode k s = .next t) : Effect s (.decCode k) t := by
  unfold execDecCode at h
  rw [unlessDecDiscards_next] at h
  rcases h with ⟨-, rfl⟩ | ⟨hb, hs, h⟩
  · exact .kept _
  split at h
  · rename_i ha
    by_cases hp : s.dec.havePrev = true
    · simp only [classify, hp, if_true] at h
      by_cases h1 : k.toNat < s.dec.next.toNat
      · rw [if_pos h1] at h
        exact decNext_effect hb ha hp (.inl ⟨h1, rfl⟩) h
      · rw [if_neg h1] at h
        by_cases h2 : k.toNat = s.dec.next.toNat
        · rw [if_pos h2] at h
          exact decNext_effect hb ha hp (.inr ⟨h2, rfl⟩) h
        · rw [if_neg h2] at h
          cases h
          exact .dec_nil hb (.badCode k ha (.inr ⟨hp, by omega⟩))
    · have hp' : s.dec.havePrev = false := by simpa using hp
      simp only [classify, hp', Bool.false_eq_true, if_false] at h
      rcases hx : symbolOf k with _ | x <;> rw [hx] at h
      · cases h
        exact .dec_nil hb (.badCode k ha (.inl ⟨hp', symbolOf_none.1 hx⟩))
      · obtain ⟨hle, rfl⟩ := symbolOf_some.1 hx
        cases h
        have := Effect.dec hb (DecEffect.first k ha hp' hle) (.inr ⟨rfl, rfl⟩)
        rw [decFirst, seedCode_setWidth hle]
        exact this
  · rename_i ha
    cases h
    exact .dec_nil hb (.wrongState _ ha hs (.inr ⟨k, rfl⟩))

theorem execDecEnd_effect {s t : State} (h : execDecEnd s = .next t) : Effect s .decEnd t := by
  unfold execDecEnd at h
  rw [unlessDecDiscards_next] at h
  rcases h with ⟨-, rfl⟩ | ⟨hb, hs, h⟩
  · exact .kept _
  split at h
  · rename_i ha
    split at h
    · rename_i hp
      cases h
      exact .dec_nil hb (.closed ha hp)
    · rename_i hp
      cases h
      exact .dec_nil hb (.emptyStream ha (by simpa using hp))
  · rename_i ha
    cases h
    exact .dec_nil hb (.wrongState _ ha hs (.inl rfl))

/-- If a command answers a next state, it had one of the effects. -/
theorem exec_effect {i : Instr} {s t : State} (h : exec i s = .next t) : Effect s i t := by
  cases i with
  | nop =>
    rcases unlessIllegal_next.1 (show execNop s = .next t from h) with ⟨-, rfl⟩ | ⟨-, h⟩
    · exact .kept _
    · cases h
      exact .kept _
  | encStart =>
    rcases unlessEncDiscards_next.1 (show execEncStart s = .next t from h) with ⟨-, rfl⟩ | ⟨hb, hs, h⟩
    · exact .kept _
    · cases h
      exact .enc_nil hb (.opened hs)
  | encSym x => exact execEncSym_effect h
  | encEnd => exact execEncEnd_effect h
  | encClear =>
    rcases unlessIllegal_next.1 (show execEncClear s = .next t from h) with ⟨-, rfl⟩ | ⟨hb, h⟩
    · exact .kept _
    · cases h
      exact .enc_nil hb .cleared
  | decStart =>
    rcases unlessDecDiscards_next.1 (show execDecStart s = .next t from h) with ⟨-, rfl⟩ | ⟨hb, hs, h⟩
    · exact .kept _
    · cases h
      exact .dec_nil hb (.opened hs)
  | decCode k => exact execDecCode_effect h
  | decEnd => exact execDecEnd_effect h
  | decClear =>
    rcases unlessIllegal_next.1 (show execDecClear s = .next t from h) with ⟨-, rfl⟩ | ⟨hb, h⟩
    · exact .kept _
    · cases h
      exact .dec_nil hb .cleared
  | blkClear =>
    cases show execBlkClear s = .next t from h
    exact .blkCleared
  | illegalAB w =>
    rcases unlessIllegal_next.1 (show takeIllegal w s = .next t from h) with ⟨-, rfl⟩ | ⟨hb, h⟩
    · exact .kept _
    · cases h
      exact .recorded _ w hb (.inl rfl)
  | illegalCF w =>
    rcases unlessIllegal_next.1 (show takeIllegal w s = .next t from h) with ⟨-, rfl⟩ | ⟨hb, h⟩
    · exact .kept _
    · cases h
      exact .recorded _ w hb (.inr rfl)

end Sys2Proof.Machine
end

