-- ==== Sys2Proof/Laws/Encoding.lean ====
section
/-! SUPPORT. Command words and their two fields (spec/30_encoding.md R100), as numbers and as a pair. -/

namespace Sys2Proof

theorem opcodeOf_toNat (w : Word) : (opcodeOf w).toNat = w.toNat / 2 ^ 28 := by
  have := w.isLt
  simp [opcodeOf, BitVec.extractLsb'_toNat, Nat.shiftRight_eq_div_pow]
  omega

theorem operandOf_toNat (w : Word) : (operandOf w).toNat = w.toNat % 2 ^ 28 := by
  simp [operandOf, BitVec.extractLsb'_toNat]

theorem cmdWord_toNat (o : BitVec 4) (x : Operand) : (cmdWord o x).toNat = o.toNat * 2 ^ 28 + x.toNat := by
  simp only [cmdWord, BitVec.toNat_append]
  rw [← Nat.shiftLeft_add_eq_or_of_lt x.isLt, Nat.shiftLeft_eq]

@[simp] theorem opcodeOf_cmdWord (o : BitVec 4) (x : Operand) : opcodeOf (cmdWord o x) = o := by
  apply BitVec.eq_of_toNat_eq
  rw [opcodeOf_toNat, cmdWord_toNat]
  omega

@[simp] theorem operandOf_cmdWord (o : BitVec 4) (x : Operand) : operandOf (cmdWord o x) = x := by
  apply BitVec.eq_of_toNat_eq
  rw [operandOf_toNat, cmdWord_toNat]
  omega

/-- A word is its two fields. -/
theorem cmdWord_fields (w : Word) : cmdWord (opcodeOf w) (operandOf w) = w := by
  apply BitVec.eq_of_toNat_eq
  rw [cmdWord_toNat, opcodeOf_toNat, operandOf_toNat]
  omega

theorem cmdWord_inj {o o' : BitVec 4} {x x' : Operand} : cmdWord o x = cmdWord o' x' ↔ o = o' ∧ x = x' := by
  constructor
  · intro h
    exact ⟨by simpa using congrArg opcodeOf h, by simpa using congrArg operandOf h⟩
  · rintro ⟨rfl, rfl⟩
    rfl

/-- The first bits of a reserved word, read through its opcode field. -/
theorem opcodeOf_topBits (w : Word) (a b p : Nat) (hb : a + b = 32) (ha : 28 ≤ a) (h : (w.extractLsb' a b).toNat = p) :
    (opcodeOf w).toNat / 2 ^ (a - 28) = p := by
  have hw := w.isLt
  rw [BitVec.extractLsb'_toNat, Nat.shiftRight_eq_div_pow] at h
  rw [opcodeOf_toNat, Nat.div_div_eq_div_mul, ← Nat.pow_add, show 28 + (a - 28) = a by omega, ← h]
  refine (Nat.mod_eq_of_lt ?_).symm
  rw [Nat.div_lt_iff_lt_mul (by positivity), ← Nat.pow_add, Nat.add_comm, hb]
  exact hw

/-- A mask acts on the two fields apart. -/
theorem cmdWord_and (o m : BitVec 4) (x n : Operand) : cmdWord o x &&& cmdWord m n = cmdWord (o &&& m) (x &&& n) :=
  BitVec.and_append

/-- A row whose mask and pattern are given field by field covers a word exactly when both fields match. -/
theorem covers_cmdWord (o m p : BitVec 4) (x n q : Operand) :
    (OpcodeRow.mk (cmdWord p q) (cmdWord m n)).covers (cmdWord o x) = true ↔ o &&& m = p ∧ x &&& n = q := by
  simp only [OpcodeRow.covers, beq_iff_eq, cmdWord_and, cmdWord_inj]

/-- A command of operand class `NONE` decodes exactly when its operand is 0 (30_encoding.md R103). -/
theorem decodeNone_ok {i j : Instr} {w : Word} : decodeNone i w = .ok j ↔ operandOf w = 0 ∧ j = i := by
  unfold decodeNone
  split <;> simp_all [eq_comm]

theorem decodeNone_error {i : Instr} {w : Word} {r : Reject} :
    decodeNone i w = .error r ↔ operandOf w ≠ 0 ∧ r = .operandNotZero w := by
  unfold decodeNone
  split <;> simp_all [eq_comm]

end Sys2Proof
end

