-- ==== Sys2Proof/Laws/Phrase.lean ====
section
/-! SUPPORT. Phrases (spec/10_state.md R25, R31, R33): they are defined for every code below `next`, the sequencer's walk
(spec/42_decoder.md R181) and `first` compute them, and storing one more entry adds one phrase and changes none. -/

namespace Sys2Proof.Machine

/-- Every code from 256 up to `n` is stored and its prefix is a smaller code (10_state.md R26(a), R32(a)). -/
def Chained (m : Memory) (n : Nat) : Prop :=
  ∀ k, 256 ≤ k → k < n → ∃ e, Memory.read m k = some e ∧ e.prefixCode.toNat < k

/-- The phrase of code `k` in an array with `n` codes. -/
def phraseIn (m : Memory) (n k : Nat) : Option (List Symbol) := phraseFuel m n (k + 1) k

theorem UnitCore.phrase_eq (u : UnitCore) (k : Nat) : u.phrase k = phraseIn u.dict u.next.toNat k := rfl

theorem UnitCore.Inv.chained {p : Params} {u : UnitCore} (h : u.Inv p) : Chained u.dict u.next.toNat :=
  fun k h1 h2 => h.entry k ⟨h1, h2⟩

/-- More fuel than links changes nothing. -/
theorem phraseFuel_stable {m : Memory} {n : Nat} (hc : Chained m n) (k : Nat) :
    ∀ fuel, k < fuel → phraseFuel m n fuel k = phraseIn m n k := by
  induction k using Nat.strong_induction_on with
  | _ k ih =>
    intro fuel hf
    obtain ⟨f, rfl⟩ : ∃ f, fuel = f + 1 := ⟨fuel - 1, by omega⟩
    unfold phraseIn
    simp only [phraseFuel]
    by_cases h1 : k < 256
    · simp [h1]
    · by_cases h2 : k < n
      · obtain ⟨e, he, hlt⟩ := hc k (by omega) h2
        simp only [h1, h2, he, if_false, if_true]
        rw [ih _ hlt f (by omega), ih _ hlt k (by omega)]
      · simp [h1, h2]

theorem phraseIn_seed (m : Memory) (n : Nat) {k : Nat} (h : k < 256) : phraseIn m n k = some [BitVec.ofNat 8 k] := by
  simp [phraseIn, phraseFuel, h]

theorem phraseIn_entry {m : Memory} {n k : Nat} {e : Entry} (hc : Chained m n) (h1 : 256 ≤ k) (h2 : k < n)
    (he : Memory.read m k = some e) : phraseIn m n k = (phraseIn m n e.prefixCode.toNat).map (· ++ [e.suffixSym]) := by
  obtain ⟨e', he', hlt⟩ := hc k h1 h2
  obtain rfl : e = e' := by rw [he] at he'; exact Option.some.inj he'
  have h3 : ¬ k < 256 := by omega
  rw [← phraseFuel_stable hc k (k + 1) (by omega)]
  simp only [phraseFuel, h3, h2, he, if_false, if_true]
  rw [phraseFuel_stable hc _ k hlt]

/-- A code below `next` has a phrase, not empty and of bounded length (10_state.md R33). -/
theorem phraseIn_some {m : Memory} {n : Nat} (hc : Chained m n) (k : Nat) (hk : k < 256 ∨ k < n) :
    ∃ p, phraseIn m n k = some p ∧ p ≠ [] ∧ p.length ≤ max 1 (k - 254) := by
  induction k using Nat.strong_induction_on with
  | _ k ih =>
    by_cases h1 : k < 256
    · exact ⟨_, phraseIn_seed m n h1, by simp, by simp⟩
    · have h2 : k < n := by omega
      obtain ⟨e, he, hlt⟩ := hc k (by omega) h2
      obtain ⟨p, hp, -, hlen⟩ := ih _ hlt (by omega)
      refine ⟨p ++ [e.suffixSym], by rw [phraseIn_entry hc (by omega) h2 he, hp]; rfl, by simp, ?_⟩
      simp only [List.length_append, List.length_singleton]
      omega

/-- The walk of 42_decoder.md R181 pushes exactly the phrase, if it has the slots. -/
theorem walk_eq {m : Memory} {next : NextCode} (hc : Chained m next.toNat) {p : List Symbol} :
    ∀ (slots : Nat) (c : Code) (pb : List Symbol), (c.toNat < 256 ∨ c.toNat < next.toNat) →
      phraseIn m next.toNat c.toNat = some p → p.length ≤ slots → walk m next slots c pb = .ok (p ++ pb) := by
  intro slots
  induction slots generalizing p with
  | zero =>
    intro c pb hlt hp hlen
    obtain ⟨q, hq, hne, -⟩ := phraseIn_some hc _ hlt
    rw [hp] at hq; cases hq
    exact absurd (List.length_eq_zero_iff.1 (by omega)) hne
  | succ slots ih =>
    intro c pb hlt hp hlen
    simp only [walk]
    by_cases h1 : c.toNat < 256
    · rw [phraseIn_seed _ _ h1] at hp
      cases hp
      simp [h1, BitVec.ofNat_toNat]
    · have h2 : c.toNat < next.toNat := by omega
      obtain ⟨e, he, hpre⟩ := hc _ (by omega) h2
      obtain ⟨q, hq, -, -⟩ := phraseIn_some hc e.prefixCode.toNat (by omega)
      rw [phraseIn_entry hc (by omega) h2 he, hq] at hp
      cases hp
      simp only [List.length_append, List.length_singleton] at hlen
      rw [if_neg h1, dictRead_ok.2 ⟨⟨by omega, h2⟩, he⟩]
      simp only
      rw [ih _ _ (by omega) hq (by omega)]
      simp

/-- `first(u, k)` is the head of the phrase (10_state.md R31). -/
theorem firstSym_eq {m : Memory} {next : NextCode} (hc : Chained m next.toNat) {p : List Symbol} :
    ∀ (len : Nat) (c : Code), (c.toNat < 256 ∨ c.toNat < next.toNat) →
      phraseIn m next.toNat c.toNat = some p → p.length ≤ len →
      ∃ x rest, p = x :: rest ∧ firstSym m next len c = .ok x := by
  intro len
  induction len generalizing p with
  | zero =>
    intro c hlt hp hlen
    obtain ⟨q, hq, hne, -⟩ := phraseIn_some hc _ hlt
    rw [hp] at hq; cases hq
    exact absurd (List.length_eq_zero_iff.1 (by omega)) hne
  | succ len ih =>
    intro c hlt hp hlen
    simp only [firstSym]
    by_cases h1 : c.toNat < 256
    · rw [phraseIn_seed _ _ h1] at hp
      cases hp
      exact ⟨_, [], rfl, by simp [h1, BitVec.ofNat_toNat]⟩
    · have h2 : c.toNat < next.toNat := by omega
      obtain ⟨e, he, hpre⟩ := hc _ (by omega) h2
      obtain ⟨q, hq, -, -⟩ := phraseIn_some hc e.prefixCode.toNat (by omega)
      rw [phraseIn_entry hc (by omega) h2 he, hq] at hp
      cases hp
      simp only [List.length_append, List.length_singleton] at hlen
      obtain ⟨x, rest, rfl, hx⟩ := ih e.prefixCode (by omega) hq (by omega)
      refine ⟨x, rest ++ [e.suffixSym], rfl, ?_⟩
      rw [if_neg h1, dictRead_ok.2 ⟨⟨by omega, h2⟩, he⟩]
      exact hx

/-- The walk and `first` look at valid codes only (10_state.md R22, R30). -/
theorem walk_congr {m m' : Memory} {next : NextCode}
    (h : ∀ k, 256 ≤ k → k < next.toNat → Memory.read m' k = Memory.read m k) (slots : Nat) (c : Code)
    (pb : List Symbol) : walk m' next slots c pb = walk m next slots c pb := by
  induction slots generalizing c pb with
  | zero => rfl
  | succ slots ih => simp only [walk, dictRead_congr h, ih]

theorem firstSym_congr {m m' : Memory} {next : NextCode}
    (h : ∀ k, 256 ≤ k → k < next.toNat → Memory.read m' k = Memory.read m k) (len : Nat) (c : Code) :
    firstSym m' next len c = firstSym m next len c := by
  induction len generalizing c with
  | zero => rfl
  | succ len ih => simp only [firstSym, dictRead_congr h, ih]

/-- Storing an entry at code `n` extends the chain by one code. -/
theorem Chained.write {m : Memory} (hw : Memory.wf m = true) {n : Nat} (hc : Chained m n) {p : Code} {x : Symbol}
    (hp : p.toNat < n) : Chained (Memory.write m n { prefixCode := p, suffixSym := x }) (n + 1) := by
  intro k h1 h2
  rw [Memory.read_write hw]
  by_cases h : k = n
  · subst h
    exact ⟨_, if_pos rfl, hp⟩
  · rw [if_neg h]
    exact hc k h1 (by omega)

/-- … and changes no phrase of a code below `n`. -/
theorem phraseIn_write_of_lt {m : Memory} (hw : Memory.wf m = true) {n : Nat} (hc : Chained m n) {p : Code} {x : Symbol}
    (hp : p.toNat < n) (k : Nat) (hk : k < n) :
    phraseIn (Memory.write m n { prefixCode := p, suffixSym := x }) (n + 1) k = phraseIn m n k := by
  induction k using Nat.strong_induction_on with
  | _ k ih =>
    by_cases h1 : k < 256
    · rw [phraseIn_seed _ _ h1, phraseIn_seed _ _ h1]
    · obtain ⟨e, he, hlt⟩ := hc k (by omega) hk
      have he' : Memory.read (Memory.write m n { prefixCode := p, suffixSym := x }) k = some e := by
        rw [Memory.read_write hw, if_neg (by omega), he]
      rw [phraseIn_entry (hc.write hw hp) (by omega) (by omega) he', phraseIn_entry hc (by omega) hk he,
        ih _ hlt (by omega)]

/-- … and gives code `n` the phrase of its prefix with its suffix (10_state.md R31). -/
theorem phraseIn_write_self {m : Memory} (hw : Memory.wf m = true) {n : Nat} (hc : Chained m n) {p : Code} {x : Symbol}
    (hp : p.toNat < n) (hn : 256 ≤ n) :
    phraseIn (Memory.write m n { prefixCode := p, suffixSym := x }) (n + 1) n =
      (phraseIn m n p.toNat).map (· ++ [x]) := by
  rw [phraseIn_entry (hc.write hw hp) hn (by omega) (by rw [Memory.read_write hw, if_pos rfl]),
    phraseIn_write_of_lt hw hc hp _ hp]

end Sys2Proof.Machine
end

