-- ==== Sys2Proof/Laws/Turns.lean ====
section
/-! SUPPORT. Everything a step can do, said once (spec/10_state.md R20, spec/70_reset_and_hazards.md R272): it performs
the accepted word, or it is a reset, or it is a turn of the host or of a sink that leaves the block's own fields alone. -/

namespace Sys2Proof.Machine

/-- The instruction an accepted word is performed as. A word no row covers is an ill-formed word, performed like one of
the reserved rows (40_dispatch.md R134). -/
def instrOf (w : Word) : Instr :=
  match decode w with
  | .ok i => i
  | .error _ => .illegalAB w

/-- The decoder reads a word only as an instruction with that word. -/
theorem encode_of_decode {w : Word} {i : Instr} (h : decode w = .ok i) : encode i = w := by
  have hw := cmdWord_fields w
  have hof : ∀ {n : Nat}, (opcodeOf w).toNat = n → cmdWord (BitVec.ofNat 4 n) (operandOf w) = w := by
    rintro _ rfl
    simpa using hw
  unfold decode at h
  split at h <;> rename_i hn
  all_goals first
    | (obtain ⟨h0, rfl⟩ := decodeNone_ok.1 h; have := hof hn; rw [h0] at this; exact this)
    | (cases h; first | rfl | exact hof hn)

/-- A word the decoder rejects is rejected under its own name. -/
theorem decode_error {w : Word} {r : Reject} (h : decode w = .error r) : r = .operandNotZero w := by
  unfold decode at h
  split at h
  all_goals first
    | exact (decodeNone_error.1 h).2
    | cases h

theorem encode_instrOf (w : Word) : encode (instrOf w) = w := by
  unfold instrOf
  split
  · rename_i i h
    exact encode_of_decode h
  · rfl

/-- Performing a word is performing its instruction. -/
theorem perform_eq (w : Word) (s : State) : perform w s = exec (instrOf w) s := by
  unfold perform instrOf
  rcases h : decode w with r | i
  · obtain rfl := decode_error h
    rfl
  · rfl

/-- An accepted word is ill-formed and performed as a reserved row with that word, or it is well-formed and performed as
the command it decodes to (30_encoding.md R104, 40_dispatch.md R130). -/
theorem instrOf_cases (w : Word) :
    (illFormed w = true ∧ (instrOf w = .illegalAB w ∨ instrOf w = .illegalCF w)) ∨
    (illFormed w = false ∧ decode w = .ok (instrOf w) ∧ ∀ v, instrOf w ≠ .illegalAB v ∧ instrOf w ≠ .illegalCF v) := by
  have op : ∀ o : BitVec 4, o = 0#4 ∨ o = 1#4 ∨ o = 2#4 ∨ o = 3#4 ∨ o = 4#4 ∨ o = 5#4 ∨ o = 6#4 ∨ o = 7#4 ∨ o = 8#4 ∨
      o = 9#4 ∨ o = 10#4 ∨ o = 11#4 ∨ o = 12#4 ∨ o = 13#4 ∨ o = 14#4 ∨ o = 15#4 := by decide
  generalize ho : opcodeOf w = o
  generalize hx : operandOf w = x
  rcases op o with h | h | h | h | h | h | h | h | h | h | h | h | h | h | h | h <;> rw [h] at ho <;>
    by_cases hx0 : x = 0#28 <;> simp [instrOf, decode, decodeNone, ho, hx, hx0, illFormed]

/-- The turn only takes an entry off the list. -/
theorem nextTurn_snd (s : State) : (nextTurn s).2 = { s with host := { s.host with turns := s.host.turns.tail } } := by
  unfold nextTurn
  rcases h : s.host.turns with _ | ⟨t, ts⟩
  · simp only [List.tail_nil]
    rw [← h]
  · rfl

/-- The hold looks at the streams only. -/
theorem held_congr {w : Word} {s s' : State} (h1 : s'.encOut = s.encOut) (h2 : s'.decOut = s.decOut) :
    held w s' = held w s := by
  simp only [held, h1, h2]

/-- The block's own fields, apart from the streams and the port. -/
structure SameBlock (s t : State) : Prop where
  params : t.params = s.params
  blk : t.blk = s.blk
  enc : t.enc = s.enc
  dec : t.dec = s.dec
  phraseBuf : t.phraseBuf = s.phraseBuf

/-- The registers look at the block's own fields only (10_state.md R39). -/
theorem register_congr {s t : State} (h : SameBlock s t) (i : BitVec 4) : register i t = register i s := by
  simp only [register, h.params, h.blk, h.enc, h.dec]

/-- What a turn other than reset and an accepted word can change: the port and the host's list together, the head of a
stream, and the records of the outside world. -/
structure QuietStep (s t : State) : Prop extends SameBlock s t where
  encOut : t.encOut = if (nextTurn s).1 = .encTake then s.encOut.tail else s.encOut
  decOut : t.decOut = if (nextTurn s).1 = .decTake then s.decOut.tail else s.decOut
  port : (t.port = s.port ∧ t.host.commands = s.host.commands) ∨
    ∃ w ws, s.port = none ∧ s.host.commands = w :: ws ∧ t.port = some w ∧ t.host.commands = ws

/-- Every step that answers a next state. -/
theorem step_cases {s t : State} (h : step s = .next t) :
    (∃ w, acceptedWord s = some w ∧ s.port = some w ∧ held w s = false ∧ (nextTurn s).1 = .block ∧
      exec (instrOf w) { s with port := none, host := { s.host with turns := s.host.turns.tail } } = .next t) ∨
    (acceptedWord s = none ∧ (nextTurn s).1 = .reset ∧
      t = resetTurn { s with host := { s.host with turns := s.host.turns.tail } }) ∨
    (acceptedWord s = none ∧ (nextTurn s).1 ≠ .reset ∧ QuietStep s t) := by
  unfold step at h
  rw [nextTurn_snd] at h
  rcases ht : (nextTurn s).1 with _ | _ | ⟨off, width⟩ | ⟨off, width, value⟩ | _ | _ | _ <;> rw [ht] at h <;>
    simp only [takeTurn] at h
  case block =>
    rcases hp : s.port with _ | w
    · simp only [blockTurn, hp] at h
      cases h
      exact .inr (.inr ⟨by simp [acceptedWord, ht, hp], by simp, ⟨⟨rfl, rfl, rfl, rfl, rfl⟩, by simp [ht], by simp [ht],
        .inl ⟨hp.symm, rfl⟩⟩⟩)
    · simp only [blockTurn, hp] at h
      split at h
      · rename_i hh
        cases h
        exact .inr (.inr ⟨by simp [acceptedWord, ht, hp, show held w s = true from hh], by simp,
          ⟨⟨rfl, rfl, rfl, rfl, rfl⟩, by simp [ht], by simp [ht], .inl ⟨hp.symm, rfl⟩⟩⟩)
      · rename_i hh
        have hh' : held w s = false := Bool.eq_false_iff.2 hh
        rw [perform_eq] at h
        exact .inl ⟨w, by simp [acceptedWord, ht, hp, hh'], rfl, hh', rfl, h⟩
  case offer =>
    cases h
    refine .inr (.inr ⟨by simp [acceptedWord, ht], by simp, ?_⟩)
    unfold offerTurn
    split
    · rename_i w ws hp hc
      exact ⟨⟨rfl, rfl, rfl, rfl, rfl⟩, by simp [ht], by simp [ht], .inr ⟨w, ws, hp, hc, rfl, rfl⟩⟩
    · exact ⟨⟨rfl, rfl, rfl, rfl, rfl⟩, by simp [ht], by simp [ht], .inl ⟨rfl, rfl⟩⟩
  case regRead =>
    cases h
    exact .inr (.inr ⟨by simp [acceptedWord, ht], by simp, ⟨⟨rfl, rfl, rfl, rfl, rfl⟩, by simp [ht, replyTurn],
      by simp [ht, replyTurn], .inl ⟨rfl, rfl⟩⟩⟩)
  case regWrite =>
    cases h
    exact .inr (.inr ⟨by simp [acceptedWord, ht], by simp, ⟨⟨rfl, rfl, rfl, rfl, rfl⟩, by simp [ht, replyTurn],
      by simp [ht, replyTurn], .inl ⟨rfl, rfl⟩⟩⟩)
  case encTake =>
    cases h
    refine .inr (.inr ⟨by simp [acceptedWord, ht], by simp, ?_⟩)
    unfold encTakeTurn
    rcases he : s.encOut with _ | ⟨c, rest⟩
    · exact ⟨⟨rfl, rfl, rfl, rfl, rfl⟩, by simp [he], by simp [ht], .inl ⟨rfl, rfl⟩⟩
    · exact ⟨⟨rfl, rfl, rfl, rfl, rfl⟩, by simp [ht, he], by simp [ht], .inl ⟨rfl, rfl⟩⟩
  case decTake =>
    cases h
    refine .inr (.inr ⟨by simp [acceptedWord, ht], by simp, ?_⟩)
    unfold decTakeTurn
    rcases he : s.decOut with _ | ⟨c, rest⟩
    · exact ⟨⟨rfl, rfl, rfl, rfl, rfl⟩, by simp [ht], by simp [he], .inl ⟨rfl, rfl⟩⟩
    · exact ⟨⟨rfl, rfl, rfl, rfl, rfl⟩, by simp [ht], by simp [ht, he], .inl ⟨rfl, rfl⟩⟩
  case reset =>
    cases h
    exact .inr (.inl ⟨by simp [acceptedWord, ht], rfl, rfl⟩)

/-- A listed turn is taken, and used up. -/
theorem step_listed {s : State} {t : Turn} {ts : List Turn} (h : s.host.turns = t :: ts) :
    step s = takeTurn t { s with host := { s.host with turns := ts } } := by
  have hn : nextTurn s = (t, s.setHost { s.host with turns := ts }) := by rw [nextTurn, h]
  rw [step, hn]
  rfl

/-- On a listed turn of the block, an offered word that is not held is performed. -/
theorem step_block {s : State} {w : Word} {ts : List Turn} (ht : s.host.turns = .block :: ts) (hp : s.port = some w)
    (hh : held w s = false) :
    step s = exec (instrOf w) { s with port := none, host := { s.host with turns := ts } } := by
  have hh' : held w (s.setHost { s.host with turns := ts }) = false := hh
  have hn : nextTurn s = (.block, s.setHost { s.host with turns := ts }) := by rw [nextTurn, ht]
  rw [step, hn]
  simp only [takeTurn, blockTurn, State.setHost_port, hp, hh', Bool.false_eq_true, if_false, perform_eq]
  rfl

end Sys2Proof.Machine
end

