-- ==== Sys2Proof/Laws/Invariant.lean ====
section
/-! SUPPORT. The parts of the invariant (spec/10_state.md R26, R32, spec/60_exceptions.md R224, R228): what a fresh
session, an error entry, a change of counters and a new dictionary entry keep of it, and a check that decides it on a
given state. -/

namespace Sys2Proof.Machine

/-- A fresh dictionary has no valid entry: `next` is 256 (10_state.md R24). -/
theorem no_valid_entry_fresh {k : Nat} : ¬ (256 ≤ k ∧ k < (256 : NextCode).toNat) := by
  have : (256 : NextCode).toNat = 256 := rfl
  omega

/-- One more code in a dictionary that is not full (20_memory.md R71). -/
theorem next_succ {p : Params} (hp : p.wf) {n : NextCode} (h : n.toNat < p.dictCap) :
    (n + 1).toNat = n.toNat + 1 := by
  have := hp.2
  rw [BitVec.toNat_add]
  simp
  omega

/-- A session that opens or is cleared keeps the invariant, whatever is left in the array (10_state.md R25). -/
theorem UnitCore.Inv.fresh {p : Params} {u : UnitCore} (h : u.Inv p) (hp : p.wf) {st : SessionState}
    (hs : st ≠ .error) :
    UnitCore.Inv p
      { u with state := st, err := .none, errinfo := 0, next := 256, inCount := 0, outCount := 0 } where
  next_ge := show 256 ≤ (256 : NextCode).toNat by decide
  next_le := hp.1
  dict_wf := h.dict_wf
  dict_codes := h.dict_codes
  entry _ hk := (no_valid_entry_fresh hk).elim
  err_iff := by simp [hs]
  errinfo_zero _ := rfl

/-- An error entry keeps the invariant (60_exceptions.md R228). -/
theorem UnitCore.Inv.raised {p : Params} {u : UnitCore} (h : u.Inv p) {c : ErrCode} (hc : c ≠ .none) (i : Word) :
    (u.raised c i).Inv p where
  next_ge := h.next_ge
  next_le := h.next_le
  dict_wf := h.dict_wf
  dict_codes := h.dict_codes
  entry := h.entry
  err_iff := by simp [hc]
  errinfo_zero hs := absurd rfl hs

/-- The invariant does not look at the counters, and of the unit state only at ERROR. -/
theorem UnitCore.Inv.recount {p : Params} {u : UnitCore} (h : u.Inv p) (ic oc : Count) {st : SessionState}
    (hst : st = .error ↔ u.state = .error) :
    UnitCore.Inv p { u with inCount := ic, outCount := oc, state := st } where
  next_ge := h.next_ge
  next_le := h.next_le
  dict_wf := h.dict_wf
  dict_codes := h.dict_codes
  entry := h.entry
  err_iff := h.err_iff.trans hst.symm
  errinfo_zero hs := h.errinfo_zero (hs ∘ hst.2)

/-- A new entry keeps the invariant (20_memory.md R71, 10_state.md R26(a)). -/
theorem UnitCore.Inv.insert {p : Params} {u : UnitCore} (h : u.Inv p) (hp : p.wf) {c : Code} {x : Symbol}
    {m : Memory} (hm : dictWrite p u.dict u.next c x = .ok m) (ic oc : Count) :
    UnitCore.Inv p { u with dict := m, next := u.next + 1, inCount := ic, outCount := oc } := by
  obtain ⟨⟨h1, h2, h3⟩, rfl⟩ := dictWrite_ok.1 hm
  have hn := next_succ hp h2
  constructor
  · show 256 ≤ (u.next + 1).toNat
    omega
  · show (u.next + 1).toNat ≤ _
    omega
  · exact Memory.wf_write h.dict_wf _ _
  · intro k e he
    change Memory.read (Memory.write _ _ _) _ = _ at he
    rw [Memory.read_write h.dict_wf] at he
    split at he
    · omega
    · exact h.dict_codes k e he
  · rintro k ⟨hk1, hk2⟩
    change k < (u.next + 1).toNat at hk2
    exact Chained.write h.dict_wf h.chained h3 k hk1 (by omega)
  · exact h.err_iff
  · exact h.errinfo_zero

/-- In an encoder that meets the invariant CamFind answers exactly the valid code that stores the pair (41_encoder.md
R150: at most one exists). -/
theorem EncUnit.Inv.camFind_iff {p : Params} {e : EncUnit} (h : e.Inv p) {c : Code} {x : Symbol} {k : Nat} :
    camFind e.dict e.next c x = some k ↔
      e.validEntry k ∧ Memory.read e.dict k = some { prefixCode := c, suffixSym := x } := by
  constructor
  · intro hc
    obtain ⟨h1, h2, h3⟩ := camFind_some h.core.dict_wf hc
    exact ⟨⟨h1, h2⟩, h3⟩
  · rintro ⟨hv, hr⟩
    rcases hc : camFind e.dict e.next c x with _ | j
    · exact absurd hr ((camFind_none h.core.dict_wf).1 hc k hv.1 hv.2)
    · obtain ⟨h1, h2, h3⟩ := camFind_some h.core.dict_wf hc
      rw [h.distinct j k ⟨h1, h2⟩ hv (h3.trans hr.symm)]

/-- The invariant looks at the block's own fields only. -/
theorem Inv.congr {s t : State} (h : Inv s) (hst : SameBlock s t) : Inv t where
  params := hst.params ▸ h.params
  enc := by rw [hst.enc, hst.params]; exact h.enc
  dec := by rw [hst.dec, hst.params]; exact h.dec
  buffer_empty := by rw [hst.phraseBuf]; exact h.buffer_empty
  legal_word := by rw [hst.blk]; exact h.legal_word
  illegal_word := by rw [hst.blk]; exact h.illegal_word

/-! ### Deciding the invariant on a given state -/

/-- `UnitCore.Inv` as a check. It runs over the listed entries and over the valid codes. -/
def UnitCore.invCheck (p : Params) (u : UnitCore) : Bool :=
  decide (256 ≤ u.next.toNat) && decide (u.next.toNat ≤ p.dictCap) && Memory.wf u.dict &&
  u.dict.all (fun a => decide (256 ≤ a.1) && decide (a.1 < p.dictCap)) &&
  ((List.range (u.next.toNat - 256)).all fun i =>
    match Memory.read u.dict (256 + i) with
    | some e => decide (e.prefixCode.toNat < 256 + i)
    | none => false) &&
  ((u.err == .none) != (u.state == .error)) && (u.state == .error || u.errinfo == 0)

theorem UnitCore.Inv.of_check {p : Params} {u : UnitCore} (h : u.invCheck p = true) : u.Inv p := by
  simp only [UnitCore.invCheck, Bool.and_eq_true, decide_eq_true_eq, List.all_eq_true, List.mem_range] at h
  obtain ⟨⟨⟨⟨⟨⟨h1, h2⟩, h3⟩, h4⟩, h5⟩, h6⟩, h7⟩ := h
  refine ⟨h1, h2, h3, fun k e he => h4 _ (Memory.mem_of_read he), ?_, ?_, ?_⟩
  · rintro k ⟨hk1, hk2⟩
    have := h5 (k - 256) (by omega)
    rw [show 256 + (k - 256) = k by omega] at this
    split at this
    · rename_i e he
      exact ⟨e, he, by simpa using this⟩
    · cases this
  · cases he : u.err <;> cases hs : u.state <;> simp_all
  · intro hs
    simpa [hs] using h7

/-- `EncUnit.Inv` as a check. -/
def EncUnit.invCheck (p : Params) (e : EncUnit) : Bool :=
  e.toUnitCore.invCheck p && (!e.wValid || decide (e.wCode.toNat < e.next.toNat)) && (e.wValid || e.wCode == 0) &&
  ((List.range (e.next.toNat - 256)).all fun i => (List.range (e.next.toNat - 256)).all fun j =>
    i == j || Memory.read e.dict (256 + i) != Memory.read e.dict (256 + j)) &&
  [.none, .invalidSymbol, .dictFull, .sequenceError].contains e.err &&
  (e.state != .idle || (!e.wValid && e.next == 256 && e.inCount == 0 && e.outCount == 0)) &&
  (e.state != .done || !e.wValid)

theorem EncUnit.Inv.of_check {p : Params} {e : EncUnit} (h : e.invCheck p = true) : e.Inv p := by
  simp only [EncUnit.invCheck, Bool.and_eq_true, List.all_eq_true, List.mem_range] at h
  obtain ⟨⟨⟨⟨⟨⟨h1, h2⟩, h3⟩, h4⟩, h5⟩, h6⟩, h7⟩ := h
  refine ⟨.of_check h1, ?_, ?_, ?_, ?_, ?_, ?_⟩
  · intro hw
    simpa [hw] using h2
  · intro hw
    simpa [hw] using h3
  · rintro j k ⟨hj1, hj2⟩ ⟨hk1, hk2⟩ hjk
    have := h4 (j - 256) (by omega) (k - 256) (by omega)
    rw [show 256 + (j - 256) = j by omega, show 256 + (k - 256) = k by omega, hjk] at this
    simp at this
    omega
  · simpa using h5
  · intro hs
    simpa [hs, and_assoc] using h6
  · intro hs
    simpa [hs] using h7

/-- `DecUnit.Inv` as a check. -/
def DecUnit.invCheck (p : Params) (d : DecUnit) : Bool :=
  d.toUnitCore.invCheck p && (!d.havePrev || decide (d.prev.toNat < d.next.toNat)) &&
  (d.havePrev || d.prev == 0 && d.next == 256) &&
  [.none, .emptyStream, .badCode, .dictFull, .sequenceError].contains d.err &&
  (d.state != .idle || (!d.havePrev && d.next == 256 && d.inCount == 0 && d.outCount == 0)) &&
  (d.state != .done || d.havePrev)

theorem DecUnit.Inv.of_check {p : Params} {d : DecUnit} (h : d.invCheck p = true) : d.Inv p := by
  simp only [DecUnit.invCheck, Bool.and_eq_true] at h
  obtain ⟨⟨⟨⟨⟨h1, h2⟩, h3⟩, h4⟩, h5⟩, h6⟩ := h
  refine ⟨.of_check h1, ?_, ?_, ?_, ?_, ?_, ?_⟩
  · intro hp
    simpa [hp] using h2
  · intro hp
    simp [hp] at h3
    exact h3.1
  · intro hp
    simp [hp] at h3
    exact h3.2
  · simpa using h4
  · intro hs
    simpa [hs, and_assoc] using h5
  · intro hs
    simpa [hs] using h6

/-- `Inv` as a check. -/
def invCheck (s : State) : Bool :=
  decide s.params.wf && s.enc.invCheck s.params && s.dec.invCheck s.params && s.phraseBuf.isEmpty &&
  (if s.blk.illegal then illFormed s.blk.illegalWord else s.blk.illegalWord == 0)

theorem Inv.of_check {s : State} (h : invCheck s = true) : Inv s := by
  simp only [invCheck, Bool.and_eq_true, decide_eq_true_eq] at h
  obtain ⟨⟨⟨⟨h1, h2⟩, h3⟩, h4⟩, h5⟩ := h
  refine ⟨h1, .of_check h2, .of_check h3, by simpa using h4, ?_, ?_⟩
  · intro hb
    simpa [hb] using h5
  · intro hb
    simpa [hb] using h5

end Sys2Proof.Machine
end

