-- ==== Sys2Proof/Laws/PerInstr.lean ====
section
/-! SUPPORT. Per-instruction statements: the word of a well-formed instruction belongs to the instruction's own row of
spec/opcode_table.json. -/

namespace Sys2Proof.Laws.EncodeRow

/-- The encoding of a well-formed instruction matches its row's pattern under its row's mask (30_encoding.md R102). -/
def Statement (i : Instr) : Prop := i.wellFormed = true → i.row.covers (encode i) = true

theorem nop : Statement .nop := fun _ => by decide

theorem encStart : Statement .encStart := fun _ => by decide

theorem encSym (s : Operand) : Statement (.encSym s) := fun _ =>
  (covers_cmdWord 0x2#4 0xF#4 0x2#4 s 0#28 0#28).2 ⟨by decide, by simp⟩

theorem encEnd : Statement .encEnd := fun _ => by decide

theorem encClear : Statement .encClear := fun _ => by decide

theorem decStart : Statement .decStart := fun _ => by decide

theorem decCode (k : Operand) : Statement (.decCode k) := fun _ =>
  (covers_cmdWord 0x6#4 0xF#4 0x6#4 k 0#28 0#28).2 ⟨by decide, by simp⟩

theorem decEnd : Statement .decEnd := fun _ => by decide

theorem decClear : Statement .decClear := fun _ => by decide

theorem blkClear : Statement .blkClear := fun _ => by decide

theorem illegalAB (w : Word) : Statement (.illegalAB w) := fun h => by
  have h5 := opcodeOf_topBits w 29 3 5 rfl (by decide) (by simpa [Instr.wellFormed] using congrArg BitVec.toNat (beq_iff_eq.1 h))
  have ho : opcodeOf w &&& 0xE#4 = 0xA#4 := by
    generalize opcodeOf w = o at h5
    revert o
    decide
  rw [show encode (.illegalAB w) = cmdWord (opcodeOf w) (operandOf w) from (cmdWord_fields w).symm]
  exact (covers_cmdWord _ 0xE#4 0xA#4 _ 0#28 0#28).2 ⟨ho, by simp⟩

theorem illegalCF (w : Word) : Statement (.illegalCF w) := fun h => by
  have h3 := opcodeOf_topBits w 30 2 3 rfl (by decide) (by simpa [Instr.wellFormed] using congrArg BitVec.toNat (beq_iff_eq.1 h))
  have ho : opcodeOf w &&& 0xC#4 = 0xC#4 := by
    generalize opcodeOf w = o at h3
    revert o
    decide
  rw [show encode (.illegalCF w) = cmdWord (opcodeOf w) (operandOf w) from (cmdWord_fields w).symm]
  exact (covers_cmdWord _ 0xC#4 0xC#4 _ 0#28 0#28).2 ⟨ho, by simp⟩

end Sys2Proof.Laws.EncodeRow
end

