-- ==== Sys2Proof/Laws/Session.lean ====
section
/-! SUPPORT. What each step means to a unit's session, said once (spec/00_scope.md R12): the event a step is for the
encoder and for the decoder, with what it leaves in the unit and its stream. -/

namespace Sys2Proof.Machine

/-- The state an accepted word is performed in: the port freed, a listed turn used up. -/
abbrev State.accepting (s : State) : State :=
  { s with port := none, host := { s.host with turns := s.host.turns.tail } }

/-- A word that is performed as a command, not as a reserved row, decodes to that command. -/
theorem decode_of_instrOf {w : Word} {i : Instr} (h : instrOf w = i)
    (hi : ∀ v, i ≠ .illegalAB v ∧ i ≠ .illegalCF v) : decode w = .ok i := by
  subst h
  rcases instrOf_cases w with ⟨-, h | h⟩ | ⟨-, h, -⟩
  · exact absurd h (hi w).1
  · exact absurd h (hi w).2
  · exact h

theorem encOut_of_not_held {w : Word} {s : State} (hw : w = 0x10000000#32 ∨ w = 0x40000000#32)
    (h : held w s = false) : s.encOut = [] := by
  rcases hw with rfl | rfl <;> simpa [held] using h

theorem decOut_of_not_held {w : Word} {s : State} (hw : w = 0x50000000#32 ∨ w = 0x80000000#32)
    (h : held w s = false) : s.decOut = [] := by
  rcases hw with rfl | rfl <;> simpa [held] using h

/-! ### The encoder -/

/-- A step as the encoder's session sees it. -/
inductive EncView (s t : State) : Prop
  | other : encEvent s = .other → t.encOut = s.encOut →
      (t.enc = s.enc ∨ t.enc.state = .error ∧ s.enc.state ≠ .active) → EncView s t
  | take : encEvent s = .take → t.encOut = s.encOut.tail → t.enc = s.enc → EncView s t
  | item (x : Operand) : encEvent s = .item x → s.enc.state = .active → s.blk.illegal = false →
      exec (.encSym x) s.accepting = .next t → EncView s t
  | completes : encEvent s = .completes → s.enc.state = .active → s.blk.illegal = false →
      exec .encEnd s.accepting = .next t → EncView s t
  | opens : encEvent s = .opens → s.encOut = [] → t.encOut = [] → t.enc.state = .active → t.enc.wValid = false →
      t.enc.next = 256 → t.blk.illegal = false → EncView s t
  | clears : encEvent s = .clears → t.encOut = [] → t.enc.state = .idle → t.blk.illegal = false → EncView s t

theorem encEvent_accepted {s : State} {w : Word} (hb : (nextTurn s).1 = .block) (ha : acceptedWord s = some w) :
    encEvent s =
      if s.blk.illegal then .other
      else if w = 0x40000000#32 then .clears
      else if s.enc.state = .error then .other
      else if w = 0x10000000#32 then .opens
      else if s.enc.state = .active then
        match decode w with
        | .ok (.encSym x) => .item x
        | .ok .encEnd => .completes
        | _ => .other
      else .other := by
  unfold encEvent
  rw [hb, ha] <;> rfl

/-- A command that is no CLEAR and no START that is performed, in an encoder that is not ACTIVE, leaves the
encoder alone or raises. -/
theorem Effect.enc_outside {s t : State} {i : Instr} (h : Effect s i t) (ho : i ≠ .encStart ∨ s.enc.state = .error)
    (hc : i ≠ .encClear) (ha : s.enc.state ≠ .active) :
    t.encOut = s.encOut ∧ (t.enc = s.enc ∨ t.enc.state = .error ∧ s.enc.state ≠ .error) := by
  cases h with
  | enc hb he =>
    cases he with
    | opened h => exact absurd (ho.resolve_left fun h => h rfl) h
    | cleared => exact absurd rfl hc
    | wrongState _ _ hs => exact ⟨by simp, .inr ⟨rfl, hs⟩⟩
    | _ => exact absurd ‹_ = SessionState.active› ha
  | _ => exact ⟨rfl, .inl rfl⟩

/-- A command that is not the encoder's leaves the encoder alone. -/
theorem Effect.enc_foreign {s t : State} {i : Instr} (h : Effect s i t) (ha : s.enc.state = .active)
    (ho : i ≠ .encStart) (hc : i ≠ .encClear) (hs : ∀ x, i ≠ .encSym x) (he : i ≠ .encEnd) :
    t.encOut = s.encOut ∧ t.enc = s.enc := by
  cases h with
  | enc hb h =>
    cases h with
    | opened => exact absurd rfl ho
    | cleared => exact absurd rfl hc
    | wrongState _ h => exact absurd ha h
    | flushed => exact absurd rfl he
    | closed => exact absurd rfl he
    | _ => exact absurd rfl (hs _)
  | _ => exact ⟨rfl, rfl⟩

theorem Effect.enc_illegal {s t : State} {i : Instr} (h : Effect s i t) (hb : s.blk.illegal = true) :
    t.encOut = s.encOut ∧ t.enc = s.enc := by
  cases h with
  | enc hb' => rw [hb] at hb'; cases hb'
  | _ => exact ⟨rfl, rfl⟩

theorem ne_of_word {w v : Word} {i : Instr} (h : w ≠ v) (hv : encode i = v) : instrOf w ≠ i := by
  rintro rfl
  exact h (by rw [← hv, encode_instrOf])

/-- What a step is to the encoder's session. -/
theorem step_encView {s t : State} (hst : step s = .next t) : EncView s t := by
  rcases step_cases hst with ⟨w, ha, -, hh, hblk, he⟩ | ⟨-, hr, rfl⟩ | ⟨ha, hr, hq⟩
  · have hev := encEvent_accepted hblk ha
    have hef : Effect s.accepting (instrOf w) t := exec_effect he
    by_cases hb : s.blk.illegal = true
    · exact .other (by rw [hev, if_pos hb]) (hef.enc_illegal hb).1 (.inl (hef.enc_illegal hb).2)
    rw [if_neg hb] at hev
    have hb' : s.blk.illegal = false := by simpa using hb
    by_cases hc : w = 0x40000000#32
    · subst hc
      have hx : exec .encClear s.accepting = .next _ := unlessIllegal_false (s := s.accepting) hb' _
      rw [show instrOf 0x40000000#32 = .encClear by decide, hx] at he
      have hout := encOut_of_not_held (.inr rfl) hh
      cases he
      exact .clears (by rw [hev, if_pos rfl]) hout rfl hb'
    rw [if_neg hc] at hev
    have hc' := ne_of_word hc (i := .encClear) (by decide)
    by_cases hse : s.enc.state = .error
    · have h := hef.enc_outside (.inr hse) hc' (by rw [show s.accepting.enc.state = .error from hse]; decide)
      exact .other (by rw [hev, if_pos hse]) h.1 (.inl (h.2.resolve_right fun h => h.2 hse))
    rw [if_neg hse] at hev
    by_cases ho : w = 0x10000000#32
    · subst ho
      have hx : exec .encStart s.accepting = .next _ := unlessEncDiscards_false (s := s.accepting) hb' hse _
      rw [show instrOf 0x10000000#32 = .encStart by decide, hx] at he
      have hout := encOut_of_not_held (.inl rfl) hh
      cases he
      exact .opens (by rw [hev, if_pos rfl]) hout hout rfl rfl rfl hb'
    rw [if_neg ho] at hev
    have ho' := ne_of_word ho (i := .encStart) (by decide)
    by_cases hact : s.enc.state = .active
    · rw [if_pos hact] at hev
      rcases Classical.em (∃ x, instrOf w = .encSym x) with ⟨x, hs⟩ | hs
      · exact .item x (by rw [hev, decode_of_instrOf hs (by simp)]) hact hb' (hs ▸ he)
      by_cases hn : instrOf w = .encEnd
      · exact .completes (by rw [hev, decode_of_instrOf hn (by simp)]) hact hb' (hn ▸ he)
      have h := hef.enc_foreign hact ho' hc' (fun x h => hs ⟨x, h⟩) hn
      refine .other ?_ h.1 (.inl h.2)
      rw [hev]
      rcases hd : decode w with r | i
      · rfl
      · have hi : instrOf w = i := by rw [instrOf, hd]
        cases i with
        | encSym x => exact absurd ⟨x, hi⟩ hs
        | encEnd => exact absurd hi hn
        | _ => rfl
    · have h := hef.enc_outside (.inl ho') hc' hact
      exact .other (by rw [hev, if_neg hact]) h.1 (h.2.imp_right fun h => ⟨h.1, hact⟩)
  · exact .clears (by rw [encEvent, hr]) rfl rfl rfl
  · by_cases hc : (nextTurn s).1 = .encTake
    · exact .take (by rw [encEvent, hc]) (by rw [hq.encOut, if_pos hc]) hq.enc
    · refine .other ?_ (by rw [hq.encOut, if_neg hc]) (.inl hq.enc)
      unfold encEvent
      rw [ha]
      split <;> simp_all

/-! ### The decoder -/

/-- A step as the decoder's session sees it. -/
inductive DecView (s t : State) : Prop
  | other : decEvent s = .other → t.decOut = s.decOut → (t.dec = s.dec ∨ t.dec.state = .error ∧ s.dec.state ≠ .error) →
      DecView s t
  | take : decEvent s = .take → t.decOut = s.decOut.tail → t.dec = s.dec → DecView s t
  | item (k : Operand) : decEvent s = .item k → s.dec.state = .active → s.blk.illegal = false →
      exec (.decCode k) s.accepting = .next t → DecView s t
  | completes : decEvent s = .completes → s.dec.state = .active → s.dec.havePrev = true → s.blk.illegal = false →
      exec .decEnd s.accepting = .next t → DecView s t
  | opens : decEvent s = .opens → s.decOut = [] → t.decOut = [] → t.dec.state = .active → t.dec.havePrev = false →
      t.dec.next = 256 → t.blk.illegal = false → DecView s t
  | clears : decEvent s = .clears → t.decOut = [] → t.dec.state = .idle → t.blk.illegal = false → DecView s t

theorem decEvent_accepted {s : State} {w : Word} (hb : (nextTurn s).1 = .block) (ha : acceptedWord s = some w) :
    decEvent s =
      if s.blk.illegal then .other
      else if w = 0x80000000#32 then .clears
      else if s.dec.state = .error then .other
      else if w = 0x50000000#32 then .opens
      else if s.dec.state = .active then
        match decode w with
        | .ok (.decCode k) => .item k
        | .ok .decEnd => if s.dec.havePrev then .completes else .other
        | _ => .other
      else .other := by
  unfold decEvent
  rw [hb, ha] <;> rfl

/-- A command that is no CLEAR and no START that is performed, in a decoder that is not ACTIVE, leaves the decoder alone
or raises. -/
theorem Effect.dec_outside {s t : State} {i : Instr} (h : Effect s i t) (ho : i ≠ .decStart ∨ s.dec.state = .error)
    (hc : i ≠ .decClear) (ha : s.dec.state ≠ .active) :
    t.decOut = s.decOut ∧ (t.dec = s.dec ∨ t.dec.state = .error ∧ s.dec.state ≠ .error) := by
  cases h with
  | dec hb he =>
    cases he with
    | opened h => exact absurd (ho.resolve_left fun h => h rfl) h
    | cleared => exact absurd rfl hc
    | wrongState _ _ hs => exact ⟨by simp, .inr ⟨rfl, hs⟩⟩
    | emptyStream h => exact absurd h ha
    | badCode _ h => exact absurd h ha
    | dictFull _ h => exact absurd h ha
    | first _ h => exact absurd h ha
    | later _ _ _ _ _ h => exact absurd h ha
    | closed h => exact absurd h ha
  | _ => exact ⟨rfl, .inl rfl⟩

/-- A command that is not the decoder's leaves the decoder alone; a DEC_END before any code raises (42_decoder.md
R184). -/
theorem Effect.dec_foreign {s t : State} {i : Instr} (h : Effect s i t) (ha : s.dec.state = .active)
    (ho : i ≠ .decStart) (hc : i ≠ .decClear) (hs : ∀ k, i ≠ .decCode k)
    (he : i = .decEnd → s.dec.havePrev = false) :
    t.decOut = s.decOut ∧ (t.dec = s.dec ∨ t.dec.state = .error ∧ s.dec.state ≠ .error) := by
  cases h with
  | dec hb h =>
    cases h with
    | opened => exact absurd rfl ho
    | cleared => exact absurd rfl hc
    | wrongState _ h => exact absurd ha h
    | emptyStream => exact ⟨by simp, .inr ⟨rfl, by rw [ha]; decide⟩⟩
    | closed _ hp => rw [he rfl] at hp; cases hp
    | _ => exact absurd rfl (hs _)
  | _ => exact ⟨rfl, .inl rfl⟩

theorem Effect.dec_illegal {s t : State} {i : Instr} (h : Effect s i t) (hb : s.blk.illegal = true) :
    t.decOut = s.decOut ∧ t.dec = s.dec := by
  cases h with
  | dec hb' => rw [hb] at hb'; cases hb'
  | _ => exact ⟨rfl, rfl⟩

/-- What a step is to the decoder's session. -/
theorem step_decView {s t : State} (hst : step s = .next t) : DecView s t := by
  rcases step_cases hst with ⟨w, ha, -, hh, hblk, he⟩ | ⟨-, hr, rfl⟩ | ⟨ha, hr, hq⟩
  · have hev := decEvent_accepted hblk ha
    have hef : Effect s.accepting (instrOf w) t := exec_effect he
    by_cases hb : s.blk.illegal = true
    · exact .other (by rw [hev, if_pos hb]) (hef.dec_illegal hb).1 (.inl (hef.dec_illegal hb).2)
    rw [if_neg hb] at hev
    have hb' : s.blk.illegal = false := by simpa using hb
    by_cases hc : w = 0x80000000#32
    · subst hc
      have hx : exec .decClear s.accepting = .next _ := unlessIllegal_false (s := s.accepting) hb' _
      rw [show instrOf 0x80000000#32 = .decClear by decide, hx] at he
      have hout := decOut_of_not_held (.inr rfl) hh
      cases he
      exact .clears (by rw [hev, if_pos rfl]) hout rfl hb'
    rw [if_neg hc] at hev
    have hc' := ne_of_word hc (i := .decClear) (by decide)
    by_cases hse : s.dec.state = .error
    · have h := hef.dec_outside (.inr hse) hc' (by rw [show s.accepting.dec.state = .error from hse]; decide)
      exact .other (by rw [hev, if_pos hse]) h.1 h.2
    rw [if_neg hse] at hev
    by_cases ho : w = 0x50000000#32
    · subst ho
      have hx : exec .decStart s.accepting = .next _ := unlessDecDiscards_false (s := s.accepting) hb' hse _
      rw [show instrOf 0x50000000#32 = .decStart by decide, hx] at he
      have hout := decOut_of_not_held (.inl rfl) hh
      cases he
      exact .opens (by rw [hev, if_pos rfl]) hout hout rfl rfl rfl hb'
    rw [if_neg ho] at hev
    have ho' := ne_of_word ho (i := .decStart) (by decide)
    by_cases hact : s.dec.state = .active
    · rw [if_pos hact] at hev
      rcases Classical.em (∃ k, instrOf w = .decCode k) with ⟨k, hs⟩ | hs
      · exact .item k (by rw [hev, decode_of_instrOf hs (by simp)]) hact hb' (hs ▸ he)
      rcases Classical.em (instrOf w = .decEnd ∧ s.dec.havePrev = true) with ⟨hn, hp⟩ | hn
      · exact .completes (by rw [hev, decode_of_instrOf hn (by simp)]; exact if_pos hp) hact hp hb' (hn ▸ he)
      have hn' : instrOf w = .decEnd → s.dec.havePrev = false := fun h => by simpa using fun hp => hn ⟨h, hp⟩
      have h := hef.dec_foreign hact ho' hc' (fun x h => hs ⟨x, h⟩) hn'
      refine .other ?_ h.1 h.2
      rw [hev]
      rcases hd : decode w with r | i
      · rfl
      · have hi : instrOf w = i := by rw [instrOf, hd]
        cases i with
        | decCode k => exact absurd ⟨k, hi⟩ hs
        | decEnd => exact if_neg (by rw [hn' hi]; decide)
        | _ => rfl
    · have h := hef.dec_outside (.inl ho') hc' hact
      exact .other (by rw [hev, if_neg hact]) h.1 h.2
  · exact .clears (by rw [decEvent, hr]) rfl rfl rfl
  · by_cases hc : (nextTurn s).1 = .decTake
    · exact .take (by rw [decEvent, hc]) (by rw [hq.decOut, if_pos hc]) hq.dec
    · refine .other ?_ (by rw [hq.decOut, if_neg hc]) (.inl hq.dec)
      unfold decEvent
      rw [ha]
      split <;> simp_all

/-! ### The log -/

/-- Only a running session's phase can change. -/
theorem SessionPhase.after_of_ne {p : SessionPhase} (h : p ≠ .running) (ev : SessionEvent) (u : SessionState) :
    p.after ev u = p := by
  cases p <;> first | rfl | exact absurd rfl h

end Sys2Proof.Machine
end

