-- ==== Sys2Proof/Tests/Slice0.lean ====
section
/-! SUPPORT. The model's own tests: ill-formed terms, words written out from spec/30_encoding.md R102, one step of each
command with the values of spec/95_test_vectors.md or of the command's own example, and for every statement with
hypotheses a state that meets them. -/

namespace Sys2Proof.Tests

open Sys2Proof.Machine

/-! ### Helpers -/

/-- The reset state of a block with `DICT_CAP = cap` (95_test_vectors.md, conventions). -/
def blank (cap : Nat) : State := State.resetWith { dictCap := cap }

/-- An encoder in a given session state, with `w` the code `w?` and a dictionary of `next - 256` entries. -/
def encIn (cap : Nat) (st : SessionState) (w? : Option Code) (next : NextCode) (m : Memory) : State :=
  { blank cap with
    enc := { (blank cap).enc with state := st, wValid := w?.isSome, wCode := w?.getD 0, next := next, dict := m } }

/-- A decoder in a given session state, with previous code `p?` and a dictionary of `next - 256` entries. -/
def decIn (cap : Nat) (st : SessionState) (p? : Option Code) (next : NextCode) (m : Memory) : State :=
  { blank cap with
    dec := { (blank cap).dec with state := st, havePrev := p?.isSome, prev := p?.getD 0, next := next, dict := m } }

/-- The encoder in ERROR with InvalidSymbol and info `0x12C`, as in V-E5 but with no symbol matched. -/
def encErr : State :=
  { blank 258 with
    enc := { (blank 258).enc with state := .error, err := .invalidSymbol, errinfo := 0x12C } }

/-- The decoder in ERROR with EmptyStream, as after V-D1. -/
def decErr : State :=
  { blank 258 with dec := { (blank 258).dec with state := .error, err := .emptyStream, errinfo := 0 } }

/-- The block with an ill-formed word recorded, as in V-B7. -/
def illegalBlk : State := { blank 258 with blk := { illegal := true, illegalWord := 0xA0000000 } }

/-- The state with the given turns listed. -/
def turns (ts : List Turn) (s : State) : State := { s with host := { s.host with turns := ts } }

/-- The state with a word on the port and the block to move. -/
def offered (w : Word) (s : State) : State := turns [.block] { s with port := some w }

/-- One entry (65, 66) at code 256: the dictionary of P1 after line 3. -/
def ab : Memory := [(256, { prefixCode := 65, suffixSym := 66 })]

/-- The next state, if there is one. -/
def next? : Answer → Option State
  | .next t => some t
  | _ => none

/-- What is seen of the next state. -/
def seen {α : Type} (a : Answer) (f : State → α) : Option α := (next? a).map f

theorem next_of_seen {a : Answer} (h : (next? a).isSome = true) : ∃ t, a = .next t := by
  cases a with
  | next t => exact ⟨t, rfl⟩
  | fault => cases h
  | refused => cases h

/-! ### WellFormed: a term whose word is not of its row is refused -/

theorem test_wf_ab_refuses_cf_word : Instr.wellFormed (.illegalAB 0xC0000000#32) = false := by decide
theorem test_wf_ab_refuses_command_word : Instr.wellFormed (.illegalAB 0x90000000#32) = false := by decide
theorem test_wf_cf_refuses_ab_word : Instr.wellFormed (.illegalCF 0xBFFFFFFF#32) = false := by decide
theorem test_wf_cf_refuses_command_word : Instr.wellFormed (.illegalCF 0x10000001#32) = false := by decide
theorem test_wf_accepts :
    Instr.wellFormed (.illegalAB 0xBFFFFFFF#32) = true ∧ Instr.wellFormed (.illegalCF 0xC0000000#32) = true ∧
    Instr.wellFormed (.encSym 0xFFFFFFF#28) = true := by decide

/-! ### Decoding: the words of 95_test_vectors.md's opcode-map table, bit by bit from 30_encoding.md R100 and R102 -/

theorem test_decode_nop : decode 0b0000_0000000000000000000000000000#32 = .ok .nop := by decide
theorem test_decode_encStart : decode 0b0001_0000000000000000000000000000#32 = .ok .encStart := by decide
theorem test_decode_encSym : decode 0b0010_0000000000000000000100101100#32 = .ok (.encSym 300#28) := by decide
theorem test_decode_encEnd : decode 0b0011_0000000000000000000000000000#32 = .ok .encEnd := by decide
theorem test_decode_encClear : decode 0b0100_0000000000000000000000000000#32 = .ok .encClear := by decide
theorem test_decode_decStart : decode 0b0101_0000000000000000000000000000#32 = .ok .decStart := by decide
theorem test_decode_decCode : decode 0b0110_0000000011110100001000111111#32 = .ok (.decCode 999999#28) := by decide
theorem test_decode_decEnd : decode 0b0111_0000000000000000000000000000#32 = .ok .decEnd := by decide
theorem test_decode_decClear : decode 0b1000_0000000000000000000000000000#32 = .ok .decClear := by decide
theorem test_decode_blkClear : decode 0b1001_0000000000000000000000000000#32 = .ok .blkClear := by decide
theorem test_decode_illegalAB :
    decode 0b1010_0000000000000000000000000000#32 = .ok (.illegalAB 0xA0000000#32) ∧
    decode 0b1011_1111111111111111111111111111#32 = .ok (.illegalAB 0xBFFFFFFF#32) := by decide
theorem test_decode_illegalCF :
    decode 0b1100_0000000000000000000000000000#32 = .ok (.illegalCF 0xC0000000#32) ∧
    decode 0b1111_1111111111111111111111111111#32 = .ok (.illegalCF 0xFFFFFFFF#32) := by decide
theorem test_decode_rejects :
    decode 0x10000001#32 = .error (.operandNotZero 0x10000001#32) ∧
    decode 0x3FFFFFFF#32 = .error (.operandNotZero 0x3FFFFFFF#32) ∧
    decode 0x80000100#32 = .error (.operandNotZero 0x80000100#32) := by decide
theorem test_decodeTableWord :
    decodeTableWord 32 0x2FFFFFFF = some (.encSym 268435455#28) ∧ decodeTableWord 32 0x90000001 = none := by decide

/-- 20_memory.md R66: lane `i` carries bits `[8i+7:8i]`. -/
theorem test_byteLane : (List.range 4).map (byteLane 0x4C5A5701#32) = [0x01#8, 0x57#8, 0x5A#8, 0x4C#8] := by decide

/-- 30_encoding.md R107 and the first row of V-E1. -/
theorem test_assemble :
    assemble (.cmd "ENC_SYM" (some 300)) = some 0x2000012C#32 ∧
    assemble (.cmd "ENC_SYM" none) = none ∧ assemble (.cmd "NOP" (some 0)) = none ∧
    assemble (.word 0xA0000000) = some 0xA0000000#32 := by decide

/-- 30_encoding.md R108 on a 2 × 2 buffer: rows outer, columns inner; and the empty sequences. -/
theorem test_pseudo :
    Pseudo.encImage 2 2 (fun r c => BitVec.ofNat 28 (10 * r + c)) =
      [.encStart, .encSym 0, .encSym 1, .encSym 10, .encSym 11, .encEnd] ∧
    Pseudo.encSeq [] = [.encStart, .encEnd] ∧ Pseudo.decSeq [] = [.decStart, .decEnd] := by decide

/-! ### One step of each command -/

/-- V-B2. -/
theorem test_nop : next? (exec .nop State.reset) = some State.reset := by decide

/-- 40_dispatch.md R133, example. -/
theorem test_blkClear : seen (exec .blkClear illegalBlk) (fun t => (register 2 t, register 3 t)) = some (0, 0) := by
  decide

/-- P5, line 3. -/
theorem test_illegalAB :
    seen (exec (.illegalAB 0xA0000000) (blank 258)) (fun t => (register 2 t, register 3 t)) =
      some (1, 0xA0000000) := by decide

/-- V-B9, second word: only the first is recorded. -/
theorem test_illegalAB_second :
    seen (exec (.illegalAB 0xB1234567) { illegalBlk with blk := { illegal := true, illegalWord := 0xF0000000 } })
      (register 3) = some 0xF0000000 := by decide

/-- V-B9, first word. -/
theorem test_illegalCF :
    seen (exec (.illegalCF 0xF0000000) (blank 258)) (fun t => (register 2 t, register 3 t)) =
      some (1, 0xF0000000) := by decide

/-- V-B3: a NOP with an operand, fetched by the next step. -/
theorem test_step_ill_formed :
    seen (step ((blank 258).withFetchWord 32 0x00000001)) (fun t => (register 2 t, register 3 t, register 4 t, t.port)) =
      some (1, 1, 0, none) := by decide

/-- V-B5 and 40_dispatch.md R133: `0x90000001` is discarded while the block is illegal. -/
theorem test_step_not_blkClear :
    seen (step (illegalBlk.withFetchWord 32 0x90000001)) (register 3) = some 0xA0000000 := by decide

/-- 41_encoder.md R152, example: from DONE. -/
theorem test_encStart :
    seen (exec .encStart (encIn 258 .done none 257 ab)) (fun t => (register 4 t, register 7 t)) =
      some (0x00000001, 256) := by decide

/-- V-E15: discarded in ERROR. -/
theorem test_encStart_in_error : seen (exec .encStart encErr) (register 4) = some 0x13 := by decide

/-- 41_encoder.md R153, example: the miss of P1, line 3. -/
theorem test_encSym_miss :
    seen (exec (.encSym 66) (encIn 258 .active (some 65) 256 []))
        (fun t => (t.encOut, t.enc.dict, register 6 t, register 7 t, register 9 t)) =
      some ([65], ab, 66, 257, 1) := by decide

/-- V-E13: DictFull at the third symbol, nothing emitted. -/
theorem test_encSym_full :
    seen (exec (.encSym 1) (encIn 257 .active (some 2) 257 [(256, { prefixCode := 1, suffixSym := 2 })]))
        (fun t => (register 4 t, register 5 t, register 7 t, t.encOut)) =
      some (0x57, 0x101, 0x101, []) := by decide

/-- 41_encoder.md R154, example. -/
theorem test_encEnd :
    seen (exec .encEnd (encIn 258 .active (some 7) 256 [])) (fun t => (t.encOut, register 4 t, register 7 t)) =
      some ([7], 0x00000002, 0x100) := by decide

/-- V-E4: SequenceError in DONE. -/
theorem test_encEnd_in_done :
    seen (exec .encEnd (encIn 258 .done none 256 [])) (fun t => (register 4 t, register 5 t)) =
      some (0x63, 0x30000000) := by decide

/-- 41_encoder.md R155, example. -/
theorem test_encClear : seen (exec .encClear encErr) (fun t => (register 4 t, register 5 t)) = some (0, 0) := by
  decide

/-- 42_decoder.md R182, example. -/
theorem test_decStart :
    seen (exec .decStart (blank 258)) (fun t => (register 0xA t, register 0xD t)) = some (0x00000001, 256) := by decide

/-- 42_decoder.md R183, example (V-D7): SELFREF. -/
theorem test_decCode_selfref :
    seen (exec (.decCode 256) (decIn 258 .active (some 0) 256 []))
        (fun t => (t.decOut, t.dec.dict, register 0xC t, register 0xD t, register 0xF t)) =
      some ([0, 0], [(256, { prefixCode := 0, suffixSym := 0 })], 256, 257, 2) := by decide

/-- V-D11: BadCode beats DictFull. -/
theorem test_decCode_bad :
    seen (exec (.decCode 300) (decIn 257 .active (some 1) 257 [(256, { prefixCode := 1, suffixSym := 2 })]))
        (fun t => (register 0xA t, register 0xB t, t.decOut)) =
      some (0x37, 0x12C, []) := by decide

/-- 42_decoder.md R184, example. -/
theorem test_decEnd :
    seen (exec .decEnd (decIn 258 .active (some 7) 256 [])) (fun t => (register 0xA t, t.decOut)) =
      some (0x00000006, []) := by decide

/-- V-D1: EmptyStream. -/
theorem test_decEnd_empty :
    seen (exec .decEnd (decIn 258 .active none 256 [])) (fun t => (register 0xA t, register 0xB t)) =
      some (0x23, 0) := by decide

/-- 42_decoder.md R185, example. -/
theorem test_decClear : seen (exec .decClear decErr) (register 0xA) = some 0x00000000 := by decide

/-! ### The register window, the sinks, the hold -/

/-- V-R1, V-R2, V-R4 and V-R5. -/
theorem test_regRead :
    regRead 0x00 32 (blank 4096) = .value 0x4C5A5701 ∧ regRead 0x04 32 (blank 4096) = .value 0x00001000 ∧
    regRead 0x02 32 (blank 4096) = .busError ∧ regRead 0x10 16 (blank 4096) = .busError := by decide

/-- V-R6. -/
theorem test_regWrite :
    seen (step (turns [.regWrite 0x10 32 0] encErr)) (fun t => (t.host.replies, register 4 t)) =
      some ([.busError], 0x13) := by decide

/-- V-E17: the second ENC_START is held while `enc_out = [1]`. -/
theorem test_held :
    seen (step (offered 0x10000000 { blank 258 with encOut := [1] })) (fun t => (t.port, register 4 t)) =
      some (some 0x10000000, 0) := by decide

/-- 20_memory.md R68 and R70: an item is one word with zeros above bit 27. -/
theorem test_encTake :
    seen (step (turns [.encTake] { blank 258 with encOut := [256, 7] })) (fun t => (t.encOut, t.host.encTaken)) =
      some ([7], [0x00000100]) := by decide

/-! ### Witnesses: for every statement with hypotheses, states and operands that meet all of them

The statement a witness belongs to is in its name. Where a statement has several clauses there is one witness for each,
at a boundary value. -/

theorem inv_encErr : Inv encErr := .of_check (by decide)

theorem inv_decErr : Inv decErr := .of_check (by decide)

theorem inv_illegalBlk : Inv illegalBlk := .of_check (by decide)

/-- A full encoder dictionary: `DICT_CAP = 257`, code 256 in use. -/
def encFull : State := encIn 257 .active (some 2) 257 [(256, { prefixCode := 1, suffixSym := 2 })]

/-- A full decoder dictionary. -/
def decFull : State := decIn 257 .active (some 1) 257 [(256, { prefixCode := 1, suffixSym := 2 })]

theorem inv_encFull : Inv encFull := .of_check (by decide)

theorem inv_decFull : Inv decFull := .of_check (by decide)

theorem witness_DecodeOfEncode :
    Instr.wellFormed (.encSym 0xFFFFFFF#28) = true ∧ Instr.wellFormed (.illegalAB 0xA0000000#32) = true ∧
    Instr.wellFormed (.illegalCF 0xFFFFFFFF#32) = true := by decide

theorem witness_DecoderReadsExactlyTheLegalWords :
    (0xA ≤ (opcodeOf 0xA0000000#32).toNat ∧ 0xA ≤ (opcodeOf 0xFFFFFFFF#32).toNat) ∧
    ((opcodeOf 0x00000001#32).toNat ∈ [0x0, 0x1, 0x3, 0x4, 0x5, 0x7, 0x8, 0x9] ∧ operandOf 0x00000001#32 ≠ 0) ∧
    ((opcodeOf 0x9FFFFFFF#32).toNat ∈ [0x0, 0x1, 0x3, 0x4, 0x5, 0x7, 0x8, 0x9] ∧ operandOf 0x9FFFFFFF#32 ≠ 0) ∧
    (¬ 0xA ≤ (opcodeOf 0x2FFFFFFF#32).toNat ∧
      ¬ ((opcodeOf 0x2FFFFFFF#32).toNat ∈ [0x0, 0x1, 0x3, 0x4, 0x5, 0x7, 0x8, 0x9] ∧ operandOf 0x2FFFFFFF#32 ≠ 0)) := by
  decide

theorem witness_OpcodeRowsDoNotOverlap :
    ((Instr.row (.encSym 0)).covers 0x2FFFFFFF#32 = true ∧ Instr.row (.encSym 0) ∈ opcodeTable) ∧
    decode 0xBFFFFFFF#32 = .ok (.illegalAB 0xBFFFFFFF#32) ∧
    decode 0x90000001#32 = .error (.operandNotZero 0x90000001#32) ∧ Instr.row .blkClear ∈ opcodeTable := by decide

theorem witness_AssemblerEmitsTheEncoding : 0x10000000 ≤ 0x10000000 := by decide

theorem witness_ResetTurnResetsTheBlock : (turns [.reset] encErr).host.turns = .reset :: [] := rfl

theorem witness_ResetMeetsTheInvariants :
    Params.wf { dictCap := 256 } ∧ Params.wf { dictCap := 0x10000000 } := by decide

theorem witness_StepKeepsTheInvariant :
    ∃ t, Inv (offered 0x20000002 encFull) ∧ step (offered 0x20000002 encFull) = .next t := by
  obtain ⟨t, h⟩ := next_of_seen (a := step (offered 0x20000002 encFull)) (by decide)
  exact ⟨t, .of_check (by decide), h⟩

/-- `Inv` holds at reset (10_state.md R26, R32 and 70_reset_and_hazards.md R261). -/
theorem reset_inv : Inv State.reset := .of_check (by decide)

theorem witness_StepFromAnInvariantStateAnswersNext : Inv decFull := inv_decFull

/-- A decoder that has consumed two codes, `[1, 2]`: one entry, as 42_decoder.md R189 says. -/
def decTwo : State :=
  { decIn 258 .active (some 2) 257 [(256, { prefixCode := 1, suffixSym := 2 })] with
    dec := { (decIn 258 .active (some 2) 257 [(256, { prefixCode := 1, suffixSym := 2 })]).dec with
      inCount := 2, outCount := 2 } }

theorem growth_decTwo : Growth decTwo :=
  ⟨⟨fun h => absurd h (by decide), fun h => absurd h (by decide)⟩, ⟨fun h => absurd h (by decide), fun _ => by decide⟩⟩

theorem witness_StepKeepsDictionaryGrowth :
    ∃ t, Inv (offered 0x60000001 decTwo) ∧ Growth (offered 0x60000001 decTwo) ∧
      step (offered 0x60000001 decTwo) = .next t := by
  obtain ⟨t, h⟩ := next_of_seen (a := step (offered 0x60000001 decTwo)) (by decide)
  exact ⟨t, .of_check (by decide), growth_decTwo, h⟩

theorem witness_CommandsTouchOnlyTheBlock :
    (∃ t, exec (.encSym 2) encFull = .next t) ∧ ∃ t, step (turns [.reset] encErr) = .next t :=
  ⟨next_of_seen (by decide), next_of_seen (by decide)⟩

theorem witness_StepRunsTheDecodedInstruction :
    ((offered 0x2FFFFFFF encErr).port = some 0x2FFFFFFF ∧ held 0x2FFFFFFF (offered 0x2FFFFFFF encErr) = false ∧
      decode 0x2FFFFFFF#32 = .ok (.encSym 0xFFFFFFF#28) ∧ (offered 0x2FFFFFFF encErr).host.turns = .block :: []) ∧
    ∃ s : State, s.port = some 0x70000000 ∧ held 0x70000000 s = false ∧ decode 0x70000000#32 = .ok .decEnd ∧
      s.host.turns = [] :=
  ⟨by decide, { blank 256 with port := some 0x70000000 }, by decide⟩

theorem witness_IllFormedWordFreezesTheBlock :
    (let s := offered 0x10000001 (blank 256);
      s.host.turns = .block :: [] ∧ s.port = some 0x10000001 ∧ held 0x10000001 s = false ∧ s.blk.illegal = false ∧
      illFormed 0x10000001 = true) ∧
    (let s := offered 0x90000001 illegalBlk;
      s.host.turns = .block :: [] ∧ s.port = some 0x90000001 ∧ held 0x90000001 s = false ∧ s.blk.illegal = true ∧
      (0x90000001#32 ≠ 0x90000000#32)) ∧
    (let s := offered 0x90000000 illegalBlk;
      s.host.turns = .block :: [] ∧ s.port = some 0x90000000 ∧ held 0x90000000 s = false) := by decide

theorem witness_StartAndClearWaitForTheirStream :
    ((offered 0x10000000 { encErr with encOut := [0] }).encOut ≠ [] ∧
      (offered 0x40000000 { illegalBlk with encOut := [0] }).encOut ≠ [] ∧
      (offered 0x50000000 { decErr with decOut := [0] }).decOut ≠ [] ∧
      (offered 0x80000000 { illegalBlk with decOut := [0] }).decOut ≠ []) ∧
    ∃ t, step (offered 0x10000000 { encErr with decOut := [0] }) = .next t :=
  ⟨by decide, next_of_seen (by decide)⟩

theorem witness_HeldStartRunsOnceDrained :
    (let s := turns [.encTake, .encTake, .block] { blank 258 with port := some 0x10000000, encOut := [1, 256] };
      s.port = some 0x10000000#32 ∧ s.host.turns = List.replicate s.encOut.length .encTake ++ .block :: []) ∧
    (let s := offered 0x10000000 (blank 258);
      s.port = some 0x10000000#32 ∧ s.host.turns = List.replicate s.encOut.length .encTake ++ .block :: []) := by
  decide

theorem witness_OfferedWordsStayInOrder :
    (∃ t, step (offered 0x10000000 { blank 258 with encOut := [0] }) = .next t) ∧
    (∃ t, step (turns [.offer] { blank 258 with
        host := { commands := [0x10000000], turns := [], replies := [], encTaken := [], decTaken := [] } }) = .next t) ∧
    ∃ t, step (turns [.reset] { blank 258 with port := some 0x10000000 }) = .next t :=
  ⟨next_of_seen (by decide), next_of_seen (by decide), next_of_seen (by decide)⟩

theorem witness_NothingOfferedNothingDone :
    ((turns [.block] encErr).host.turns = .block :: [] ∧ (turns [.block] encErr).port = none) ∧
    (decFull.host.turns = [] ∧ decFull.host.commands = [] ∧ decFull.port = none) := by decide

theorem witness_SinksTakeTheHead :
    (∃ s : State, s.host.turns = .encTake :: [] ∧ s.encOut = 0xFFFFFFF :: []) ∧
    (∃ s : State, s.host.turns = .encTake :: [] ∧ s.encOut = []) ∧
    (∃ s : State, s.host.turns = .decTake :: [] ∧ s.decOut = 255 :: [0]) ∧
    ∃ s : State, s.host.turns = .decTake :: [] ∧ s.decOut = [] :=
  ⟨⟨turns [.encTake] { blank 258 with encOut := [0xFFFFFFF] }, by decide⟩, ⟨turns [.encTake] (blank 258), by decide⟩,
    ⟨turns [.decTake] { blank 258 with decOut := [255, 0] }, by decide⟩, ⟨turns [.decTake] (blank 258), by decide⟩⟩

theorem witness_SinkTakesCommuteWithCommands :
    (∃ t, exec (.encSym 2) { encIn 258 .active (some 1) 256 [] with encOut := [9] } = .next t) ∧
    (∃ t, exec (.decCode 256) { decIn 258 .active (some 1) 256 [] with decOut := [9] } = .next t) ∧
    ({ encIn 258 .active (some 1) 256 [] with encOut := [9] } : State).encOut ≠ [] ∧
    ({ decIn 258 .active (some 1) 256 [] with decOut := [9] } : State).decOut ≠ [] :=
  ⟨next_of_seen (by decide), next_of_seen (by decide), by decide, by decide⟩

theorem witness_RegisterAccessesReturnAndChangeNothing :
    ((turns [.regRead 0x3C 32] encErr).host.turns = .regRead 0x3C 32 :: [] ∧ (0x3C#6).toNat % 4 = 0) ∧
    ((turns [.regRead 0x3F 32] encErr).host.turns = .regRead 0x3F 32 :: [] ∧ (0x3F#6).toNat % 4 ≠ 0) ∧
    ((turns [.regRead 0x00 16] encErr).host.turns = .regRead 0x00 16 :: [] ∧ 16 ≠ 32) ∧
    (turns [.regWrite 0x3D 8 255] encErr).host.turns = .regWrite 0x3D 8 255 :: [] := by decide

theorem witness_RegistersShowTheirFields :
    (blank 256).params.wf ∧ (blank 0x10000000).params.wf ∧ ¬ (blank 0x10000001).params.wf := by decide

theorem witness_StatusRegistersShowStateAndError :
    Inv encErr ∧ encErr.enc.state = .error ∧ Inv decErr ∧ decErr.dec.state = .error ∧ Inv (blank 256) :=
  ⟨inv_encErr, rfl, inv_decErr, rfl, .of_check (by decide)⟩

theorem witness_ErrorCodesAreTheSpecs :
    (encErr.enc.toUnitCore, register 0x4 encErr) ∈
      [(encErr.enc.toUnitCore, register 0x4 encErr), (encErr.dec.toUnitCore, register 0xA encErr)] := by decide

theorem witness_NopAndBlkClear : 1#28 ≠ 0 ∧ illegalBlk.blk.illegal = true ∧ 0x90000001#32 ≠ 0x90000000#32 := by decide

theorem witness_ReservedOpcodesAreRecorded : (blank 258).blk.illegal = false ∧ illegalBlk.blk.illegal = true := by
  decide

theorem witness_IllegalFlagDiscardsAllButBlkClear : illegalBlk.blk.illegal = true ∧ Instr.encClear ≠ .blkClear := by
  decide

theorem witness_UnitInErrorDiscardsAllButClear : encErr.enc.state = .error ∧ decErr.dec.state = .error := by decide

theorem witness_UnitsAreIndependent :
    (∃ t, exec (.encSym 66) (encIn 258 .active (some 65) 256 []) = .next t ∧
      ∃ s' : State, s' ≠ encIn 258 .active (some 65) 256 [] ∧ s'.enc = (encIn 258 .active (some 65) 256 []).enc ∧
        s'.encOut = [] ∧ s'.params = { dictCap := 258 } ∧ s'.blk.illegal = false) ∧
    ∃ t, exec (.decCode 256) (decIn 258 .active (some 0) 256 []) = .next t ∧
      ∃ s' : State, s' ≠ decIn 258 .active (some 0) 256 [] ∧ s'.dec = (decIn 258 .active (some 0) 256 []).dec ∧
        s'.decOut = [] ∧ s'.params = { dictCap := 258 } ∧ s'.blk.illegal = false ∧ s'.phraseBuf = [] := by
  obtain ⟨t, h⟩ := next_of_seen (a := exec (.encSym 66) (encIn 258 .active (some 65) 256 [])) (by decide)
  obtain ⟨u, h'⟩ := next_of_seen (a := exec (.decCode 256) (decIn 258 .active (some 0) 256 [])) (by decide)
  exact ⟨⟨t, h, { decErr with enc := (encIn 258 .active (some 65) 256 []).enc }, by decide⟩,
    ⟨u, h', { encErr with dec := (decIn 258 .active (some 0) 256 []).dec }, by decide⟩⟩

theorem witness_ErrorEntryIsPrecise :
    (∃ t, exec (.encSym 1) encFull = .next t ∧ encFull.enc.state ≠ .error ∧ t.enc.state = .error) ∧
    ∃ t, exec (.decCode 2) decFull = .next t ∧ decFull.dec.state ≠ .error ∧ t.dec.state = .error := by
  have h1 : seen (exec (.encSym 1) encFull) (fun t => decide (t.enc.state = .error)) = some true := by decide
  have h2 : seen (exec (.decCode 2) decFull) (fun t => decide (t.dec.state = .error)) = some true := by decide
  obtain ⟨t, h⟩ := next_of_seen (a := exec (.encSym 1) encFull) (by decide)
  obtain ⟨u, h'⟩ := next_of_seen (a := exec (.decCode 2) decFull) (by decide)
  rw [h] at h1
  rw [h'] at h2
  exact ⟨⟨t, h, by decide, by simpa [seen, next?] using h1⟩, ⟨u, h', by decide, by simpa [seen, next?] using h2⟩⟩

theorem witness_OnlyClearOrResetLeavesAnError :
    (∃ t, step (offered 0x40000000 encErr) = .next t ∧ encErr.enc.state = .error ∧ t.enc.state ≠ .error) ∧
    (∃ t, step (turns [.reset] decErr) = .next t ∧ decErr.dec.state = .error ∧ t.dec.state ≠ .error) ∧
    ∃ t, step (offered 0x90000000 illegalBlk) = .next t ∧ illegalBlk.blk.illegal = true ∧ t.blk.illegal = false :=
  ⟨⟨_, rfl, rfl, by decide⟩, ⟨_, rfl, rfl, by decide⟩, ⟨_, rfl, rfl, rfl⟩⟩

theorem witness_FirstErrorIsKept :
    (∃ t, step (offered 0x20000100 encErr) = .next t ∧ encErr.enc.state = .error ∧ t.enc.state = .error) ∧
    (∃ t, step (offered 0x70000000 decErr) = .next t ∧ decErr.dec.state = .error ∧ t.dec.state = .error) ∧
    ∃ t, step (offered 0xF0000000 illegalBlk) = .next t ∧ illegalBlk.blk.illegal = true ∧ t.blk.illegal = true :=
  ⟨⟨_, rfl, rfl, rfl⟩, ⟨_, rfl, rfl, rfl⟩, ⟨_, rfl, rfl, rfl⟩⟩

theorem witness_CommandsOnlyAppendToTheStreams :
    (∃ t, exec .encEnd encFull = .next t) ∧ ∃ t, exec (.decCode 256) (decIn 258 .active (some 0) 256 []) = .next t :=
  ⟨next_of_seen (by decide), next_of_seen (by decide)⟩

theorem witness_EncStartOpensASession :
    ∀ s ∈ [blank 256, encFull, encIn 258 .done none 257 ab], s.blk.illegal = false ∧ s.enc.state ≠ .error := by decide

theorem witness_EncSymIsOneGreedyStep :
    (Inv (blank 256) ∧ (blank 256).blk.illegal = false ∧ (blank 256).enc.state ≠ .error ∧
      (blank 256).enc.state ≠ .active) ∧
    (Inv encFull ∧ encFull.blk.illegal = false ∧ encFull.enc.state = .active ∧ 255 < (256#28).toNat) ∧
    (Inv (encIn 256 .active none 256 []) ∧ (encIn 256 .active none 256 []).enc.wValid = false ∧ (255#28).toNat ≤ 255) ∧
    (let s := encIn 258 .active (some 65) 257 ab;
      Inv s ∧ s.enc.wValid = true ∧ s.enc.validEntry (256#28).toNat ∧
      Memory.read s.enc.dict (256#28).toNat = some { prefixCode := s.enc.wCode, suffixSym := (66#28).setWidth 8 }) ∧
    ((∀ k, encFull.enc.validEntry k →
        Memory.read encFull.enc.dict k ≠ some { prefixCode := encFull.enc.wCode, suffixSym := (1#28).setWidth 8 }) ∧
      encFull.enc.next.toNat = encFull.params.dictCap) ∧
    (let s := encIn 257 .active (some 65) 256 [];
      Inv s ∧ (∀ k, s.enc.validEntry k →
        Memory.read s.enc.dict k ≠ some { prefixCode := s.enc.wCode, suffixSym := (0#28).setWidth 8 }) ∧
      s.enc.next.toNat ≠ s.params.dictCap) := by
  refine ⟨⟨.of_check (by decide), by decide⟩, ⟨inv_encFull, by decide⟩, ⟨.of_check (by decide), by decide⟩,
    ⟨.of_check (by decide), rfl, ⟨by decide, by decide⟩, by decide⟩, ⟨?_, by decide⟩, ⟨.of_check (by decide), ?_, by decide⟩⟩
  · rintro k ⟨h1, h2⟩
    obtain rfl : k = 256 := by
      change k < 257 at h2
      omega
    decide
  · rintro k ⟨h1, h2⟩
    change k < 256 at h2
    omega

theorem witness_EncEndEmitsTheLastCode :
    ((blank 256).blk.illegal = false ∧ (blank 256).enc.state ≠ .error ∧ (blank 256).enc.state ≠ .active) ∧
    (encFull.blk.illegal = false ∧ encFull.enc.state = .active ∧ encFull.enc.wValid = true) ∧
    (let s := encIn 256 .active none 256 [];
      s.blk.illegal = false ∧ s.enc.state = .active ∧ s.enc.wValid = false) := by decide

theorem witness_EncClearReturnsToIdle :
    encErr.blk.illegal = false ∧ (∃ t, exec .encClear encErr = .next t) ∧
    (0x9#4) ∈ [0x4#4, 0x5, 0x6, 0x7, 0x8, 0x9] := ⟨rfl, next_of_seen (by decide), by decide⟩

theorem witness_DecStartOpensASession :
    ∀ s ∈ [blank 256, decFull, decIn 258 .done (some 7) 256 []], s.blk.illegal = false ∧ s.dec.state ≠ .error := by
  decide

theorem witness_DecCodeEmitsThePhrase :
    (Inv (blank 256) ∧ (blank 256).blk.illegal = false ∧ (blank 256).dec.state ≠ .error ∧
      (blank 256).dec.state ≠ .active) ∧
    (let s := decIn 256 .active none 256 [];
      Inv s ∧ s.blk.illegal = false ∧ s.dec.state = .active ∧ s.dec.havePrev = false ∧ (255#28).toNat ≤ 255 ∧
      255 < (256#28).toNat) ∧
    (Inv decFull ∧ decFull.blk.illegal = false ∧ decFull.dec.state = .active ∧ decFull.dec.havePrev = true ∧
      decFull.dec.next.toNat < (258#28).toNat ∧ (257#28).toNat ≤ decFull.dec.next.toNat ∧
      decFull.dec.next.toNat = decFull.params.dictCap) ∧
    (Inv decTwo ∧ decTwo.dec.state = .active ∧ decTwo.dec.havePrev = true ∧
      decTwo.dec.next.toNat ≠ decTwo.params.dictCap ∧ (256#28).toNat < decTwo.dec.next.toNat ∧
      (257#28).toNat = decTwo.dec.next.toNat) :=
  ⟨⟨.of_check (by decide), by decide⟩, ⟨.of_check (by decide), by decide⟩, ⟨inv_decFull, by decide⟩,
    ⟨.of_check (by decide), by decide⟩⟩

theorem witness_DecEndClosesTheSession :
    ((blank 256).blk.illegal = false ∧ (blank 256).dec.state ≠ .error ∧ (blank 256).dec.state ≠ .active) ∧
    (let s := decIn 256 .active none 256 [];
      s.blk.illegal = false ∧ s.dec.state = .active ∧ s.dec.havePrev = false) ∧
    (decFull.blk.illegal = false ∧ decFull.dec.state = .active ∧ decFull.dec.havePrev = true) := by decide

theorem witness_DecClearReturnsToIdle :
    decErr.blk.illegal = false ∧ (∃ t, exec .decClear decErr = .next t) ∧
    (0xF#4) ∈ [0xA#4, 0xB, 0xC, 0xD, 0xE, 0xF] := ⟨rfl, next_of_seen (by decide), by decide⟩

theorem witness_PhrasesFitThePhraseBuffer :
    Inv encFull ∧ encFull.enc.toUnitCore ∈ [encFull.enc.toUnitCore, encFull.dec.toUnitCore] ∧
    255 < encFull.enc.next.toNat ∧ 256 < encFull.enc.next.toNat := ⟨inv_encFull, by decide⟩

theorem witness_SequencerEmitsThePhrase : Inv decFull ∧ (256#28).toNat < decFull.dec.next.toNat :=
  ⟨inv_decFull, by decide⟩

theorem witness_EncoderPhrasesAreDistinct :
    Inv encFull ∧ encFull.enc.validEntry 256 ∧ encFull.enc.wValid = true ∧ 0 < encFull.enc.next.toNat ∧
    encFull.enc.phrase 256 = encFull.enc.phrase 256 := ⟨inv_encFull, ⟨by decide, by decide⟩, by decide⟩

theorem witness_CamHitIffPhraseIsAKey :
    Inv encFull ∧ (256#28).toNat < encFull.enc.next.toNat ∧ encFull.enc.phrase (256#28).toNat = some [1, 2] :=
  ⟨inv_encFull, by decide⟩

theorem witness_EntriesAreWrittenOnce :
    ∃ t, Inv (offered 0x60000101 decTwo) ∧ step (offered 0x60000101 decTwo) = .next t ∧
      (nextTurn (offered 0x60000101 decTwo)).1 ≠ .reset ∧
      acceptedWord (offered 0x60000101 decTwo) ≠ some 0x50000000#32 ∧
      acceptedWord (offered 0x60000101 decTwo) ≠ some 0x80000000#32 ∧
      acceptedWord (offered 0x60000101 decTwo) ≠ some 0x10000000#32 ∧
      acceptedWord (offered 0x60000101 decTwo) ≠ some 0x40000000#32 ∧
      (offered 0x60000101 decTwo).dec.validEntry 256 := by
  obtain ⟨t, h⟩ := next_of_seen (a := step (offered 0x60000101 decTwo)) (by decide)
  exact ⟨t, .of_check (by decide), h, by decide, by decide, by decide, by decide, by decide, ⟨by decide, by decide⟩⟩

theorem witness_StaleEntriesAreNeverRead :
    ∃ s s' t : State, s ≠ s' ∧ Inv s ∧ Inv s' ∧ SameButStale s s' ∧ step s = .next t := by
  obtain ⟨t, h⟩ := next_of_seen (a := step (offered 0x20000042 (encIn 258 .active (some 65) 256 []))) (by decide)
  refine ⟨offered 0x20000042 (encIn 258 .active (some 65) 256 []), offered 0x20000042 (encIn 258 .active (some 65) 256 ab),
    t, by decide, .of_check (by decide), .of_check (by decide), ⟨⟨by decide, ?_⟩, ⟨by decide, ?_⟩, by decide⟩, h⟩
  · rintro k ⟨h1, h2⟩
    change k < 256 at h2
    omega
  · rintro k ⟨h1, h2⟩
    change k < 256 at h2
    omega

theorem witness_EncoderSessionIsTheSourcesEncode :
    (Inv (blank 256) ∧ (blank 256).blk.illegal = false ∧ (blank 256).enc.state ≠ .error ∧ (blank 256).encOut = []) ∧
    (∀ x ∈ [255#28], x.toNat ≤ 255) ∧
    (Source.encode ([255#28].map (·.setWidth 8))).length ≤ (blank 256).params.dictCap - 255 ∧
    (∀ x ∈ [1#28, 2#28], x.toNat ≤ 255) ∧
    (blank 256).params.dictCap - 255 < (Source.encode ([1#28, 2#28].map (·.setWidth 8))).length :=
  ⟨⟨.of_check (by decide), by decide⟩, by simp, by decide, by simp, by decide⟩

theorem witness_DecoderSessionIsTheSourcesDecode :
    (Inv (blank 257) ∧ (blank 257).blk.illegal = false ∧ (blank 257).dec.state ≠ .error ∧ (blank 257).decOut = []) ∧
    (Source.decode 1 (([300#28].take (257 - 255)).map (·.toNat))).bad = some 300 ∧
    (Source.decode 1 (([2#28].take (257 - 255)).map (·.toNat))).bad = none ∧ [2#28].length ≤ 257 - 256 ∧
    (Source.decode 1 (([2#28, 1#28].take (257 - 255)).map (·.toNat))).bad = none ∧ 257 - 256 < [2#28, 1#28].length :=
  ⟨⟨.of_check (by decide), by decide⟩, by decide +kernel⟩

/-- V-E2: the one-symbol session `ENC_SEQ 7` ends DONE. -/
theorem witness_DecodingAnEncodedSequenceGivesItBack :
    ∃ t, Inv (blank 256) ∧ (blank 256).blk.illegal = false ∧ (blank 256).enc.state ≠ .error ∧
      (blank 256).dec.state ≠ .error ∧ (blank 256).encOut = [] ∧ [7#28] ≠ [] ∧ (∀ x ∈ [7#28], x.toNat ≤ 255) ∧
      execList (Pseudo.encSeq [7#28]) (blank 256) = .next t ∧ t.enc.state = .done := by
  have h1 : seen (execList (Pseudo.encSeq [7#28]) (blank 256)) (fun t => decide (t.enc.state = .done)) = some true := by
    decide
  obtain ⟨t, h⟩ := next_of_seen (a := execList (Pseudo.encSeq [7#28]) (blank 256)) (by decide)
  rw [h] at h1
  exact ⟨t, .of_check (by decide), by decide, by decide, by decide, by decide, by decide, by simp, h,
    by simpa [seen, next?] using h1⟩

/-- The state after one step, or the state itself. -/
def go (s : State) : State := (next? (step s)).getD s

theorem step_go {s : State} (h : (next? (step s)).isSome = true) : step s = .next (go s) := by
  obtain ⟨t, ht⟩ := next_of_seen h
  rw [go, ht]
  rfl

/-- A host with a START word on the port, further words to send, and turns. -/
def hostSends (start : Word) (words : List Word) (ts : List Turn) : State :=
  turns ts
    { blank 256 with
      port := some start
      host := { commands := words, turns := [], replies := [], encTaken := [], decTaken := [] } }

/-- `n` more steps of an encoder session with its log. -/
def encRun : Nat → SessionLog Word → State → SessionLog Word × State
  | 0, l, s => (l, s)
  | n + 1, l, s => encRun n (encLogAfter l s (go s)) (go s)

/-- None of these steps stops or follows the session's window. -/
def encRuns : Nat → SessionLog Word → State → Bool
  | 0, _, _ => true
  | n + 1, l, s => !l.closed && (next? (step s)).isSome && encRuns n (encLogAfter l s (go s)) (go s)

theorem encRun_session {s0 : State} : ∀ (n : Nat) (l : SessionLog Word) (s : State), EncSession s0 l s →
    encRuns n l s = true → EncSession s0 (encRun n l s).1 (encRun n l s).2
  | 0, _, _, h, _ => h
  | n + 1, l, s, h, hr => by
    simp only [encRuns, Bool.and_eq_true, Bool.not_eq_true'] at hr
    exact encRun_session n _ _ (.later h hr.1.1 (step_go hr.1.2)) hr.2

/-- `n` more steps of a decoder session with its log. -/
def decRun : Nat → SessionLog Symbol → State → SessionLog Symbol × State
  | 0, l, s => (l, s)
  | n + 1, l, s => decRun n (decLogAfter l s (go s)) (go s)

/-- None of these steps stops or follows the session's window. -/
def decRuns : Nat → SessionLog Symbol → State → Bool
  | 0, _, _ => true
  | n + 1, l, s => !l.closed && (next? (step s)).isSome && decRuns n (decLogAfter l s (go s)) (go s)

theorem decRun_session {s0 : State} : ∀ (n : Nat) (l : SessionLog Symbol) (s : State), DecSession s0 l s →
    decRuns n l s = true → DecSession s0 (decRun n l s).1 (decRun n l s).2
  | 0, _, _, h, _ => h
  | n + 1, l, s, h, hr => by
    simp only [decRuns, Bool.and_eq_true, Bool.not_eq_true'] at hr
    exact decRun_session n _ _ (.later h hr.1.1 (step_go hr.1.2)) hr.2

/-- `ENC_SEQ 7`, drained, then a stray ENC_END (V-E2, V-E4). -/
def encHost : State :=
  hostSends 0x10000000 [0x20000007, 0x30000000, 0x30000000]
    [.block, .offer, .block, .offer, .block, .encTake, .offer, .block]

/-- `DEC_SEQ 7`, drained, then a stray DEC_END (V-D13). -/
def decHost : State :=
  hostSends 0x50000000 [0x60000007, 0x70000000, 0x70000000]
    [.block, .offer, .block, .offer, .block, .decTake, .offer, .block]

/-- The encoder session of `encHost` after `n` more steps. -/
def encAfter (n : Nat) : SessionLog Word × State := encRun n SessionLog.new (go encHost)

/-- The decoder session of `decHost` after `n` more steps. -/
def decAfter (n : Nat) : SessionLog Symbol × State := decRun n SessionLog.new (go decHost)

theorem encAfter_session (n : Nat) (h : encRuns n SessionLog.new (go encHost) = true) :
    EncSession encHost (encAfter n).1 (encAfter n).2 :=
  encRun_session n _ _ (.opened (by decide) (step_go (by decide))) h

theorem decAfter_session (n : Nat) (h : decRuns n SessionLog.new (go decHost) = true) :
    DecSession decHost (decAfter n).1 (decAfter n).2 :=
  decRun_session n _ _ (.opened (by decide) (step_go (by decide))) h

/-- V-D13 with 00_scope.md R12: the stray DEC_END puts the unit in ERROR, but the session had ended in DONE and its output
stays valid. -/
theorem test_stray_end_leaves_the_ended_session_valid :
    (decAfter 7).2.dec.state = .error ∧ (decAfter 7).1.phase = .ended ∧ (decAfter 7).1.out = [7] ∧
      ¬ (decAfter 7).1.void ∧ (decAfter 7).1.valid := by
  simp only [SessionLog.void, SessionLog.valid, SessionLog.completed]
  decide

/-- V-E14: the second START abandons the first session, which is void (60_exceptions.md R233(c)). -/
theorem test_second_start_abandons_the_session :
    (encRun 4 SessionLog.new (go (hostSends 0x10000000 [0x20000009, 0x10000000]
      [.block, .offer, .block, .offer, .block]))).1.phase = .abandoned := by
  decide

theorem witness_SessionPhasesFollowTheUnit :
    (∀ n ∈ [0, 7], EncSession encHost (encAfter n).1 (encAfter n).2 ∧ (encAfter n).1.closed = false) ∧
    (∀ n ∈ [0, 7], DecSession decHost (decAfter n).1 (decAfter n).2 ∧ (decAfter n).1.closed = false) ∧
    (encAfter 0).1.phase = .running ∧ (encAfter 7).1.phase = .ended ∧
    (decAfter 0).1.phase = .running ∧ (decAfter 7).1.phase = .ended ∧
    (∃ s0 s l, EncSession s0 l s ∧ l.closed = false ∧ l.phase = .failed) ∧
    ∃ s0 s l, DecSession s0 l s ∧ l.closed = false ∧ l.phase = .failed := by
  refine ⟨?_, ?_, by decide, by decide, by decide, by decide,
    ⟨_, _, _, encRun_session (s0 := hostSends 0x10000000 [0x2000012C] [.block, .offer, .block]) 2 _ _
      (.opened (by decide) (step_go (by decide))) (by decide), by decide, by decide⟩,
    ⟨_, _, _, decRun_session (s0 := hostSends 0x50000000 [0x70000000] [.block, .offer, .block]) 2 _ _
      (.opened (by decide) (step_go (by decide))) (by decide), by decide, by decide⟩⟩
  · intro n hn
    rcases List.mem_pair.1 hn with rfl | rfl <;> exact ⟨encAfter_session _ (by decide), by decide⟩
  · intro n hn
    rcases List.mem_pair.1 hn with rfl | rfl <;> exact ⟨decAfter_session _ (by decide), by decide⟩

theorem witness_StreamItemsBelongToTheSession :
    (EncSession encHost (encAfter 4).1 (encAfter 4).2 ∧ (encAfter 4).1.closed = false) ∧
    DecSession decHost (decAfter 4).1 (decAfter 4).2 ∧ (decAfter 4).1.closed = false :=
  ⟨⟨encAfter_session _ (by decide), by decide⟩, decAfter_session _ (by decide), by decide⟩

/-- An ill-formed word in an open session, then BLK_CLEAR (program P5, lines 1 to 3 and 7). -/
def encSpoiled : State := hostSends 0x10000000 [0xA0000000, 0x90000000] [.block, .offer, .block, .offer, .block]

/-- The same for the decoder. -/
def decSpoiled : State := hostSends 0x50000000 [0xA0000000, 0x90000000] [.block, .offer, .block, .offer, .block]

/-- 70_reset_and_hazards.md R271: failed while `blk.illegal = 1`, not after BLK_CLEAR, and void for good (60_exceptions.md
R233(b)). -/
theorem test_illegal_fails_the_session_until_blk_clear :
    EncFailed (encRun 2 SessionLog.new (go encSpoiled)).1 (encRun 2 SessionLog.new (go encSpoiled)).2 ∧
      ¬ EncFailed (encRun 4 SessionLog.new (go encSpoiled)).1 (encRun 4 SessionLog.new (go encSpoiled)).2 ∧
      (encRun 4 SessionLog.new (go encSpoiled)).1.void := by
  simp only [EncFailed, SessionLog.void]
  decide

/-- `DEC_SEQ 7`, not drained, then a stray DEC_END. -/
def decUndrained : State :=
  hostSends 0x50000000 [0x60000007, 0x70000000, 0x70000000] [.block, .offer, .block, .offer, .block, .offer, .block]

/-- The same for the encoder. -/
def encUndrained : State :=
  hostSends 0x10000000 [0x20000007, 0x30000000, 0x30000000] [.block, .offer, .block, .offer, .block, .offer, .block]

/-- 70_reset_and_hazards.md R271 with 00_scope.md R13: the stray DEC_END leaves the unit in ERROR with the item not yet
taken, so the session, valid until then, has failed and is void. -/
theorem test_stray_end_voids_the_undrained_session :
    (decRun 4 SessionLog.new (go decUndrained)).1.valid ∧
      DecFailed (decRun 6 SessionLog.new (go decUndrained)).1 (decRun 6 SessionLog.new (go decUndrained)).2 ∧
      (decRun 6 SessionLog.new (go decUndrained)).1.void ∧ ¬ (decRun 6 SessionLog.new (go decUndrained)).1.valid := by
  simp only [DecFailed, SessionLog.valid, SessionLog.void, SessionLog.completed]
  decide

/-- 90_conflicts.md C12: so is a session that reset closes before its stream is drained. -/
theorem test_reset_voids_the_undrained_session :
    (encRun 5 SessionLog.new (go (hostSends 0x10000000 [0x20000007, 0x30000000]
      [.block, .offer, .block, .offer, .block, .reset]))).1.void := by
  simp only [SessionLog.void]
  decide

theorem witness_FailedSessionsStayFailedAndNeverEndWell :
    (∃ s0 s l, EncSession s0 l s ∧ EncFailed l s ∧ l.phase = .failed ∧ s.enc.state = .error ∧ ∃ t, step s = .next t) ∧
    (∃ s0 s l, EncSession s0 l s ∧ EncFailed l s ∧ s.blk.illegal = true ∧ l.clean = false ∧ ∃ t, step s = .next t) ∧
    (∃ s0 s l, DecSession s0 l s ∧ DecFailed l s ∧ l.phase = .failed ∧ s.dec.state = .error ∧ ∃ t, step s = .next t) ∧
    ∃ s0 s l, DecSession s0 l s ∧ DecFailed l s ∧ s.blk.illegal = true ∧ l.clean = false ∧ ∃ t, step s = .next t := by
  simp only [EncFailed, DecFailed]
  exact ⟨⟨_, _, _, encRun_session (s0 := hostSends 0x10000000 [0x2000012C] [.block, .offer, .block]) 2 _ _
      (.opened (by decide) (step_go (by decide))) (by decide), by decide, by decide,
      by decide, next_of_seen (by decide)⟩,
    ⟨_, _, _, encRun_session (s0 := encSpoiled) 2 _ _ (.opened (by decide) (step_go (by decide))) (by decide), by decide,
      by decide, by decide, next_of_seen (by decide)⟩,
    ⟨_, _, _, decRun_session (s0 := hostSends 0x50000000 [0x70000000] [.block, .offer, .block]) 2 _ _
      (.opened (by decide) (step_go (by decide))) (by decide), by decide, by decide,
      by decide, next_of_seen (by decide)⟩,
    ⟨_, _, _, decRun_session (s0 := decSpoiled) 2 _ _ (.opened (by decide) (step_go (by decide))) (by decide), by decide,
      by decide, by decide, next_of_seen (by decide)⟩⟩

/-- Two witnesses for each unit: a session that has ended well, and one the next step makes void. -/
theorem witness_NothingAfterItsEndChangesASession :
    (EncSession encHost (encAfter 6).1 (encAfter 6).2 ∧ (encAfter 6).1.phase = .ended ∧
      (encAfter 6).1.closed = false ∧ step (encAfter 6).2 = .next (go (encAfter 6).2) ∧ (encAfter 6).1.well = true) ∧
    (DecSession decHost (decAfter 6).1 (decAfter 6).2 ∧ (decAfter 6).1.phase = .ended ∧
      (decAfter 6).1.closed = false ∧ step (decAfter 6).2 = .next (go (decAfter 6).2) ∧ (decAfter 6).1.well = true) ∧
    (∃ s0 s t l, EncSession s0 l s ∧ l.phase = .ended ∧ l.closed = false ∧ step s = .next t ∧
      ¬ l.void ∧ (encLogAfter l s t).void) ∧
    ∃ s0 s t l, DecSession s0 l s ∧ l.phase = .ended ∧ l.closed = false ∧ step s = .next t ∧
      ¬ l.void ∧ (decLogAfter l s t).void := by
  simp only [SessionLog.void]
  exact ⟨⟨encAfter_session _ (by decide), by decide, by decide, step_go (by decide), by decide⟩,
    ⟨decAfter_session _ (by decide), by decide, by decide, step_go (by decide), by decide⟩,
    ⟨_, _, _, _, encRun_session (s0 := encUndrained) 5 _ _ (.opened (by decide) (step_go (by decide))) (by decide),
      by decide, by decide, step_go (by decide), by decide, by decide⟩,
    ⟨_, _, _, _, decRun_session (s0 := decUndrained) 5 _ _ (.opened (by decide) (step_go (by decide))) (by decide),
      by decide, by decide, step_go (by decide), by decide, by decide⟩⟩

theorem witness_ASessionThatDoesNotEndWellIsVoid :
    (∃ s0 s l, EncSession s0 l s ∧ l.void ∧ l.phase = .ended ∧ l.closed = false ∧ ∃ t, step s = .next t) ∧
    (∃ s0 s l, EncSession s0 l s ∧ l.closed = true) ∧
    (∃ s0 s l, DecSession s0 l s ∧ l.void ∧ l.phase = .ended ∧ l.closed = false ∧ ∃ t, step s = .next t) ∧
    ∃ s0 s l, DecSession s0 l s ∧ l.closed = true := by
  simp only [SessionLog.void]
  exact ⟨⟨_, _, _, encRun_session (s0 := encUndrained) 6 _ _ (.opened (by decide) (step_go (by decide))) (by decide),
      by decide, by decide, by decide, next_of_seen (by decide)⟩,
    ⟨_, _, _, encRun_session (s0 := hostSends 0x10000000 [] [.block, .reset]) 1 _ _
      (.opened (by decide) (step_go (by decide))) (by decide), by decide⟩,
    ⟨_, _, _, decRun_session (s0 := decUndrained) 6 _ _ (.opened (by decide) (step_go (by decide))) (by decide),
      by decide, by decide, by decide, next_of_seen (by decide)⟩,
    ⟨_, _, _, decRun_session (s0 := hostSends 0x50000000 [] [.block, .reset]) 1 _ _
      (.opened (by decide) (step_go (by decide))) (by decide), by decide⟩⟩

theorem witness_EndedWellIsNeverVoid :
    (EncSession encHost (encAfter 5).1 (encAfter 5).2 ∧ EncEndedWell (encAfter 5).1 (encAfter 5).2 ∧
      (encAfter 5).1.well = true) ∧
    DecSession decHost (decAfter 5).1 (decAfter 5).2 ∧ DecEndedWell (decAfter 5).1 (decAfter 5).2 ∧
      (decAfter 5).1.well = true :=
  ⟨⟨encAfter_session _ (by decide), ⟨by decide, by decide, by decide, by decide⟩, by decide⟩,
    decAfter_session _ (by decide), ⟨by decide, by decide, by decide, by decide⟩, by decide⟩

theorem witness_ValidEncoderOutputIsRight :
    Inv encHost ∧ EncSession encHost (encAfter 7).1 (encAfter 7).2 ∧ (encAfter 7).1.completed :=
  ⟨.of_check (by decide), encAfter_session _ (by decide), by decide, by decide⟩

theorem witness_ValidDecoderOutputIsRight :
    Inv decHost ∧ DecSession decHost (decAfter 7).1 (decAfter 7).2 ∧ (decAfter 7).1.completed :=
  ⟨.of_check (by decide), decAfter_session _ (by decide), by decide, by decide⟩

theorem witness_EncoderSessionThatEndedWellIsRight :
    Inv encHost ∧ EncSession encHost (encAfter 7).1 (encAfter 7).2 ∧ (encAfter 7).1.well = true :=
  ⟨.of_check (by decide), encAfter_session _ (by decide), by decide⟩

theorem witness_DecoderSessionThatEndedWellIsRight :
    Inv decHost ∧ DecSession decHost (decAfter 7).1 (decAfter 7).2 ∧ (decAfter 7).1.well = true :=
  ⟨.of_check (by decide), decAfter_session _ (by decide), by decide⟩

end Sys2Proof.Tests
end

section
/-! The log of a session, for either unit at once (spec/00_scope.md R12, R13; spec/70_reset_and_hazards.md R271): what
the log sees of a unit, how a step can change that, and the invariant that ties the log to it along every run. -/

namespace Sys2Proof.Machine

/-! ### What a session's log sees of its unit -/

/-- The part of a state that one unit's session log is computed from: the unit's state, `blk.illegal` and the unit's
stream. -/
structure UnitView (α : Type) where
  state : SessionState
  illegal : Bool
  out : List α

/-- What the encoder's session log sees, the codes as the words the sink takes (20_memory.md R68). -/
def State.encSeen (s : State) : UnitView Word := ⟨s.enc.state, s.blk.illegal, s.encOut.map zext32⟩

/-- What the decoder's session log sees. -/
def State.decSeen (s : State) : UnitView Symbol := ⟨s.dec.state, s.blk.illegal, s.decOut⟩

/-- The log after an event that takes the unit from `v` to `v'`. -/
def SessionLog.step {α : Type} (l : SessionLog α) (ev : SessionEvent) (v v' : UnitView α) : SessionLog α :=
  l.after ev (v'.out.drop v.out.length) (v.out.take 1) v'.state v'.illegal v'.out.isEmpty

theorem encLogAfter_eq_step (l : SessionLog Word) (s t : State) :
    encLogAfter l s t = l.step (encEvent s) s.encSeen t.encSeen := by
  simp [encLogAfter, SessionLog.step, State.encSeen, List.map_drop, List.map_take]

theorem decLogAfter_eq_step (l : SessionLog Symbol) (s t : State) :
    decLogAfter l s t = l.step (decEvent s) s.decSeen t.decSeen := rfl

/-- How a step can change what a unit's session log sees; `reset` says that the step is a reset. -/
inductive UnitMove {α : Type} (reset : Prop) (ev : SessionEvent) (v v' : UnitView α) : Prop
  | other : ev = .other → v'.out = v.out → (v'.state = v.state ∨ v'.state = .error) → UnitMove reset ev v v'
  | take : ev = .take → v'.out = v.out.tail → v'.state = v.state → UnitMove reset ev v v'
  | item (x : Operand) : ev = .item x → v.state = .active → (v'.state = .active ∨ v'.state = .error) →
      UnitMove reset ev v v'
  | completes : ev = .completes → v.state = .active → v'.state = .done → UnitMove reset ev v v'
  | opens : ev = .opens → v.out = [] → v'.out = [] → v'.state = .active → v'.illegal = false → UnitMove reset ev v v'
  | clears : ev = .clears → (reset ∨ v.out = []) → v'.out = [] → v'.state = .idle → UnitMove reset ev v v'

/-! ### The encoder's moves -/

theorem not_held_of_accepted {s : State} {w : Word} (h : acceptedWord s = some w) : held w s = false := by
  unfold acceptedWord at h
  split at h
  · split at h <;> simp_all
  · cases h

theorem encEvent_clears {s : State} (h : encEvent s = .clears) :
    (nextTurn s).1 = .reset ∨ acceptedWord s = some 0x40000000#32 := by
  unfold encEvent at h
  split at h
  · exact .inl ‹_›
  · cases h
  · split at h
    · cases h
    · rename_i w ha
      generalize decode w = r at h
      split_ifs at h with hb hw he ho hs
      · exact .inr (by rw [ha, hw])
      · rcases r with _ | i
        · cases h
        · cases i <;> cases h

/-- An ENC_SYM in an ACTIVE encoder leaves it ACTIVE or raises (41_encoder.md R153). -/
theorem encSym_state {x : Operand} {s t : State} (ha : s.enc.state = .active) (h : exec (.encSym x) s = .next t) :
    t.enc.state = .active ∨ t.enc.state = .error := by
  cases exec_effect h with
  | kept => exact .inl ha
  | recorded _ _ _ hi => simp at hi
  | enc _ he => cases he <;> simp_all
  | dec _ he => exact .inl ha

/-- An ENC_END in an ACTIVE encoder of a legal block leaves it DONE (41_encoder.md R154). -/
theorem encEnd_state {s t : State} (ha : s.enc.state = .active) (hb : s.blk.illegal = false)
    (h : exec .encEnd s = .next t) : t.enc.state = .done := by
  have hx : execEncEnd s = .next t := h
  rw [execEncEnd, unlessEncDiscards_false hb (by rw [ha]; decide), if_pos ha] at hx
  cases hx
  rfl

theorem step_encMove {s t : State} (h : step s = .next t) :
    UnitMove ((nextTurn s).1 = .reset) (encEvent s) s.encSeen t.encSeen := by
  cases step_encView h with
  | other hev hout hs =>
    exact .other hev (congrArg (·.map zext32) hout) (hs.imp (fun h => congrArg (·.state) h) And.left)
  | take hev hout hs => exact .take hev (by simp [State.encSeen, hout]) (congrArg (·.state) hs)
  | item x hev ha _ hx => exact .item x hev ha (encSym_state (s := s.accepting) ha hx)
  | completes hev ha hb hx => exact .completes hev ha (encEnd_state (s := s.accepting) ha hb hx)
  | opens hev hout hout' hs _ _ hb =>
    exact .opens hev (by simp [State.encSeen, hout]) (by simp [State.encSeen, hout']) hs hb
  | clears hev hout hs _ =>
    refine .clears hev ((encEvent_clears hev).imp_right fun hw => ?_) (by simp [State.encSeen, hout]) hs
    simp [State.encSeen, encOut_of_not_held (.inr rfl) (not_held_of_accepted hw)]

/-! ### The decoder's moves -/

theorem decEvent_clears {s : State} (h : decEvent s = .clears) :
    (nextTurn s).1 = .reset ∨ acceptedWord s = some 0x80000000#32 := by
  unfold decEvent at h
  split at h
  · exact .inl ‹_›
  · cases h
  · split at h
    · cases h
    · rename_i w ha
      generalize decode w = r at h
      split_ifs at h with hb hw he ho hs hp
      · exact .inr (by rw [ha, hw])
      all_goals
        rcases r with _ | i
        · cases h
        · cases i <;> cases h

/-- A DEC_CODE in an ACTIVE decoder leaves it ACTIVE or raises (42_decoder.md R183). -/
theorem decCode_state {k : Operand} {s t : State} (ha : s.dec.state = .active) (h : exec (.decCode k) s = .next t) :
    t.dec.state = .active ∨ t.dec.state = .error := by
  cases exec_effect h with
  | kept => exact .inl ha
  | recorded _ _ _ hi => simp at hi
  | enc _ he => exact .inl ha
  | dec _ he => cases he <;> simp_all

/-- A DEC_END in an ACTIVE decoder of a legal block that has consumed a code leaves it DONE (42_decoder.md R184). -/
theorem decEnd_state {s t : State} (ha : s.dec.state = .active) (hp : s.dec.havePrev = true)
    (hb : s.blk.illegal = false) (h : exec .decEnd s = .next t) : t.dec.state = .done := by
  have hx : execDecEnd s = .next t := h
  rw [execDecEnd, unlessDecDiscards_false hb (by rw [ha]; decide), if_pos ha, if_pos hp] at hx
  cases hx
  rfl

theorem step_decMove {s t : State} (h : step s = .next t) :
    UnitMove ((nextTurn s).1 = .reset) (decEvent s) s.decSeen t.decSeen := by
  cases step_decView h with
  | other hev hout hs => exact .other hev hout (hs.imp (fun h => congrArg (·.state) h) And.left)
  | take hev hout hs => exact .take hev hout (congrArg (·.state) hs)
  | item k hev ha _ hx => exact .item k hev ha (decCode_state (s := s.accepting) ha hx)
  | completes hev ha hp hb hx => exact .completes hev ha (decEnd_state (s := s.accepting) ha hp hb hx)
  | opens hev hout hout' hs _ _ hb => exact .opens hev hout hout' hs hb
  | clears hev hout hs _ =>
    exact .clears hev ((decEvent_clears hev).imp_right fun hw =>
      decOut_of_not_held (.inr rfl) (not_held_of_accepted hw)) hout hs

/-! ### The log after a step -/

section
variable {α : Type} {l : SessionLog α} {ev : SessionEvent} {v v' : UnitView α} {r : Prop}

@[simp] theorem SessionLog.step_phase : (l.step ev v v').phase = l.phase.after ev v'.state := rfl

@[simp] theorem SessionLog.step_out : (l.step ev v v').out = l.out ++ v'.out.drop v.out.length := rfl

theorem SessionLog.step_ins (h : ∀ x, ev ≠ .item x) : (l.step ev v v').ins = l.ins := by
  cases ev with
  | item x => exact absurd rfl (h x)
  | _ => rfl

@[simp] theorem SessionLog.step_closed :
    (l.step ev v v').closed = true ↔ l.closed = true ∨ ev = .opens ∨ ev = .clears := by
  simp [SessionLog.step, SessionLog.after, or_assoc]

@[simp] theorem SessionLog.step_clean :
    (l.step ev v v').clean = true ↔ l.clean = true ∧ v'.illegal = false := by
  simp [SessionLog.step, SessionLog.after]

@[simp] theorem SessionLog.step_open :
    (l.step ev v v').closed = false ↔ l.closed = false ∧ ev ≠ .opens ∧ ev ≠ .clears := by
  simp [SessionLog.step, SessionLog.after, and_assoc]

@[simp] theorem SessionLog.step_unclean :
    (l.step ev v v').clean = false ↔ l.clean = false ∨ v'.illegal = true := by
  rw [← Bool.not_eq_true, step_clean, not_and_or, Bool.not_eq_true, Bool.not_eq_false]

@[simp] theorem SessionLog.step_spoiled :
    (l.step ev v v').spoiled = true ↔ l.spoiled = true ∨ v'.illegal = true ∧ v'.state = .active := by
  simp [SessionLog.step, SessionLog.after]

@[simp] theorem SessionLog.step_well :
    (l.step ev v v').well = true ↔ l.well = true ∨ (l.phase.after ev v'.state = .ended ∧ v'.state = .done ∧
      (l.clean = true ∧ v'.illegal = false) ∧ v'.out = []) := by
  simp [SessionLog.step, SessionLog.after, and_assoc]

@[simp] theorem SessionLog.step_everFailed :
    (l.step ev v v').everFailed = true ↔ l.everFailed = true ∨
      (l.step ev v v').well = false ∧ (v'.state = .error ∨ v'.illegal = true) := by
  have h : (l.step ev v v').everFailed =
      (l.everFailed || (!(l.step ev v v').well && (v'.state == .error || v'.illegal))) := rfl
  simp [h, -step_well]

/-- A session that has ended well has ended well from then on (70_reset_and_hazards.md R271). -/
theorem SessionLog.well_step (h : l.well = true) : (l.step ev v v').well = true := step_well.2 (.inl h)

/-- A void session stays void, whatever comes (60_exceptions.md R233). -/
theorem SessionLog.void_step (ho : l.closed = false) (h : l.void) : (l.step ev v v').void := by
  rcases h with h | h | h | h | ⟨h, -⟩
  · exact .inl (by rw [step_phase, SessionPhase.after_of_ne (by simp [h]), h])
  · exact .inr (.inl (step_spoiled.2 (.inl h)))
  · exact .inr (.inr (.inl (by rw [step_phase, SessionPhase.after_of_ne (by simp [h]), h])))
  · exact .inr (.inr (.inr (.inl (step_everFailed.2 (.inl h)))))
  · rw [ho] at h; cases h

/-! ### Moves of a unit -/

/-- The unit states in which an open session can be in a phase (00_scope.md R12, 10_state.md R23). -/
def SessionPhase.Fits : SessionPhase → SessionState → Prop
  | .running, u => u = .active
  | .failed, u => u = .error
  | .ended, u => u = .done ∨ u = .error
  | .abandoned, _ => False

theorem SessionPhase.Fits.running_iff {p : SessionPhase} {u : SessionState} (h : p.Fits u) :
    p = .running ↔ u = .active := by
  cases p with
  | running => exact iff_of_true rfl h
  | failed => simp [show u = .error from h]
  | ended => rcases h with rfl | rfl <;> decide
  | abandoned => exact h.elim

theorem SessionPhase.Fits.ne_abandoned {p : SessionPhase} {u : SessionState} (h : p.Fits u) : p ≠ .abandoned := by
  rintro rfl
  exact h

/-- A unit that is not ACTIVE keeps its state or raises, unless the event closes a session. -/
theorem UnitMove.kept_or_error (h : UnitMove r ev v v') (ha : v.state ≠ .active) (ho : ev ≠ .opens)
    (hc : ev ≠ .clears) : v'.state = v.state ∨ v'.state = .error := by
  cases h with
  | other _ _ hs => exact hs
  | take _ _ hs => exact .inl hs
  | item _ _ h => exact absurd h ha
  | completes _ h => exact absurd h ha
  | opens h => exact absurd h ho
  | clears h => exact absurd h hc

/-- A step that closes no session keeps its phase fitting its unit's state. -/
theorem UnitMove.phase_fits {p : SessionPhase} (h : UnitMove r ev v v') (hp : p.Fits v.state) (ho : ev ≠ .opens)
    (hc : ev ≠ .clears) : (p.after ev v'.state).Fits v'.state := by
  by_cases hr : p = .running
  · subst hr
    have ha : v.state = .active := hp
    cases h with
    | other hev _ hs => rcases hs with hs | hs <;> simp [hev, hs, ha, SessionPhase.after, SessionPhase.Fits]
    | take hev _ hs => simp [hev, hs, ha, SessionPhase.after, SessionPhase.Fits]
    | item x hev _ hs => rcases hs with hs | hs <;> simp [hev, hs, SessionPhase.after, SessionPhase.Fits]
    | completes hev _ hs => simp [hev, hs, SessionPhase.after, SessionPhase.Fits]
    | opens h => exact absurd h ho
    | clears h => exact absurd h hc
  · rw [SessionPhase.after_of_ne hr]
    rcases h.kept_or_error (mt hp.running_iff.2 hr) ho hc with hs | hs
    · rwa [hs]
    · rw [hs]
      cases p <;> simp_all [SessionPhase.Fits]

/-- A unit leaves ERROR only to IDLE or ACTIVE, and only by an event that closes a session (60_exceptions.md R231). -/
theorem UnitMove.error_kept (h : UnitMove r ev v v') (he : v.state = .error) :
    v'.state = .error ∨ (ev = .opens ∨ ev = .clears) ∧ v'.state ≠ .done := by
  cases h with
  | other _ _ hs => exact .inl (hs.elim (·.trans he) id)
  | take _ _ hs => exact .inl (hs.trans he)
  | item x _ ha => rw [he] at ha; cases ha
  | completes _ ha => rw [he] at ha; cases ha
  | opens hev _ _ hs => exact .inr ⟨.inl hev, by rw [hs]; decide⟩
  | clears hev _ _ hs => exact .inr ⟨.inr hev, by rw [hs]; decide⟩

/-- START and CLEAR wait for the stream to be drained (70_reset_and_hazards.md R265). -/
theorem UnitMove.closing_drained (h : UnitMove r ev v v') (hev : ev = .opens ∨ ev = .clears) : r ∨ v.out = [] := by
  cases h with
  | opens _ hout => exact .inr hout
  | clears _ hout => exact hout
  | _ => simp_all

/-- A unit that is not ACTIVE performs no item, appends nothing, and becomes ACTIVE only in a legal block. -/
theorem UnitMove.outside (h : UnitMove r ev v v') (ha : v.state ≠ .active) :
    (∀ x, ev ≠ .item x) ∧ v'.out.drop v.out.length = [] ∧ ¬ (v'.illegal = true ∧ v'.state = .active) := by
  cases h with
  | other hev hout hs => exact ⟨by simp [hev], by simp [hout], fun h => by rcases hs with hs | hs <;> simp_all⟩
  | take hev hout hs => exact ⟨by simp [hev], by simp [hout], fun h => ha (hs ▸ h.2)⟩
  | item x _ h => exact absurd h ha
  | completes _ h => exact absurd h ha
  | opens hev _ hout _ hb => exact ⟨by simp [hev], by simp [hout], by simp [hb]⟩
  | clears hev _ hout hs => exact ⟨by simp [hev], by simp [hout], by simp [hs]⟩

/-! ### The invariant of a session's log -/

/-- What holds of a session's log and its unit after every step of a run. -/
structure SessionLog.Inv (l : SessionLog α) (v : UnitView α) : Prop where
  phase_fits : l.closed = false → l.phase.Fits v.state
  legal : l.clean = true → v.illegal = false
  spoiled_unclean : l.spoiled = true → l.clean = false
  /-- R271's failed, read off the unit or remembered by `clean`. -/
  failed_iff : l.closed = false → l.well = false → (l.everFailed = true ↔ v.state = .error ∨ l.clean = false)
  ended_well : l.phase = .ended → v.state = .done → l.clean = true → v.out = [] → l.well = true
  well_valid : l.well = true → l.valid

/-- A session that has just been opened, in an ACTIVE unit of a legal block. -/
theorem SessionLog.inv_new (hs : v.state = .active) (hb : v.illegal = false) :
    (SessionLog.new : SessionLog α).Inv v where
  phase_fits _ := hs
  legal _ := hb
  spoiled_unclean h := by cases h
  failed_iff _ _ := by simp [SessionLog.new, hs]
  ended_well h := by cases h
  well_valid h := by cases h

/-- The valid output of a session that has ended well (60_exceptions.md R233). -/
theorem SessionLog.valid_of_well (hw : l.well = true) :
    l.valid ↔ l.phase = .ended ∧ l.spoiled = false ∧ l.everFailed = false := by
  simp only [valid, completed, void, hw]
  constructor
  · simp_all
  · rintro ⟨h1, h2, h3⟩
    simp [h1, h2, h3]

/-- A step from a unit that is not ACTIVE does not spoil the session (60_exceptions.md R233(b)). -/
theorem UnitMove.spoiled_kept (h : UnitMove r ev v v') (ha : v.state ≠ .active) :
    (l.step ev v v').spoiled = l.spoiled := by
  rw [Bool.eq_iff_iff, SessionLog.step_spoiled, or_iff_left (h.outside ha).2.2]

/-- An ended session's unit is not ACTIVE until a START closes the session. -/
theorem SessionLog.Inv.not_active_of_ended (hi : l.Inv v) (ho : l.closed = false) (hp : l.phase = .ended) :
    v.state ≠ .active :=
  mt (hi.phase_fits ho).running_iff.2 (by simp [hp])

theorem SessionLog.Inv.error_of_failed (hi : l.Inv v) (ho : l.closed = false) (hp : l.phase = .failed) :
    v.state = .error := by
  simpa [hp, SessionPhase.Fits] using hi.phase_fits ho

theorem SessionLog.Inv.done_or_error_of_ended (hi : l.Inv v) (ho : l.closed = false) (hp : l.phase = .ended) :
    v.state = .done ∨ v.state = .error := by
  simpa [hp, SessionPhase.Fits] using hi.phase_fits ho

/-- A session that ends well in this step has not failed before: no step leads from ERROR to DONE. -/
theorem SessionLog.Inv.not_failed_of_done (hi : l.Inv v) (hm : UnitMove r ev v v') (ho : l.closed = false)
    (hw : l.well = false) (hc : l.clean = true) (hd : v'.state = .done) : l.everFailed = false := by
  by_contra hf
  rcases (hi.failed_iff ho hw).1 (by simpa using hf) with he | he
  · rcases hm.error_kept he with h | ⟨-, h⟩
    · rw [hd] at h; cases h
    · exact h hd
  · rw [hc] at he; cases he

theorem SessionLog.Inv.spoiled_unclean_step (hi : l.Inv v) (hs : (l.step ev v v').spoiled = true) :
    (l.step ev v v').clean = false :=
  step_unclean.2 ((step_spoiled.1 hs).imp hi.spoiled_unclean And.left)

theorem SessionLog.Inv.well_valid_step (hi : l.Inv v) (hm : UnitMove r ev v v') (ho : l.closed = false)
    (hw' : (l.step ev v v').well = true) : (l.step ev v v').valid := by
  rw [valid_of_well hw']
  have hf : (l.step ev v v').everFailed = l.everFailed := by
    rw [Bool.eq_iff_iff, step_everFailed, hw']
    simp
  rw [hf]
  cases hw : l.well
  case true =>
    obtain ⟨hp, hs, hf⟩ := (valid_of_well hw).1 (hi.well_valid hw)
    exact ⟨by simp [hp, SessionPhase.after], (hm.spoiled_kept (hi.not_active_of_ended ho hp)).trans hs, hf⟩
  case false =>
    obtain ⟨hp, hd, hc, -⟩ := (step_well.1 hw').resolve_left (by simp [hw])
    refine ⟨hp, Bool.eq_false_iff.2 fun hs => ?_, hi.not_failed_of_done hm ho hw hc.1 hd⟩
    have := hi.spoiled_unclean_step hs
    rw [step_clean.2 hc] at this
    cases this

theorem SessionLog.Inv.step (hi : l.Inv v) (hm : UnitMove r ev v v') (ho : l.closed = false) :
    (l.step ev v v').Inv v' where
  phase_fits hc' := hm.phase_fits (hi.phase_fits ho) (step_open.1 hc').2.1 (step_open.1 hc').2.2
  legal hc := (step_clean.1 hc).2
  spoiled_unclean := hi.spoiled_unclean_step
  failed_iff hc' hw' := by
    have hw : l.well = false := Bool.eq_false_iff.2 fun hw => by simp [well_step hw] at hw'
    have he : v.state = .error → v'.state = .error := fun he =>
      (hm.error_kept he).resolve_right fun h => h.1.elim (step_open.1 hc').2.1 (step_open.1 hc').2.2
    rw [step_everFailed, hi.failed_iff ho hw, step_unclean]
    simp only [hw', true_and]
    tauto
  ended_well hp hd hc hout := step_well.2 (.inr ⟨hp, hd, step_clean.1 hc, hout⟩)
  well_valid := hi.well_valid_step hm ho

/-! ### What the invariant says of void sessions -/

theorem SessionLog.Inv.void_unwell (hi : l.Inv v) (h : l.void) : l.well = false :=
  Bool.eq_false_iff.2 fun hw => (hi.well_valid hw).2 h

theorem SessionLog.Inv.void_iff_of_closed (hi : l.Inv v) (hc : l.closed = true) : l.void ↔ l.well = false :=
  ⟨hi.void_unwell, fun hw => .inr (.inr (.inr (.inr ⟨hc, hw⟩)))⟩

/-- An open session that has not ended well is void exactly when it has failed. -/
theorem SessionLog.Inv.void_iff_of_open (hi : l.Inv v) (ho : l.closed = false) (hw : l.well = false) :
    l.void ↔ v.state = .error ∨ l.clean = false := by
  constructor
  · rintro (h | h | h | h | ⟨h, -⟩)
    · exact .inl (hi.error_of_failed ho h)
    · exact .inr (hi.spoiled_unclean h)
    · exact absurd h (hi.phase_fits ho).ne_abandoned
    · exact (hi.failed_iff ho hw).1 h
    · rw [ho] at h; cases h
  · exact fun h => .inr (.inr (.inr (.inl ((hi.failed_iff ho hw).2 h))))

/-- An open session that is not void and has not ended well runs, or waits in DONE to be drained (log entry 21). -/
theorem SessionLog.Inv.waits (hi : l.Inv v) (ho : l.closed = false) (hw : l.well = false) (hv : ¬ l.void) :
    (l.phase = .running ∧ v.state = .active ∧ v.illegal = false) ∨
      (l.valid ∧ v.state = .done ∧ v.illegal = false ∧ v.out ≠ []) := by
  have hf : ¬ (v.state = .error ∨ l.clean = false) := fun h => hv ((hi.void_iff_of_open ho hw).2 h)
  obtain ⟨hs, hc⟩ : v.state ≠ .error ∧ l.clean = true := by simpa using hf
  cases hp : l.phase with
  | running => exact .inl ⟨rfl, (hi.phase_fits ho).running_iff.1 hp, hi.legal hc⟩
  | failed => exact absurd (hi.error_of_failed ho hp) hs
  | abandoned => exact absurd hp (hi.phase_fits ho).ne_abandoned
  | ended =>
    have hd : v.state = .done := (hi.done_or_error_of_ended ho hp).resolve_right hs
    have hsp : l.spoiled = false := Bool.eq_false_iff.2 fun h => hv (.inr (.inl h))
    refine .inr ⟨⟨⟨hp, hsp⟩, hv⟩, hd, hi.legal hc, fun hout => ?_⟩
    rw [hi.ended_well hp hd hc hout] at hw
    cases hw

/-- A session that its next step makes void had not ended well, and an error of its unit, `blk.illegal` or reset voids
it: a START or CLEAR is held until the stream is drained, when it has ended well (70_reset_and_hazards.md R265). -/
theorem SessionLog.Inv.voided_by (hi : l.Inv v) (hm : UnitMove r ev v v') (ho : l.closed = false)
    (hp : l.phase = .ended) (hv' : (l.step ev v v').void) :
    l.void ∨ l.well = false ∧ (v'.state = .error ∨ v'.illegal = true ∨ r) := by
  refine or_iff_not_imp_left.2 fun hv => ?_
  have hw : l.well = false := Bool.eq_false_iff.2 fun hw =>
    ((hi.step hm ho).well_valid (well_step hw)).2 hv'
  refine ⟨hw, ?_⟩
  obtain ⟨-, -, -, hout⟩ := (hi.waits ho hw hv).resolve_left (by simp [hp])
  cases hc' : (l.step ev v v').closed
  case false =>
    rcases ((hi.step hm ho).void_iff_of_open hc' ((hi.step hm ho).void_unwell hv')).1 hv' with h | h
    · exact .inl h
    · exact .inr (.inl ((step_unclean.1 h).resolve_left fun h => hv ((hi.void_iff_of_open ho hw).2 (.inr h))))
  case true =>
    have hev := (step_closed.1 hc').resolve_left (by simp [ho])
    exact .inr (.inr ((hm.closing_drained hev).resolve_right hout))

/-! ### The three statements for either unit -/

/-- An open session's phase and its unit's state (00_scope.md R12). -/
theorem SessionLog.Inv.phase_cases (hi : l.Inv v) (ho : l.closed = false) :
    (l.phase = .running ↔ v.state = .active) ∧ (l.phase = .failed → v.state = .error) ∧
      (l.phase = .ended → v.state = .done ∨ v.state = .error) ∧ l.phase ≠ .abandoned :=
  ⟨(hi.phase_fits ho).running_iff, hi.error_of_failed ho, hi.done_or_error_of_ended ho,
    (hi.phase_fits ho).ne_abandoned⟩

/-- An ended session after one more step (00_scope.md R12, R13). -/
theorem SessionLog.Inv.ended_step (hi : l.Inv v) (hm : UnitMove r ev v v') (hp : l.phase = .ended)
    (ho : l.closed = false) :
    let l' := l.step ev v v'
    l'.ins = l.ins ∧ l'.out = l.out ∧ l'.phase = .ended ∧ (l'.completed ↔ l.completed) ∧
    (l.well = true → l'.well = true ∧ ¬ l'.void) ∧ (l.void → l'.void) ∧
    (l'.void → l.void ∨ (l.well = false ∧ (v'.state = .error ∨ v'.illegal = true ∨ r))) := by
  have ha := hi.not_active_of_ended ho hp
  obtain ⟨hins, hout, -⟩ := hm.outside ha
  have hp' : (l.step ev v v').phase = .ended := by rw [step_phase, hp]; rfl
  refine ⟨step_ins hins, by rw [step_out, hout, List.append_nil], hp', ?_, fun hw => ?_, void_step ho,
    hi.voided_by hm ho hp⟩
  · rw [completed, completed, hp, hp', hm.spoiled_kept ha]
  · exact ⟨well_step hw, ((hi.step hm ho).well_valid (well_step hw)).2⟩

/-- How a session stands, closed or open (00_scope.md R13). -/
theorem SessionLog.Inv.void_cases (hi : l.Inv v) :
    (l.void → l.well = false ∧ ¬ (l.phase = .ended ∧ v.state = .done ∧ l.clean = true ∧ v.out = [])) ∧
    (l.closed = true → (l.void ↔ l.well = false)) ∧
    (l.closed = false → l.void ∨ l.well = true ∨ (l.phase = .running ∧ v.state = .active ∧ v.illegal = false) ∨
      (l.valid ∧ v.state = .done ∧ v.illegal = false ∧ v.out ≠ [])) := by
  refine ⟨fun hv => ⟨hi.void_unwell hv, fun ⟨hp, hd, hc, hout⟩ => ?_⟩, hi.void_iff_of_closed, fun ho => ?_⟩
  · exact (hi.well_valid (hi.ended_well hp hd hc hout)).2 hv
  · by_cases hv : l.void
    · exact .inl hv
    cases hw : l.well
    · exact .inr (.inr (hi.waits ho hw hv))
    · exact .inr (.inl rfl)

end

/-! ### The invariant along runs -/

theorem EncSession.inv {s0 s : State} {l : SessionLog Word} (h : EncSession s0 l s) : l.Inv s.encSeen := by
  induction h with
  | opened hev hst =>
    cases step_encView hst with
    | opens _ _ _ ha _ _ hb => exact SessionLog.inv_new ha hb
    | _ => simp_all
  | later _ ho hst ih =>
    rw [encLogAfter_eq_step]
    exact ih.step (step_encMove hst) ho

theorem DecSession.inv {s0 s : State} {l : SessionLog Symbol} (h : DecSession s0 l s) : l.Inv s.decSeen := by
  induction h with
  | opened hev hst =>
    cases step_decView hst with
    | opens _ _ _ ha _ _ hb => exact SessionLog.inv_new ha hb
    | _ => simp_all
  | later _ ho hst ih =>
    rw [decLogAfter_eq_step]
    exact ih.step (step_decMove hst) ho

/-! ### The obligations -/

/-- Settles O51: the phase fits the unit's state in every open session's invariant. -/
theorem sessionPhasesFollowTheUnit : Obligations.SessionPhasesFollowTheUnit :=
  ⟨fun _ _ _ h => h.inv.phase_cases, fun _ _ _ h => h.inv.phase_cases⟩

/-- Settles O52: a unit that is not ACTIVE performs no item and appends nothing, and only an error, `blk.illegal` or
reset comes before the stream is drained. -/
theorem nothingAfterItsEndChangesASession : Obligations.NothingAfterItsEndChangesASession := by
  refine ⟨fun s0 s t l h hp ho hst => ?_, fun s0 s t l h hp ho hst => ?_⟩
  · rw [encLogAfter_eq_step]
    exact h.inv.ended_step (step_encMove hst) hp ho
  · rw [decLogAfter_eq_step]
    exact h.inv.ended_step (step_decMove hst) hp ho

/-- Settles O55: an open session that is not void has not failed, so it runs, waits in DONE or has ended well. -/
theorem aSessionThatDoesNotEndWellIsVoid : Obligations.ASessionThatDoesNotEndWellIsVoid := by
  refine ⟨fun s0 s l h => ?_, fun s0 s l h => ?_⟩
  · obtain ⟨hvoid, hclosed, hopen⟩ := h.inv.void_cases
    simp only [State.encSeen, ne_eq, List.map_eq_nil_iff] at hvoid hopen
    refine ⟨hvoid, hclosed, fun ho => ⟨fun hv t _ => ?_, hopen ho⟩⟩
    rw [encLogAfter_eq_step]
    exact SessionLog.void_step ho hv
  · obtain ⟨hvoid, hclosed, hopen⟩ := h.inv.void_cases
    refine ⟨hvoid, hclosed, fun ho => ⟨fun hv t _ => ?_, hopen ho⟩⟩
    rw [decLogAfter_eq_step]
    exact SessionLog.void_step ho hv

end Sys2Proof.Machine
end

section
/-! Every step keeps the invariant (spec/10_state.md R26, R32, spec/60_exceptions.md R228): what the effects of a unit's
commands keep of the unit's part of it, the machine's part, and the reset state. -/

namespace Sys2Proof.Machine

/-! ### The encoder -/

section
variable {p : Params} {e e' : EncUnit}

/-- An error entry of the encoder keeps its invariant (60_exceptions.md R228). -/
theorem EncUnit.Inv.raised (h : e.Inv p) {c : ErrCode} (i : Word)
    (hc : c = .invalidSymbol ∨ c = .dictFull ∨ c = .sequenceError) :
    EncUnit.Inv p { e with toUnitCore := e.toUnitCore.raised c i } where
  core := h.core.raised (by rintro rfl; simp at hc) i
  w_code_lt := h.w_code_lt
  w_code_zero := h.w_code_zero
  distinct := h.distinct
  err_code := .inr hc
  idle_reset hs := nomatch hs
  done_empty hs := nomatch hs

/-- An encoder whose session opens or is cleared meets its invariant (41_encoder.md R152, R155). -/
theorem EncUnit.Inv.restart (h : e.Inv p) (hp : p.wf) {st : SessionState} (hs : st = .active ∨ st = .idle) :
    EncUnit.Inv p
      { e with
        state := st, err := .none, errinfo := 0, next := 256, inCount := 0, outCount := 0, wValid := false
        wCode := 0 } where
  core := h.core.fresh hp (by rintro rfl; simp at hs)
  w_code_lt hw := nomatch hw
  w_code_zero _ := rfl
  distinct _ _ hj := (no_valid_entry_fresh hj).elim
  err_code := .inl rfl
  idle_reset _ := ⟨rfl, rfl, rfl, rfl⟩
  done_empty _ := rfl

/-- One more symbol matched keeps the invariant of an ACTIVE encoder: `w` has a code of the dictionary (41_encoder.md
R153). -/
theorem EncUnit.Inv.advance (h : e.Inv p) (ha : e.state = .active) {c : Code} (hc : c.toNat < e.next.toNat)
    (n : Count) : EncUnit.Inv p { e with wValid := true, wCode := c, inCount := n } where
  core := h.core.recount n e.outCount Iff.rfl
  w_code_lt _ := hc
  w_code_zero hw := nomatch hw
  distinct := h.distinct
  err_code := h.err_code
  idle_reset hs := by simp [ha] at hs
  done_empty hs := by simp [ha] at hs

/-- ENC_END leaves an encoder that meets its invariant (41_encoder.md R154). -/
theorem EncUnit.Inv.finish (h : e.Inv p) (ha : e.state = .active) (n : Count) :
    EncUnit.Inv p { e with outCount := n, wValid := false, wCode := 0, state := .done } where
  core := h.core.recount e.inCount n (by simp [ha])
  w_code_lt hw := nomatch hw
  w_code_zero _ := rfl
  distinct := h.distinct
  err_code := h.err_code
  idle_reset hs := nomatch hs
  done_empty _ := rfl

/-- The entry a miss inserts is equal to no valid one, because CamFind found none (10_state.md R26(c)). -/
theorem EncUnit.Inv.distinct_insert (h : e.Inv p) (hp : p.wf) {c : Code} {x : Symbol} {m : Memory}
    (hk : camFind e.dict e.next c x = none) (hm : dictWrite p e.dict e.next c x = .ok m) {j k : Nat}
    (hj : 256 ≤ j ∧ j < (e.next + 1).toNat) (hk' : 256 ≤ k ∧ k < (e.next + 1).toNat)
    (hjk : Memory.read m j = Memory.read m k) : j = k := by
  obtain ⟨⟨-, hlt, -⟩, rfl⟩ := dictWrite_ok.1 hm
  rw [next_succ hp hlt] at hj hk'
  have hnew := (camFind_none h.core.dict_wf).1 hk
  rw [Memory.read_write h.core.dict_wf, Memory.read_write h.core.dict_wf] at hjk
  by_cases h1 : j = e.next.toNat <;> by_cases h2 : k = e.next.toNat
  · rw [h1, h2]
  · rw [if_pos h1, if_neg h2] at hjk
    exact absurd hjk.symm (hnew k hk'.1 (by omega))
  · rw [if_neg h1, if_pos h2] at hjk
    exact absurd hjk (hnew j hj.1 (by omega))
  · rw [if_neg h1, if_neg h2] at hjk
    exact h.distinct j k ⟨hj.1, by omega⟩ ⟨hk'.1, by omega⟩ hjk

/-- The miss branch of ENC_SYM keeps the invariant (41_encoder.md R153). -/
theorem EncUnit.Inv.miss (h : e.Inv p) (hp : p.wf) (ha : e.state = .active) (hw : e.wValid = true) {c : Code}
    {x : Symbol} {m : Memory} (hk : camFind e.dict e.next e.wCode x = none)
    (hm : dictWrite p e.dict e.next e.wCode x = .ok m) (hc : c.toNat ≤ 255) (ic oc : Count) :
    EncUnit.Inv p { e with outCount := oc, dict := m, next := e.next + 1, wCode := c, inCount := ic } where
  core := h.core.insert hp hm ic oc
  w_code_lt _ := by
    obtain ⟨⟨hge, hlt, -⟩, -⟩ := dictWrite_ok.1 hm
    show c.toNat < (e.next + 1).toNat
    rw [next_succ hp hlt]
    omega
  w_code_zero hw' := by simp [hw] at hw'
  distinct _ _ hj hk' := h.distinct_insert hp hk hm hj hk'
  err_code := h.err_code
  idle_reset hs := by simp [ha] at hs
  done_empty hs := by simp [ha] at hs

/-- Every encoder command keeps the encoder's invariant (41_encoder.md R151). -/
theorem EncEffect.inv {i : Instr} {cs : List Code} (h : EncEffect p e i e' cs) (hp : p.wf) (hi : e.Inv p) :
    e'.Inv p := by
  cases h with
  | opened => exact hi.restart hp (.inl rfl)
  | cleared => exact hi.restart hp (.inr rfl)
  | wrongState => exact hi.raised _ (by simp)
  | invalidSymbol => exact hi.raised _ (by simp)
  | dictFull => exact hi.raised _ (by simp)
  | started x ha hx => exact hi.advance ha (by have := hi.core.next_ge; omega) _
  | extended x k ha _ _ hk =>
    obtain ⟨-, hlt, -⟩ := camFind_some hi.core.dict_wf hk
    have hk28 : (BitVec.ofNat 28 k).toNat = k := by
      have := hi.core.next_le
      have := hp.2
      rw [BitVec.toNat_ofNat]
      omega
    exact hi.advance ha (by rwa [hk28]) _
  | missed x m ha hx hw _ hk hm => exact hi.miss hp ha hw hk hm hx _ _
  | flushed ha => exact hi.finish ha _
  | closed ha => exact hi.finish ha e.outCount

end

/-! ### The decoder -/

section
variable {p : Params} {d d' : DecUnit}

/-- An error entry of the decoder keeps its invariant (60_exceptions.md R228). -/
theorem DecUnit.Inv.raised (h : d.Inv p) {c : ErrCode} (i : Word)
    (hc : c = .emptyStream ∨ c = .badCode ∨ c = .dictFull ∨ c = .sequenceError) :
    DecUnit.Inv p { d with toUnitCore := d.toUnitCore.raised c i } where
  core := h.core.raised (by rintro rfl; simp at hc) i
  prev_lt := h.prev_lt
  prev_zero := h.prev_zero
  fresh := h.fresh
  err_code := .inr hc
  idle_reset hs := nomatch hs
  done_prev hs := nomatch hs

/-- A decoder whose session opens or is cleared meets its invariant (42_decoder.md R182, R185). -/
theorem DecUnit.Inv.restart (h : d.Inv p) (hp : p.wf) {st : SessionState} (hs : st = .active ∨ st = .idle) :
    DecUnit.Inv p
      { d with
        state := st, err := .none, errinfo := 0, next := 256, inCount := 0, outCount := 0, havePrev := false
        prev := 0 } where
  core := h.core.fresh hp (by rintro rfl; simp at hs)
  prev_lt hv := nomatch hv
  prev_zero _ := rfl
  fresh _ := rfl
  err_code := .inl rfl
  idle_reset _ := ⟨rfl, rfl, rfl, rfl⟩
  done_prev hd := by
    obtain rfl : st = .done := hd
    simp at hs

/-- The first code of a session keeps the invariant (42_decoder.md R183). -/
theorem DecUnit.Inv.first (h : d.Inv p) (ha : d.state = .active) {k : Code} (hk : k.toNat ≤ 255) (ic oc : Count) :
    DecUnit.Inv p { d with outCount := oc, havePrev := true, prev := k, inCount := ic } where
  core := h.core.recount ic oc Iff.rfl
  prev_lt _ := show k.toNat < d.next.toNat by have := h.core.next_ge; omega
  prev_zero hv := nomatch hv
  fresh hv := nomatch hv
  err_code := h.err_code
  idle_reset hs := by simp [ha] at hs
  done_prev _ := rfl

/-- A later code keeps the invariant: `prev` may be the new entry's own code (42_decoder.md R183). -/
theorem DecUnit.Inv.later (h : d.Inv p) (hp : p.wf) (ha : d.state = .active) (hv : d.havePrev = true) {k : Code}
    {x : Symbol} {m : Memory} (hk : k.toNat ≤ d.next.toNat) (hm : dictWrite p d.dict d.next d.prev x = .ok m)
    (ic oc : Count) :
    DecUnit.Inv p { d with dict := m, next := d.next + 1, outCount := oc, prev := k, inCount := ic } where
  core := h.core.insert hp hm ic oc
  prev_lt _ := by
    obtain ⟨⟨-, hlt, -⟩, -⟩ := dictWrite_ok.1 hm
    show k.toNat < (d.next + 1).toNat
    rw [next_succ hp hlt]
    omega
  prev_zero hv' := by simp [hv] at hv'
  fresh hv' := by simp [hv] at hv'
  err_code := h.err_code
  idle_reset hs := by simp [ha] at hs
  done_prev _ := hv

/-- DEC_END leaves a decoder that meets its invariant (42_decoder.md R184). -/
theorem DecUnit.Inv.finish (h : d.Inv p) (ha : d.state = .active) (hv : d.havePrev = true) :
    DecUnit.Inv p { d with state := .done } where
  core := h.core.recount d.inCount d.outCount (by simp [ha])
  prev_lt := h.prev_lt
  prev_zero := h.prev_zero
  fresh := h.fresh
  err_code := h.err_code
  idle_reset hs := nomatch hs
  done_prev _ := hv

/-- Every decoder command keeps the decoder's invariant (42_decoder.md R186). -/
theorem DecEffect.inv {i : Instr} {ph : List Symbol} (h : DecEffect p d i d' ph) (hp : p.wf) (hi : d.Inv p) :
    d'.Inv p := by
  cases h with
  | opened => exact hi.restart hp (.inl rfl)
  | cleared => exact hi.restart hp (.inr rfl)
  | wrongState => exact hi.raised _ (by simp)
  | emptyStream => exact hi.raised _ (by simp)
  | badCode => exact hi.raised _ (by simp)
  | dictFull => exact hi.raised _ (by simp)
  | first k ha _ hk => exact hi.first ha hk _ _
  | later k c x m _ ha hv hk _ _ hm => exact hi.later hp ha hv (by omega) hm _ _
  | closed ha hv => exact hi.finish ha hv

end

/-! ### The machine -/

/-- A command keeps the invariant, if a reserved row comes with an ill-formed word. -/
theorem Effect.inv {s t : State} {i : Instr} (h : Effect s i t) (hi : Inv s)
    (hw : ∀ w, i = .illegalAB w ∨ i = .illegalCF w → illFormed w = true) : Inv t := by
  cases h with
  | kept => exact hi
  | recorded _ w _ hiw => exact ⟨hi.params, hi.enc, hi.dec, hi.buffer_empty, nofun, fun _ => hw w hiw⟩
  | blkCleared => exact ⟨hi.params, hi.enc, hi.dec, hi.buffer_empty, fun _ => rfl, nofun⟩
  | enc _ he => exact ⟨hi.params, he.inv hi.params hi.enc, hi.dec, hi.buffer_empty, hi.legal_word, hi.illegal_word⟩
  | dec _ hd hbuf =>
    refine ⟨hi.params, hi.enc, hd.inv hi.params hi.dec, ?_, hi.legal_word, hi.illegal_word⟩
    rcases hbuf with ⟨-, rfl⟩ | ⟨rfl, -⟩
    · exact hi.buffer_empty
    · rfl

/-- An accepted word performed as a reserved row is ill-formed (40_dispatch.md R134). -/
theorem illFormed_of_instrOf {w v : Word} (h : instrOf w = .illegalAB v ∨ instrOf w = .illegalCF v) :
    illFormed v = true := by
  have hv : w = v := by
    rw [← encode_instrOf w]
    rcases h with h | h <;> rw [h] <;> rfl
  rcases instrOf_cases w with ⟨hw, -⟩ | ⟨-, -, hn⟩
  · exact hv ▸ hw
  · exact (h.elim (hn v).1 (hn v).2).elim

/-- The common fields after reset meet the invariant: no entry is valid or listed (10_state.md R24). -/
theorem UnitCore.inv_atReset {p : Params} (hp : p.wf) : UnitCore.atReset.Inv p where
  next_ge := show 256 ≤ (256 : NextCode).toNat by decide
  next_le := hp.1
  dict_wf := rfl
  dict_codes := nofun
  entry _ hk := (no_valid_entry_fresh hk).elim
  err_iff := by decide
  errinfo_zero _ := rfl

/-- The state right after reset meets the invariant (70_reset_and_hazards.md R260). -/
theorem inv_resetWith {p : Params} (hp : p.wf) : Inv (State.resetWith p) where
  params := hp
  enc :=
    { core := UnitCore.inv_atReset hp
      w_code_lt := nofun
      w_code_zero := fun _ => rfl
      distinct := fun _ _ hj => (no_valid_entry_fresh hj).elim
      err_code := .inl rfl
      idle_reset := fun _ => ⟨rfl, rfl, rfl, rfl⟩
      done_empty := fun _ => rfl }
  dec :=
    { core := UnitCore.inv_atReset hp
      prev_lt := nofun
      prev_zero := fun _ => rfl
      fresh := fun _ => rfl
      err_code := .inl rfl
      idle_reset := fun _ => ⟨rfl, rfl, rfl, rfl⟩
      done_prev := nofun }
  buffer_empty := rfl
  legal_word _ := rfl
  illegal_word := nofun

/-- No session has begun after reset, so nothing has grown. -/
theorem growth_resetWith (p : Params) : Growth (State.resetWith p) where
  left := { active := nofun, done := nofun }
  right := { none := fun _ => ⟨rfl, rfl⟩, some := nofun }

/-- The invariant says nothing of the port or the outside world. -/
theorem Inv.accepting {s : State} (h : Inv s) : Inv s.accepting :=
  h.congr ⟨rfl, rfl, rfl, rfl, rfl⟩

/-- Settles O9: a performed word has one of the commands' effects, a reset gives the reset state, and every other turn
leaves the block's own fields alone. -/
theorem stepKeepsTheInvariant : Obligations.StepKeepsTheInvariant := by
  intro s t hi hst
  rcases step_cases hst with ⟨w, -, -, -, -, he⟩ | ⟨-, -, rfl⟩ | ⟨-, -, hq⟩
  · have hef : Effect s.accepting (instrOf w) t := exec_effect he
    exact hef.inv hi.accepting fun _ => illFormed_of_instrOf
  · exact (inv_resetWith hi.params).congr ⟨rfl, rfl, rfl, rfl, rfl⟩
  · exact hi.congr hq.toSameBlock

/-- Settles O8: with `next` = 256 and an empty array each clause of the invariant holds or is empty. -/
theorem resetMeetsTheInvariants : Obligations.ResetMeetsTheInvariants :=
  ⟨fun _ hp => ⟨inv_resetWith hp, growth_resetWith _⟩, rfl, inv_resetWith (by decide)⟩

end Sys2Proof.Machine
end

section
/-! What an array holds at a code that is not valid never shows (spec/10_state.md R22, R30): a command, and every turn,
acts alike on a state and on one with other arrays that agree on the valid codes. -/

namespace Sys2Proof.Machine

/-- Two arrays agree on every valid code of a dictionary with `n` codes. -/
def Memory.Agree (n : NextCode) (m m' : Memory) : Prop :=
  ∀ k, 256 ≤ k → k < n.toNat → Memory.read m' k = Memory.read m k

/-- The state with other dictionary arrays: `m` in the encoder, `m'` in the decoder. -/
def State.withDicts (m m' : Memory) (s : State) : State :=
  { s with enc := { s.enc with dict := m }, dec := { s.dec with dict := m' } }

section
variable (s : State) (m m' : Memory)

@[simp] theorem State.withDicts_params : (s.withDicts m m').params = s.params := rfl
@[simp] theorem State.withDicts_blk : (s.withDicts m m').blk = s.blk := rfl
@[simp] theorem State.withDicts_enc : (s.withDicts m m').enc = { s.enc with dict := m } := rfl
@[simp] theorem State.withDicts_dec : (s.withDicts m m').dec = { s.dec with dict := m' } := rfl
@[simp] theorem State.withDicts_phraseBuf : (s.withDicts m m').phraseBuf = s.phraseBuf := rfl
@[simp] theorem State.withDicts_encOut : (s.withDicts m m').encOut = s.encOut := rfl
@[simp] theorem State.withDicts_decOut : (s.withDicts m m').decOut = s.decOut := rfl
@[simp] theorem State.withDicts_port : (s.withDicts m m').port = s.port := rfl
@[simp] theorem State.withDicts_host : (s.withDicts m m').host = s.host := rfl

/-- The class of an operand does not depend on the arrays (42_decoder.md R180). -/
theorem classify_withDicts (k : Operand) : classify (s.withDicts m m').dec k = classify s.dec k := rfl

/-- No register shows an array (10_state.md R39). -/
theorem regRead_withDicts (off : BitVec 6) (width : Nat) : regRead off width (s.withDicts m m') = regRead off width s :=
  rfl

/-- Which turn comes next does not depend on the arrays. -/
theorem nextTurn_withDicts : nextTurn (s.withDicts m m') = ((nextTurn s).1, (nextTurn s).2.withDicts m m') := by
  unfold nextTurn
  simp only [State.withDicts_host]
  rcases s.host.turns with _ | ⟨t, ts⟩ <;> rfl

end

/-- Two states differ only in stale entries when the one is the other with arrays that agree on the valid codes. -/
theorem sameButStale_iff {s s' : State} :
    SameButStale s s' ↔ ∃ m m', s' = s.withDicts m m' ∧ Memory.Agree s.enc.next s.enc.dict m ∧
      Memory.Agree s.dec.next s.dec.dict m' := by
  constructor
  · rintro ⟨⟨-, he⟩, ⟨-, hd⟩, hs⟩
    refine ⟨s'.enc.dict, s'.dec.dict, ?_, fun k h1 h2 => he k ⟨h1, h2⟩, fun k h1 h2 => hd k ⟨h1, h2⟩⟩
    rw [← hs]
    rfl
  · rintro ⟨m, m', rfl, he, hd⟩
    exact ⟨⟨rfl, fun k hk => he k hk.1 hk.2⟩, ⟨rfl, fun k hk => hd k hk.1 hk.2⟩, rfl⟩

theorem SameButStale.withDicts {s : State} {m m' : Memory} (he : Memory.Agree s.enc.next s.enc.dict m)
    (hd : Memory.Agree s.dec.next s.dec.dict m') : SameButStale s (s.withDicts m m') :=
  sameButStale_iff.2 ⟨m, m', rfl, he, hd⟩

/-- A fresh dictionary has no valid code, so any two arrays agree (10_state.md R24). -/
theorem Memory.agree_fresh (m m' : Memory) : Memory.Agree 256 m m' :=
  fun _ h1 h2 => (no_valid_entry_fresh ⟨h1, h2⟩).elim

/-- The same new entry at `next` in two arrays that agree. -/
theorem Memory.Agree.write {n : NextCode} {m m' : Memory} (h : Memory.Agree n m m') (hw : Memory.wf m = true)
    (hw' : Memory.wf m' = true) (e : Entry) :
    Memory.Agree (n + 1) (Memory.write m n.toNat e) (Memory.write m' n.toNat e) := by
  intro k h1 h2
  have hle : (n + 1).toNat ≤ n.toNat + 1 := by
    rw [BitVec.toNat_add]
    exact Nat.mod_le _ _
  rw [Memory.read_write hw, Memory.read_write hw']
  split
  · rfl
  · exact h k h1 (by omega)

/-- CamFind looks at valid codes only (41_encoder.md R150). -/
theorem camFind_agree {p : Params} {e : EncUnit} {m : Memory} (h : e.Inv p) (h' : EncUnit.Inv p { e with dict := m })
    (ha : Memory.Agree e.next e.dict m) (c : Code) (x : Symbol) : camFind m e.next c x = camFind e.dict e.next c x := by
  ext k
  refine h'.camFind_iff.trans (Iff.trans ?_ h.camFind_iff.symm)
  exact and_congr_right fun hv => by rw [← ha k hv.1 hv.2]

/-- DictWrite answers alike on two arrays that agree. -/
theorem dictWrite_agree {p : Params} {n : NextCode} {m m' m₁ : Memory} {c : Code} {x : Symbol}
    (ha : Memory.Agree n m m') (hw : Memory.wf m = true) (hw' : Memory.wf m' = true)
    (h : dictWrite p m n c x = .ok m₁) : ∃ m₂, dictWrite p m' n c x = .ok m₂ ∧ Memory.Agree (n + 1) m₁ m₂ := by
  obtain ⟨hreq, rfl⟩ := dictWrite_ok.1 h
  exact ⟨_, dictWrite_ok.2 ⟨hreq, rfl⟩, ha.write hw hw' _⟩

/-- Where `a` answers a next state, `a'` answers one that differs from it only in stale entries. -/
def Mirrors (a a' : Answer) : Prop := ∀ t, a = .next t → ∃ t', a' = .next t' ∧ SameButStale t t'

theorem Mirrors.next {t t' : State} (h : SameButStale t t') : Mirrors (.next t) (.next t') := by
  rintro _ ⟨⟩
  exact ⟨t', rfl, h⟩

theorem Mirrors.fault (f : Fault) (a : Answer) : Mirrors (.fault f) a := by
  rintro _ ⟨⟩

theorem Mirrors.ite {c : Prop} [Decidable c] {a b a' b' : Answer} (ha : c → Mirrors a a') (hb : ¬ c → Mirrors b b') :
    Mirrors (if c then a else b) (if c then a' else b') := by
  split
  · exact ha ‹c›
  · exact hb ‹¬ c›

/-! ### The commands -/

section
variable {s : State} {m m' : Memory} (he : Memory.Agree s.enc.next s.enc.dict m)
  (hd : Memory.Agree s.dec.next s.dec.dict m')
include he hd

/-- The check of `blk.illegal` sees no array (40_dispatch.md R130). -/
theorem Mirrors.unlessIllegal {k k' : Answer} (h : Mirrors k k') :
    Mirrors (unlessIllegal s k) (unlessIllegal (s.withDicts m m') k') :=
  .ite (c := s.blk.illegal = true) (fun _ => .next (.withDicts he hd)) fun _ => h

theorem Mirrors.unlessEncDiscards {k k' : Answer} (h : Mirrors k k') :
    Mirrors (unlessEncDiscards s k) (unlessEncDiscards (s.withDicts m m') k') :=
  .unlessIllegal he hd <| .ite (c := s.enc.state = .error) (fun _ => .next (.withDicts he hd)) fun _ => h

theorem Mirrors.unlessDecDiscards {k k' : Answer} (h : Mirrors k k') :
    Mirrors (unlessDecDiscards s k) (unlessDecDiscards (s.withDicts m m') k') :=
  .unlessIllegal he hd <| .ite (c := s.dec.state = .error) (fun _ => .next (.withDicts he hd)) fun _ => h

theorem mirrors_raiseEnc (c : ErrCode) (i : Word) : Mirrors (raiseEnc c i s) (raiseEnc c i (s.withDicts m m')) :=
  .next (.withDicts (s := s.setEnc _) he hd)

theorem mirrors_raiseDec (c : ErrCode) (i : Word) : Mirrors (raiseDec c i s) (raiseDec c i (s.withDicts m m')) :=
  .next (.withDicts (s := s.setDec _) he hd)

theorem mirrors_takeIllegal (w : Word) : Mirrors (takeIllegal w s) (takeIllegal w (s.withDicts m m')) :=
  .unlessIllegal he hd (.next (.withDicts (s := s.setBlk _) he hd))

theorem mirrors_encMiss (hi : Inv s) (hi' : Inv (s.withDicts m m')) (x : Symbol) :
    Mirrors (encMiss x s) (encMiss x (s.withDicts m m')) := by
  refine .ite (c := s.enc.next.toNat = s.params.dictCap) (fun _ => mirrors_raiseEnc he hd _ _) fun _ => ?_
  rcases hm : dictWrite s.params s.enc.dict s.enc.next s.enc.wCode x with f | m₁
  · exact .fault _ _
  · obtain ⟨m₂, hm', ha⟩ := dictWrite_agree he hi.enc.core.dict_wf hi'.enc.core.dict_wf hm
    simp only [State.withDicts_params, State.withDicts_enc, hm']
    exact .next (.withDicts (s := (s.emitCode _).setEnc _) ha hd)

theorem mirrors_execEncSym (hi : Inv s) (hi' : Inv (s.withDicts m m')) (x : Operand) :
    Mirrors (execEncSym x s) (execEncSym x (s.withDicts m m')) := by
  refine .unlessEncDiscards he hd <|
    .ite (c := s.enc.state = .active) (fun _ => ?_) fun _ => mirrors_raiseEnc he hd _ _
  rcases symbolOf x with _ | c
  · exact mirrors_raiseEnc he hd _ _
  refine .ite (c := s.enc.wValid = true) (fun _ => ?_) fun _ => .next (.withDicts (s := encAdvance _ s) he hd)
  simp only [State.withDicts_enc, camFind_agree hi.enc hi'.enc he]
  rcases camFind s.enc.dict s.enc.next s.enc.wCode c with _ | k
  · exact mirrors_encMiss he hd hi hi' c
  · exact .next (.withDicts (s := encAdvance _ s) he hd)

theorem mirrors_execEncEnd : Mirrors (execEncEnd s) (execEncEnd (s.withDicts m m')) := by
  refine .unlessEncDiscards he hd <|
    .ite (c := s.enc.state = .active) (fun _ => ?_) fun _ => mirrors_raiseEnc he hd _ _
  cases hw : s.enc.wValid <;> simp only [encFlush, State.withDicts_enc, hw]
  · exact .next (.withDicts (s := s.setEnc _) he hd)
  · exact .next (.withDicts (s := ((s.emitCode _).setEnc _).setEnc _) he hd)

theorem mirrors_decNext (hi : Inv s) (hi' : Inv (s.withDicts m m')) (k c : Code) :
    Mirrors (decNext k c s) (decNext k c (s.withDicts m m')) := by
  refine .ite (c := s.dec.next.toNat = s.params.dictCap) (fun _ => mirrors_raiseDec he hd _ _) fun _ => ?_
  simp only [State.withDicts_params, State.withDicts_dec, firstSym_congr hd]
  rcases firstSym s.dec.dict s.dec.next s.params.phraseCap c with f | x
  · exact .fault _ _
  dsimp only
  rcases hm : dictWrite s.params s.dec.dict s.dec.next s.dec.prev x with f | m₁
  · exact .fault _ _
  obtain ⟨m₂, hm', ha⟩ := dictWrite_agree hd hi.dec.core.dict_wf hi'.dec.core.dict_wf hm
  simp only [hm', walk_congr ha]
  rcases walk m₁ (s.dec.next + 1) s.params.phraseCap k [] with f | ph
  · exact .fault _ _
  · exact .next (.withDicts (s := (s.emitPhrase ph).setDec _) he ha)

theorem mirrors_execDecCode (hi : Inv s) (hi' : Inv (s.withDicts m m')) (k : Operand) :
    Mirrors (execDecCode k s) (execDecCode k (s.withDicts m m')) := by
  refine .unlessDecDiscards he hd <|
    .ite (c := s.dec.state = .active) (fun _ => ?_) fun _ => mirrors_raiseDec he hd _ _
  rw [classify_withDicts]
  cases classify s.dec k with
  | first x => exact .next (.withDicts (s := decFirst x s) he hd)
  | firstBad => exact mirrors_raiseDec he hd _ _
  | known => exact mirrors_decNext he hd hi hi' k k
  | selfRef => exact mirrors_decNext he hd hi hi' k s.dec.prev
  | bad => exact mirrors_raiseDec he hd _ _

theorem mirrors_execDecEnd : Mirrors (execDecEnd s) (execDecEnd (s.withDicts m m')) :=
  .unlessDecDiscards he hd <|
    .ite (c := s.dec.state = .active)
      (fun _ => .ite (c := s.dec.havePrev = true) (fun _ => .next (.withDicts (s := State.setDec _ s) he hd))
        fun _ => mirrors_raiseDec he hd _ _)
      fun _ => mirrors_raiseDec he hd _ _

/-- Every command. Of a valid code it reads the same entry, and START and CLEAR leave no code valid. -/
theorem mirrors_exec (hi : Inv s) (hi' : Inv (s.withDicts m m')) (i : Instr) :
    Mirrors (exec i s) (exec i (s.withDicts m m')) := by
  cases i with
  | nop => exact .unlessIllegal he hd (.next (.withDicts he hd))
  | encStart => exact .unlessEncDiscards he hd (.next (.withDicts (s := State.setEnc _ s) (Memory.agree_fresh _ _) hd))
  | encSym x => exact mirrors_execEncSym he hd hi hi' x
  | encEnd => exact mirrors_execEncEnd he hd
  | encClear => exact .unlessIllegal he hd (.next (.withDicts (s := State.setEnc _ s) (Memory.agree_fresh _ _) hd))
  | decStart => exact .unlessDecDiscards he hd (.next (.withDicts (s := State.setDec _ s) he (Memory.agree_fresh _ _)))
  | decCode k => exact mirrors_execDecCode he hd hi hi' k
  | decEnd => exact mirrors_execDecEnd he hd
  | decClear => exact .unlessIllegal he hd (.next (.withDicts (s := State.setDec _ s) he (Memory.agree_fresh _ _)))
  | blkClear => exact .next (.withDicts (s := State.setBlk _ s) he hd)
  | illegalAB w => exact mirrors_takeIllegal he hd w
  | illegalCF w => exact mirrors_takeIllegal he hd w

end

/-! ### The turns -/

section
variable {s : State} {m m' : Memory} (he : Memory.Agree s.enc.next s.enc.dict m)
  (hd : Memory.Agree s.dec.next s.dec.dict m')
include he hd

theorem mirrors_blockTurn (hi : Inv s) (hi' : Inv (s.withDicts m m')) :
    Mirrors (blockTurn s) (blockTurn (s.withDicts m m')) := by
  unfold blockTurn
  simp only [State.withDicts_port]
  rcases s.port with _ | w
  · exact .next (.withDicts he hd)
  · refine .ite (c := held w s = true) (fun _ => .next (.withDicts he hd)) fun _ => ?_
    rw [perform_eq, perform_eq]
    exact mirrors_exec (s := s.setPort none) he hd (hi.congr ⟨rfl, rfl, rfl, rfl, rfl⟩)
      (hi'.congr ⟨rfl, rfl, rfl, rfl, rfl⟩) _

theorem sameButStale_offerTurn : SameButStale (offerTurn s) (offerTurn (s.withDicts m m')) := by
  unfold offerTurn
  simp only [State.withDicts_port, State.withDicts_host]
  rcases s.port with _ | w <;> rcases s.host.commands with _ | ⟨c, cs⟩
  case none.cons => exact .withDicts (s := (s.setPort _).setHost _) he hd
  all_goals exact .withDicts he hd

theorem sameButStale_encTakeTurn : SameButStale (encTakeTurn s) (encTakeTurn (s.withDicts m m')) := by
  unfold encTakeTurn
  simp only [State.withDicts_encOut]
  rcases s.encOut with _ | ⟨c, rest⟩
  · exact .withDicts he hd
  · exact .withDicts (s := { s with encOut := rest, host := _ }) he hd

theorem sameButStale_decTakeTurn : SameButStale (decTakeTurn s) (decTakeTurn (s.withDicts m m')) := by
  unfold decTakeTurn
  simp only [State.withDicts_decOut]
  rcases s.decOut with _ | ⟨x, rest⟩
  · exact .withDicts he hd
  · exact .withDicts (s := { s with decOut := rest, host := _ }) he hd

/-- A turn, whoever takes it. Reset puts both arrays back (70_reset_and_hazards.md R260). -/
theorem mirrors_takeTurn (hi : Inv s) (hi' : Inv (s.withDicts m m')) (t : Turn) :
    Mirrors (takeTurn t s) (takeTurn t (s.withDicts m m')) := by
  cases t with
  | block => exact mirrors_blockTurn he hd hi hi'
  | offer => exact .next (sameButStale_offerTurn he hd)
  | regRead off width =>
    simp only [takeTurn, regRead_withDicts]
    exact .next (.withDicts (s := s.setHost _) he hd)
  | regWrite off width value => exact .next (.withDicts (s := s.setHost _) he hd)
  | encTake => exact .next (sameButStale_encTakeTurn he hd)
  | decTake => exact .next (sameButStale_decTakeTurn he hd)
  | reset => exact .next (.withDicts (s := resetTurn s) (Memory.agree_fresh _ _) (Memory.agree_fresh _ _))

end

/-- Taking a turn off the list leaves the block's own fields alone. -/
theorem sameBlock_nextTurn (s : State) : SameBlock s (nextTurn s).2 := by
  rw [nextTurn_snd]
  exact ⟨rfl, rfl, rfl, rfl, rfl⟩

/-- Settles O47: a command reads only entries of valid codes, CamFind among them by the invariant, so every turn acts
alike on two arrays that agree there. -/
theorem staleEntriesAreNeverRead : Obligations.StaleEntriesAreNeverRead := by
  intro s s' t hi hi' hs hst
  obtain ⟨m, m', rfl, he, hd⟩ := sameButStale_iff.1 hs
  have hn := sameBlock_nextTurn s
  rw [step, nextTurn_withDicts]
  refine mirrors_takeTurn (s := (nextTurn s).2) (by rwa [hn.enc]) (by rwa [hn.dec]) (hi.congr hn) (hi'.congr ?_) _ t hst
  exact ⟨hn.params, hn.blk, by simp [hn.enc], by simp [hn.dec], hn.phraseBuf⟩

end Sys2Proof.Machine
end

section
/-! What the commands leave alone and what the window shows (spec/10_state.md R37, R39 to R55), and the phrases of a
dictionary (R25, R26, R27, R33): in the encoder a phrase belongs to one code only. -/

namespace Sys2Proof.Machine

/-! ### Frame -/

/-- A command's effects are on the block's own fields and the streams. -/
theorem Effect.frame {s t : State} {i : Instr} (h : Effect s i t) :
    t.params = s.params ∧ t.port = s.port ∧ t.host = s.host := by
  cases h <;> exact ⟨rfl, rfl, rfl⟩

/-- Settles O12: the frame of the commands' effects; reset builds its state from the parameter. -/
theorem commandsTouchOnlyTheBlock : Obligations.CommandsTouchOnlyTheBlock := by
  refine ⟨fun i s t h => (exec_effect h).frame, fun s t hst => ?_⟩
  rcases step_cases hst with ⟨w, -, -, -, -, he⟩ | ⟨-, -, rfl⟩ | ⟨-, -, hq⟩
  · exact (exec_effect he).frame.1
  · rfl
  · exact hq.params

/-! ### Registers -/

theorem zext32_toNat {n : Nat} (h : n ≤ 32) (v : BitVec n) : (zext32 v).toNat = v.toNat :=
  BitVec.toNat_setWidth_of_le h

theorem blkStatus_toNat (b : Blk) : (blkStatus b).toNat = b.illegal.toNat := by
  rw [blkStatus]
  cases b.illegal <;> rfl

/-- Settles O22: each register is its field, zero-extended where it is narrower. -/
theorem registersShowTheirFields : Obligations.RegistersShowTheirFields := by
  intro s
  have hcap : s.params.wf → (register 0x1 s).toNat = s.params.dictCap := fun hp => by
    have := hp.2
    rw [show register 0x1 s = BitVec.ofNat 32 s.params.dictCap from rfl, BitVec.toNat_ofNat]
    omega
  exact ⟨rfl, hcap, blkStatus_toNat _, rfl, rfl, zext32_toNat (by decide) _, zext32_toNat (by decide) _, rfl, rfl, rfl,
    zext32_toNat (by decide) _, zext32_toNat (by decide) _, rfl, rfl⟩

/-- The fields of the two status registers (10_state.md R44, R50). -/
theorem statusWord_fields (u : UnitCore) (f : Bool) :
    (statusWord u f).extractLsb' 0 2 = stateBits u.state ∧ (statusWord u f).extractLsb' 2 1 = BitVec.ofBool f ∧
    (statusWord u f).extractLsb' 3 1 = 0 ∧ (statusWord u f).extractLsb' 4 4 = errBits u.err ∧
    (statusWord u f).extractLsb' 8 24 = 0 := by
  unfold statusWord
  generalize errBits u.err = e
  generalize stateBits u.state = st
  revert e st f
  decide

/-- ERR is non-zero exactly when STATE = 3 (60_exceptions.md R228). -/
theorem UnitCore.Inv.errBits_iff {p : Params} {u : UnitCore} (h : u.Inv p) :
    (errBits u.err).toNat ≠ 0 ↔ (stateBits u.state).toNat = 3 := by
  have herr : (errBits u.err).toNat ≠ 0 ↔ u.err ≠ .none := by cases u.err <;> decide
  have hst : (stateBits u.state).toNat = 3 ↔ u.state = .error := by cases u.state <;> decide
  rw [herr, hst, h.err_iff]

/-- Settles O23: the two registers are status words, and the invariant names each unit's error codes. -/
theorem statusRegistersShowStateAndError : Obligations.StatusRegistersShowStateAndError := by
  intro s state
  have hstate (u : UnitCore) : (stateBits u.state).toNat = state u := by
    simp only [state]
    cases u.state <;> rfl
  have hflag (f : Bool) : (BitVec.ofBool f).toNat = f.toNat := BitVec.toNat_ofBool f
  refine ⟨?_, ?_⟩
  · rintro _ rfl
    obtain ⟨hst, hf, h3, herr, h8⟩ := statusWord_fields s.enc.toUnitCore s.enc.wValid
    rw [show register 0x4 s = statusWord s.enc.toUnitCore s.enc.wValid from rfl, hst, hf, herr]
    refine ⟨hstate _, hflag _, h3, h8, fun hi => ⟨?_, hi.enc.core.errBits_iff⟩⟩
    rcases hi.enc.err_code with h | h | h | h <;> rw [h] <;> decide
  · rintro _ rfl
    obtain ⟨hst, hf, h3, herr, h8⟩ := statusWord_fields s.dec.toUnitCore s.dec.havePrev
    rw [show register 0xA s = statusWord s.dec.toUnitCore s.dec.havePrev from rfl, hst, hf, herr]
    refine ⟨hstate _, hflag _, h3, h8, fun hi => ⟨?_, hi.dec.core.errBits_iff⟩⟩
    rcases hi.dec.err_code with h | h | h | h | h <;> rw [h] <;> decide

/-! ### Phrases -/

/-- Settles O42: a seed's phrase is one symbol and each link of its chain of entries adds one (10_state.md R33). -/
theorem phrasesFitThePhraseBuffer : Obligations.PhrasesFitThePhraseBuffer := by
  intro s hi u hu k hk
  have h : u.Inv s.params := by
    rcases List.mem_pair.1 hu with rfl | rfl
    · exact hi.enc.core
    · exact hi.dec.core
  obtain ⟨p, hp, -, hlen⟩ := phraseIn_some h.chained k (.inr hk)
  have hseed : k < 256 → p.length = 1 := fun hk => by
    rw [phraseIn_seed _ _ hk] at hp
    cases hp
    rfl
  refine ⟨p, hp, hseed, by omega, ?_⟩
  have := h.next_le
  unfold Params.phraseCap
  split <;> omega

theorem phraseIn_ne_nil {m : Memory} {n k : Nat} (hc : Chained m n) (hn : k < n) {w : List Symbol}
    (h : phraseIn m n k = some w) : w ≠ [] := by
  obtain ⟨p, hp, hne, -⟩ := phraseIn_some hc k (.inr hn)
  cases h.symm.trans hp
  exact hne

/-- A valid entry's `prefixCode` is smaller than its own code (10_state.md R26(a), R32(a)). -/
theorem UnitCore.Inv.prefixCode_lt {p : Params} {u : UnitCore} (h : u.Inv p) {k : Nat} (hk : u.validEntry k) {e : Entry}
    (he : Memory.read u.dict k = some e) : e.prefixCode.toNat < k := by
  obtain ⟨e', he', hlt⟩ := h.entry k hk
  cases he.symm.trans he'
  exact hlt

/-- Below `next`, the phrases of one symbol are the seeds' (10_state.md R25). -/
theorem phraseIn_singleton {m : Memory} {n k : Nat} (hc : Chained m n) (hn : k < n) {x : Symbol} :
    phraseIn m n k = some [x] ↔ k = x.toNat := by
  constructor
  · intro h
    by_cases hk : k < 256
    · rw [phraseIn_seed _ _ hk] at h
      cases h
      rw [BitVec.toNat_ofNat]
      omega
    · obtain ⟨e, he, hlt⟩ := hc k (by omega) hn
      obtain ⟨q, hq, hne, -⟩ := phraseIn_some hc e.prefixCode.toNat (by omega)
      rw [phraseIn_entry hc (by omega) hn he, hq] at h
      simp [hne, List.append_eq_singleton_iff] at h
  · rintro rfl
    rw [phraseIn_seed _ _ x.isLt, BitVec.ofNat_toNat, BitVec.setWidth_eq]

/-- Below `next`, a longer phrase is that of an entry: the phrase of its `prefixCode`, then `suffixSym` (10_state.md
R31). -/
theorem phraseIn_snoc {m : Memory} {n k : Nat} (hc : Chained m n) (hn : k < n) {w : List Symbol} (hw : w ≠ [])
    {x : Symbol} :
    phraseIn m n k = some (w ++ [x]) ↔
      256 ≤ k ∧ ∃ e, Memory.read m k = some e ∧ phraseIn m n e.prefixCode.toNat = some w ∧ e.suffixSym = x := by
  constructor
  · intro h
    by_cases hk : k < 256
    · rw [phraseIn_seed _ _ hk] at h
      simp [hw, List.singleton_eq_append_iff] at h
    · obtain ⟨e, he, -⟩ := hc k (by omega) hn
      rw [phraseIn_entry hc (by omega) hn he, Option.map_eq_some_iff] at h
      obtain ⟨q, hq, hqx⟩ := h
      obtain ⟨rfl, hx⟩ := List.append_inj' hqx rfl
      exact ⟨by omega, e, he, hq, by simpa using hx⟩
  · rintro ⟨hk, e, he, hp, rfl⟩
    rw [phraseIn_entry hc hk hn he, hp]
    rfl

/-- In the encoder a phrase belongs to one code only: equal phrases have equal last symbols and, one symbol shorter,
equal prefixes, and no two valid entries are equal (10_state.md R26(b), (c)). -/
theorem EncUnit.Inv.phrase_inj {p : Params} {e : EncUnit} (h : e.Inv p) {w : List Symbol} {j k : Nat}
    (hj : j < e.next.toNat) (hk : k < e.next.toNat) (hpj : e.phrase j = some w) (hpk : e.phrase k = some w) :
    j = k := by
  have hc := h.core.chained
  rw [UnitCore.phrase_eq] at hpj hpk
  induction w using List.reverseRecOn generalizing j k with
  | nil => exact absurd rfl (phraseIn_ne_nil hc hj hpj)
  | append_singleton w x ih =>
    by_cases hw : w = []
    · subst hw
      rw [(phraseIn_singleton hc hj).1 hpj, (phraseIn_singleton hc hk).1 hpk]
    · obtain ⟨hj256, f, hf, hfp, hfx⟩ := (phraseIn_snoc hc hj hw).1 hpj
      obtain ⟨hk256, g, hg, hgp, hgx⟩ := (phraseIn_snoc hc hk hw).1 hpk
      have hfj := h.core.prefixCode_lt ⟨hj256, hj⟩ hf
      have hgk := h.core.prefixCode_lt ⟨hk256, hk⟩ hg
      have hpre := BitVec.eq_of_toNat_eq (ih (hfj.trans hj) (hgk.trans hk) hfp hgp)
      have hfg : f = g := by
        cases f
        cases g
        simp_all
      exact h.distinct j k ⟨hj256, hj⟩ ⟨hk256, hk⟩ (by rw [hf, hg, hfg])

/-- Settles O44: (a) is the invariant's own clause, `w` has a phrase as every code below `next` has, and phrases are
distinct. -/
theorem encoderPhrasesAreDistinct : Obligations.EncoderPhrasesAreDistinct := by
  intro s hi
  have hsome {k : Nat} (hk : k < s.enc.next.toNat) : ∃ w, s.enc.phrase k = some w := by
    obtain ⟨w, hw, -⟩ := phraseIn_some hi.enc.core.chained k (.inr hk)
    exact ⟨w, hw⟩
  refine ⟨hi.enc.core.entry, fun hv => ?_, fun j k hj hk hjk => ?_⟩
  · obtain ⟨w, hw⟩ := hsome (hi.enc.w_code_lt hv)
    exact ⟨w, hi.enc.w_code_lt hv, hw⟩
  · obtain ⟨w, hw⟩ := hsome hk
    exact hi.enc.phrase_inj hj hk (hjk.trans hw) hw

/-- Settles O45: a hit stores the pair, which is the phrase `w ++ [c]`; a code with that phrase stores the pair, since
only `p` has phrase `w`. -/
theorem camHitIffPhraseIsAKey : Obligations.CamHitIffPhraseIsAKey := by
  intro s p c w hi hp hw k
  have hc := hi.enc.core.chained
  have hne : w ≠ [] := phraseIn_ne_nil hc hp hw
  rw [hi.enc.camFind_iff]
  constructor
  · rintro ⟨⟨h256, hk⟩, hr⟩
    exact ⟨hk, (phraseIn_snoc hc hk hne).2 ⟨h256, _, hr, hw, rfl⟩⟩
  · rintro ⟨hk, hph⟩
    obtain ⟨h256, e, he, hpre, rfl⟩ := (phraseIn_snoc hc hk hne).1 hph
    have hlt := hi.enc.core.prefixCode_lt ⟨h256, hk⟩ he
    obtain rfl := BitVec.eq_of_toNat_eq (hi.enc.phrase_inj (hlt.trans hk) hp hpre hw)
    exact ⟨⟨h256, hk⟩, he⟩

end Sys2Proof.Machine
end

section
/-! The command port, the sinks and the register window (spec/20_memory.md R61 to R74): in what order words are offered,
what a turn of the host or of a sink answers, and what a command does to the streams and to the dictionary entries. -/

namespace Sys2Proof.Machine

/-! ### No step stops -/

section
variable {p : Params} {u : UnitCore}

/-- The phrase of a code below `next` fits the phrase buffer (10_state.md R33). -/
theorem UnitCore.Inv.phrase_fits (h : u.Inv p) {k : Nat} (hk : k < u.next.toNat) :
    ∃ w, phraseIn u.dict u.next.toNat k = some w ∧ w.length ≤ p.phraseCap := by
  obtain ⟨w, hw, -, hlen⟩ := phraseIn_some h.chained k (.inr hk)
  refine ⟨w, hw, ?_⟩
  have := h.next_le
  unfold Params.phraseCap
  split <;> omega

/-- `first(u, k)` answers for every code below `next` (10_state.md R31). -/
theorem UnitCore.Inv.firstSym_answers (h : u.Inv p) {c : Code} (hc : c.toNat < u.next.toNat) :
    ∃ x, firstSym u.dict u.next p.phraseCap c = .ok x := by
  obtain ⟨w, hw, hlen⟩ := h.phrase_fits hc
  obtain ⟨x, -, -, hx⟩ := firstSym_eq h.chained _ c (.inr hc) hw hlen
  exact ⟨x, hx⟩

/-- The sequencer answers for every code below `next`: the phrase buffer never overflows (10_state.md R34). -/
theorem UnitCore.Inv.walk_answers (h : u.Inv p) {c : Code} (hc : c.toNat < u.next.toNat) :
    ∃ w, walk u.dict u.next p.phraseCap c [] = .ok w := by
  obtain ⟨w, hw, hlen⟩ := h.phrase_fits hc
  exact ⟨_, walk_eq h.chained _ c [] (.inr hc) hw hlen⟩

/-- DictWrite's requires clause is met while the dictionary is not full (20_memory.md R71). -/
theorem UnitCore.Inv.dictWrite_answers (h : u.Inv p) (hn : u.next.toNat ≠ p.dictCap) {c : Code}
    (hc : c.toNat < u.next.toNat) (x : Symbol) : ∃ m, dictWrite p u.dict u.next c x = .ok m :=
  ⟨_, dictWrite_ok.2 ⟨⟨h.next_ge, lt_of_le_of_ne h.next_le hn, hc⟩, rfl⟩⟩

end

/-- The machine does not stop: neither a fault nor a refusal. -/
def Answers (a : Answer) : Prop := ∃ t, a = .next t

theorem Answers.next (t : State) : Answers (.next t) := ⟨t, rfl⟩

theorem Answers.ite {c : Prop} [Decidable c] {a b : Answer} (ha : c → Answers a) (hb : ¬ c → Answers b) :
    Answers (if c then a else b) := by
  split
  · exact ha ‹c›
  · exact hb ‹¬ c›

section
variable {s : State}

theorem Answers.unlessIllegal {k : Answer} (h : Answers k) : Answers (unlessIllegal s k) :=
  .ite (fun _ => .next s) fun _ => h

theorem Answers.unlessEncDiscards {k : Answer} (h : Answers k) : Answers (unlessEncDiscards s k) :=
  .unlessIllegal <| .ite (fun _ => .next s) fun _ => h

theorem Answers.unlessDecDiscards {k : Answer} (h : Answers k) : Answers (unlessDecDiscards s k) :=
  .unlessIllegal <| .ite (fun _ => .next s) fun _ => h

theorem encMiss_answers (hi : Inv s) (hw : s.enc.wValid = true) (x : Symbol) : Answers (encMiss x s) := by
  refine .ite (fun _ => .next _) fun hn => ?_
  obtain ⟨m, hm⟩ := hi.enc.core.dictWrite_answers hn (hi.enc.w_code_lt hw) x
  rw [hm]
  exact .next _

theorem execEncSym_answers (hi : Inv s) (x : Operand) : Answers (execEncSym x s) := by
  refine .unlessEncDiscards <| .ite (fun _ => ?_) fun _ => .next _
  rcases symbolOf x with _ | c
  · exact .next _
  refine .ite (fun hw => ?_) fun _ => .next _
  rcases camFind s.enc.dict s.enc.next s.enc.wCode c with _ | k
  · exact encMiss_answers hi hw c
  · exact .next _

/-- The walk from `k` runs in the dictionary that holds the new entry, where `k` is below `next` even for SELFREF
(42_decoder.md R183). -/
theorem decNext_answers (hi : Inv s) (hp : s.dec.havePrev = true) {k c : Code} (hk : k.toNat ≤ s.dec.next.toNat)
    (hc : c.toNat < s.dec.next.toNat) : Answers (decNext k c s) := by
  have hd := hi.dec.core
  refine .ite (fun _ => .next _) fun hn => ?_
  obtain ⟨x, hx⟩ := hd.firstSym_answers hc
  obtain ⟨m, hm⟩ := hd.dictWrite_answers hn (hi.dec.prev_lt hp) x
  have hlt : k.toNat < (s.dec.next + 1).toNat := by
    rw [next_succ hi.params (lt_of_le_of_ne hd.next_le hn)]
    omega
  obtain ⟨w, hw⟩ := (hd.insert hi.params hm 0 0).walk_answers hlt
  simp only [hx, hm, hw]
  exact .next _

theorem classify_known {d : DecUnit} {k : Operand} (h : classify d k = .known) :
    d.havePrev = true ∧ k.toNat < d.next.toNat := by
  unfold classify at h
  split_ifs at h with hp hk
  · exact ⟨hp, hk⟩
  · cases h' : symbolOf k <;> simp [h'] at h

theorem classify_selfRef {d : DecUnit} {k : Operand} (h : classify d k = .selfRef) :
    d.havePrev = true ∧ k.toNat = d.next.toNat := by
  unfold classify at h
  split_ifs at h with hp _ hk
  · exact ⟨hp, hk⟩
  · cases h' : symbolOf k <;> simp [h'] at h

theorem execDecCode_answers (hi : Inv s) (k : Operand) : Answers (execDecCode k s) := by
  refine .unlessDecDiscards <| .ite (fun _ => ?_) fun _ => .next _
  cases hk : classify s.dec k with
  | first => exact .next _
  | firstBad => exact .next _
  | known =>
    obtain ⟨hp, hlt⟩ := classify_known hk
    exact decNext_answers hi hp hlt.le hlt
  | selfRef =>
    obtain ⟨hp, heq⟩ := classify_selfRef hk
    exact decNext_answers hi hp heq.le (hi.dec.prev_lt hp)
  | bad => exact .next _

/-- Under the invariant every command answers: what DictRead and DictWrite require is met and the phrase fits its
buffer. -/
theorem exec_answers (hi : Inv s) (i : Instr) : Answers (exec i s) := by
  cases i with
  | nop => exact .unlessIllegal (.next _)
  | encStart => exact .unlessEncDiscards (.next _)
  | encSym x => exact execEncSym_answers hi x
  | encEnd => exact .unlessEncDiscards <| .ite (fun _ => .next _) fun _ => .next _
  | encClear => exact .unlessIllegal (.next _)
  | decStart => exact .unlessDecDiscards (.next _)
  | decCode k => exact execDecCode_answers hi k
  | decEnd =>
    exact .unlessDecDiscards <| .ite (fun _ => .ite (fun _ => .next _) fun _ => .next _) fun _ => .next _
  | decClear => exact .unlessIllegal (.next _)
  | blkClear => exact .next _
  | illegalAB w => exact .unlessIllegal (.next _)
  | illegalCF w => exact .unlessIllegal (.next _)

theorem blockTurn_answers (hi : Inv s) : Answers (blockTurn s) := by
  unfold blockTurn
  rcases s.port with _ | w
  · exact .next _
  · refine .ite (fun _ => .next _) fun _ => ?_
    rw [perform_eq]
    exact exec_answers (s := s.setPort none) (hi.congr ⟨rfl, rfl, rfl, rfl, rfl⟩) _

end

/-- Settles O10: only a command could stop, and under the invariant none does. -/
theorem stepFromAnInvariantStateAnswersNext : Obligations.StepFromAnInvariantStateAnswersNext := by
  intro s hi
  rw [step]
  cases (nextTurn s).1 with
  | block => exact blockTurn_answers (hi.congr (sameBlock_nextTurn s))
  | _ => exact Answers.next _

/-! ### The command port -/

theorem instrOf_of_decode {w : Word} {i : Instr} (h : decode w = .ok i) : instrOf w = i := by
  rw [instrOf, h]

/-- With no turn listed, the block performs an offered word that is not held (log entry 2). -/
theorem step_default {s : State} {w : Word} (ht : s.host.turns = []) (hp : s.port = some w) (hh : held w s = false) :
    step s = exec (instrOf w) { s with port := none } := by
  have hn : nextTurn s = (.block, s) := by rw [nextTurn, ht, defaultTurn, hp]
  rw [step, hn]
  simp only [takeTurn, blockTurn, hp, hh, Bool.false_eq_true, if_false, perform_eq]
  rfl

/-- Settles O13: the block's turn on its listed turn and on the default one. -/
theorem stepRunsTheDecodedInstruction : Obligations.StepRunsTheDecodedInstruction := by
  intro s w i hp hh hd
  rw [← instrOf_of_decode hd]
  exact ⟨fun _ ht => step_block ht hp hh, fun ht => step_default ht hp hh⟩

/-- Settles O17: an accepted word leaves the port, a command touches neither port nor list; reset drops the word. -/
theorem offeredWordsStayInOrder : Obligations.OfferedWordsStayInOrder := by
  intro s t hst
  rcases step_cases hst with ⟨w, ha, hp, -, -, he⟩ | ⟨-, hr, rfl⟩ | ⟨-, -, hq⟩
  · obtain ⟨-, hport, hhost⟩ := (exec_effect he).frame
    exact .inr (.inr ⟨w, hp, hport, by rw [hhost], .inl ha⟩)
  · rcases hp : s.port with _ | w
    · exact .inl ⟨rfl, rfl⟩
    · exact .inr (.inr ⟨w, rfl, rfl, rfl, .inr hr⟩)
  · exact hq.port.imp_right .inl

/-! ### The sinks and the register window -/

/-- A code in its 32-bit word has zeros above bit 27 (20_memory.md R68). -/
theorem zext32_code (c : Code) : zext32 c = 0#4 ++ c := by
  rw [zext32, BitVec.setWidth_eq_append (by decide)]
  rfl

theorem encTakeTurn_cons {s : State} {c : Code} {rest : List Code} (h : s.encOut = c :: rest) :
    encTakeTurn s =
      { s with encOut := rest, host := { s.host with encTaken := s.host.encTaken ++ [zext32 c] } } := by
  simp only [encTakeTurn, h]

theorem encTakeTurn_nil {s : State} (h : s.encOut = []) : encTakeTurn s = s := by
  simp only [encTakeTurn, h]

theorem decTakeTurn_cons {s : State} {x : Symbol} {rest : List Symbol} (h : s.decOut = x :: rest) :
    decTakeTurn s = { s with decOut := rest, host := { s.host with decTaken := s.host.decTaken ++ [x] } } := by
  simp only [decTakeTurn, h]

theorem decTakeTurn_nil {s : State} (h : s.decOut = []) : decTakeTurn s = s := by
  simp only [decTakeTurn, h]

/-- Settles O19: the listed take, from a stream that is not empty and from an empty one. -/
theorem sinksTakeTheHead : Obligations.SinksTakeTheHead := by
  refine ⟨fun s ts c rest ht he => ?_, fun s ts ht he => ?_, fun s ts x rest ht he => ?_, fun s ts ht he => ?_⟩ <;>
    rw [step_listed ht, takeTurn]
  · rw [encTakeTurn_cons (by exact he), zext32_code]
  · rw [encTakeTurn_nil (by exact he)]
  · rw [decTakeTurn_cons (by exact he)]
  · rw [decTakeTurn_nil (by exact he)]

/-- An offset is a multiple of 4 when its low two bits are 0 (20_memory.md R62). -/
theorem aligned_iff (off : BitVec 6) : off.extractLsb' 0 2 = 0#2 ↔ off.toNat % 4 = 0 := by
  rw [← BitVec.toNat_inj, BitVec.extractLsb'_toNat]
  rfl

/-- The word offset is the byte offset over 4 (20_memory.md R61). -/
theorem wordOffset_eq (off : BitVec 6) : off.extractLsb' 2 4 = BitVec.ofNat 4 (off.toNat / 4) := by
  apply BitVec.eq_of_toNat_eq
  rw [BitVec.extractLsb'_toNat, BitVec.toNat_ofNat, Nat.shiftRight_eq_div_pow]

/-- An aligned 32-bit read replies with the register (20_memory.md R62). -/
theorem regRead_aligned {off : BitVec 6} (h : off.toNat % 4 = 0) (s : State) :
    regRead off 32 s = .value (register (BitVec.ofNat 4 (off.toNat / 4)) s) := by
  rw [regRead, if_pos ⟨(aligned_iff off).2 h, rfl⟩, wordOffset_eq]

/-- Any other read replies BUS_ERROR (20_memory.md R64). -/
theorem regRead_refused {off : BitVec 6} {width : Nat} (h : off.toNat % 4 ≠ 0 ∨ width ≠ 32) (s : State) :
    regRead off width s = .busError := by
  rw [regRead, if_neg]
  rintro ⟨ha, hw⟩
  exact h.elim (· ((aligned_iff off).1 ha)) (· hw)

/-- Settles O21: what an access replies; the register does not see the turns. -/
theorem registerAccessesReturnAndChangeNothing : Obligations.RegisterAccessesReturnAndChangeNothing := by
  refine ⟨fun s ts off width ht ha hw => ?_, fun s ts off width ht h => ?_, fun s ts off width value ht => ?_⟩ <;>
    rw [step_listed ht, takeTurn]
  · subst hw
    rw [regRead_aligned ha, register_congr (s := s) ⟨rfl, rfl, rfl, rfl, rfl⟩]
    rfl
  · rw [regRead_refused h]
    rfl
  · rfl

/-! ### The streams -/

/-- An encoder command appends at most one code, and only ENC_SYM and ENC_END append one (41_encoder.md R153, R154). -/
theorem EncEffect.emits {p : Params} {e e' : EncUnit} {i : Instr} {cs : List Code} (h : EncEffect p e i e' cs) :
    cs.length ≤ 1 ∧ (cs ≠ [] → i = .encEnd ∨ ∃ x, i = .encSym x) := by
  cases h with
  | missed x => exact ⟨le_rfl, fun _ => .inr ⟨x, rfl⟩⟩
  | flushed => exact ⟨le_rfl, fun _ => .inl rfl⟩
  | _ => exact ⟨Nat.zero_le 1, fun h => absurd rfl h⟩

/-- Of the decoder's commands only DEC_CODE appends symbols (42_decoder.md R183). -/
theorem DecEffect.emits {p : Params} {d d' : DecUnit} {i : Instr} {ph : List Symbol} (h : DecEffect p d i d' ph)
    (hne : ph ≠ []) : ∃ k, i = .decCode k := by
  cases h with
  | first k => exact ⟨k, rfl⟩
  | later k => exact ⟨k, rfl⟩
  | _ => exact absurd rfl hne

/-- A command appends to the encoder's stream what the encoder's effect emits, if it has one. -/
theorem Effect.encOut_grows {s t : State} {i : Instr} (h : Effect s i t) :
    ∃ cs, t.encOut = s.encOut ++ cs ∧ cs.length ≤ 1 ∧ (cs ≠ [] → i = .encEnd ∨ ∃ x, i = .encSym x) := by
  cases h with
  | enc _ he => exact ⟨_, rfl, he.emits⟩
  | _ => exact ⟨[], by simp⟩

/-- A command appends to the decoder's stream what the decoder's effect emits, if it has one. -/
theorem Effect.decOut_grows {s t : State} {i : Instr} (h : Effect s i t) :
    ∃ ph, t.decOut = s.decOut ++ ph ∧ (ph ≠ [] → ∃ k, i = .decCode k) := by
  cases h with
  | dec _ hd => exact ⟨_, rfl, hd.emits⟩
  | _ => exact ⟨[], by simp⟩

/-- Settles O33: an effect on a unit appends to that unit's stream, any other to neither. -/
theorem commandsOnlyAppendToTheStreams : Obligations.CommandsOnlyAppendToTheStreams :=
  fun _ _ _ h => ⟨(exec_effect h).encOut_grows, (exec_effect h).decOut_grows⟩

/-- The same block behind other streams and another outside world: `cs` and `xs` stand before its streams' items. -/
def State.behind (cs : List Code) (xs : List Symbol) (h : HostSide) (s : State) : State :=
  { s with encOut := cs ++ s.encOut, decOut := xs ++ s.decOut, host := h }

section
variable (cs : List Code) (xs : List Symbol) (h : HostSide) (s : State)

@[simp] theorem State.behind_params : (s.behind cs xs h).params = s.params := rfl
@[simp] theorem State.behind_blk : (s.behind cs xs h).blk = s.blk := rfl
@[simp] theorem State.behind_enc : (s.behind cs xs h).enc = s.enc := rfl
@[simp] theorem State.behind_dec : (s.behind cs xs h).dec = s.dec := rfl
@[simp] theorem State.behind_phraseBuf : (s.behind cs xs h).phraseBuf = s.phraseBuf := rfl
@[simp] theorem State.behind_encOut : (s.behind cs xs h).encOut = cs ++ s.encOut := rfl
@[simp] theorem State.behind_decOut : (s.behind cs xs h).decOut = xs ++ s.decOut := rfl
@[simp] theorem State.behind_port : (s.behind cs xs h).port = s.port := rfl
@[simp] theorem State.behind_host : (s.behind cs xs h).host = h := rfl

theorem State.emitCode_behind (c : Code) : (s.behind cs xs h).emitCode c = (s.emitCode c).behind cs xs h := by
  simp [State.emitCode, State.behind]

theorem State.emitPhrase_behind (p : List Symbol) :
    (s.behind cs xs h).emitPhrase p = (s.emitPhrase p).behind cs xs h := by
  simp [State.emitPhrase, State.behind]

end

/-- `a'` is the answer `a` behind `cs` and `xs`: the same fault, or the same next state. -/
inductive Behind (cs : List Code) (xs : List Symbol) (h : HostSide) : Answer → Answer → Prop
  | next {t t' : State} : t' = t.behind cs xs h → Behind cs xs h (.next t) (.next t')
  | fault (f : Fault) : Behind cs xs h (.fault f) (.fault f)

section
variable {cs : List Code} {xs : List Symbol} {h : HostSide} {s : State}

theorem Behind.of_next {a' : Answer} {t : State} (hb : Behind cs xs h (.next t) a') :
    a' = .next (t.behind cs xs h) := by
  cases hb with
  | next ht => rw [ht]

theorem Behind.exists_next {a : Answer} {t' : State} (hb : Behind cs xs h a (.next t')) :
    ∃ t, a = .next t ∧ t' = t.behind cs xs h := by
  cases hb with
  | next ht => exact ⟨_, rfl, ht⟩

theorem Behind.ite {c : Prop} [Decidable c] {a b a' b' : Answer} (ha : Behind cs xs h a a') (hb : Behind cs xs h b b') :
    Behind cs xs h (if c then a else b) (if c then a' else b') := by
  split
  · exact ha
  · exact hb

theorem Behind.unlessIllegal {k k' : Answer} (hk : Behind cs xs h k k') :
    Behind cs xs h (unlessIllegal s k) (unlessIllegal (s.behind cs xs h) k') :=
  .ite (c := s.blk.illegal = true) (.next rfl) hk

theorem Behind.unlessEncDiscards {k k' : Answer} (hk : Behind cs xs h k k') :
    Behind cs xs h (unlessEncDiscards s k) (unlessEncDiscards (s.behind cs xs h) k') :=
  .unlessIllegal <| .ite (c := s.enc.state = .error) (.next rfl) hk

theorem Behind.unlessDecDiscards {k k' : Answer} (hk : Behind cs xs h k k') :
    Behind cs xs h (unlessDecDiscards s k) (unlessDecDiscards (s.behind cs xs h) k') :=
  .unlessIllegal <| .ite (c := s.dec.state = .error) (.next rfl) hk

theorem encMiss_behind (x : Symbol) : Behind cs xs h (encMiss x s) (encMiss x (s.behind cs xs h)) := by
  refine .ite (c := s.enc.next.toNat = s.params.dictCap) (.next rfl) ?_
  simp only [State.behind_params, State.behind_enc, State.emitCode_behind]
  rcases dictWrite s.params s.enc.dict s.enc.next s.enc.wCode x with f | m
  · exact .fault _
  · exact .next rfl

theorem execEncSym_behind (x : Operand) : Behind cs xs h (execEncSym x s) (execEncSym x (s.behind cs xs h)) := by
  refine .unlessEncDiscards <| .ite (c := s.enc.state = .active) ?_ (.next rfl)
  rcases symbolOf x with _ | c
  · exact .next rfl
  refine .ite (c := s.enc.wValid = true) ?_ (.next rfl)
  simp only [State.behind_enc]
  rcases camFind s.enc.dict s.enc.next s.enc.wCode c with _ | k
  · exact encMiss_behind c
  · exact .next rfl

theorem encFlush_behind : encFlush (s.behind cs xs h) = (encFlush s).behind cs xs h := by
  simp only [encFlush, State.behind_enc, State.emitCode_behind]
  split <;> rfl

theorem execEncEnd_behind : Behind cs xs h (execEncEnd s) (execEncEnd (s.behind cs xs h)) := by
  refine .unlessEncDiscards <| .ite (c := s.enc.state = .active) ?_ (.next rfl)
  rw [encFlush_behind]
  exact .next rfl

theorem decNext_behind (k c : Code) : Behind cs xs h (decNext k c s) (decNext k c (s.behind cs xs h)) := by
  refine .ite (c := s.dec.next.toNat = s.params.dictCap) (.next rfl) ?_
  simp only [State.behind_params, State.behind_dec, State.emitPhrase_behind]
  rcases firstSym s.dec.dict s.dec.next s.params.phraseCap c with f | x
  · exact .fault _
  dsimp only
  rcases dictWrite s.params s.dec.dict s.dec.next s.dec.prev x with f | m
  · exact .fault _
  dsimp only
  rcases walk m (s.dec.next + 1) s.params.phraseCap k [] with f | ph
  · exact .fault _
  · exact .next rfl

theorem execDecCode_behind (k : Operand) : Behind cs xs h (execDecCode k s) (execDecCode k (s.behind cs xs h)) := by
  refine .unlessDecDiscards <| .ite (c := s.dec.state = .active) ?_ (.next rfl)
  rw [State.behind_dec]
  cases classify s.dec k with
  | first x =>
    refine .next ?_
    rw [decFirst, State.emitPhrase_behind]
    rfl
  | firstBad => exact .next rfl
  | known => exact decNext_behind k k
  | selfRef => exact decNext_behind k s.dec.prev
  | bad => exact .next rfl

theorem execDecEnd_behind : Behind cs xs h (execDecEnd s) (execDecEnd (s.behind cs xs h)) :=
  .unlessDecDiscards <|
    .ite (c := s.dec.state = .active) (.ite (c := s.dec.havePrev = true) (.next rfl) (.next rfl)) (.next rfl)

/-- No command reads what stands in the streams or outside: behind other items it does the same. -/
theorem exec_behind (i : Instr) : Behind cs xs h (exec i s) (exec i (s.behind cs xs h)) := by
  cases i with
  | nop => exact .unlessIllegal (.next rfl)
  | encStart => exact .unlessEncDiscards (.next rfl)
  | encSym x => exact execEncSym_behind x
  | encEnd => exact execEncEnd_behind
  | encClear => exact .unlessIllegal (.next rfl)
  | decStart => exact .unlessDecDiscards (.next rfl)
  | decCode k => exact execDecCode_behind k
  | decEnd => exact execDecEnd_behind
  | decClear => exact .unlessIllegal (.next rfl)
  | blkClear => exact .next rfl
  | illegalAB w => exact .unlessIllegal (.next rfl)
  | illegalCF w => exact .unlessIllegal (.next rfl)

end

/-- A command that answers behind some items answers alike behind any others. -/
theorem exec_behind_next {i : Instr} {s t : State} {cs : List Code} {xs : List Symbol} {h : HostSide}
    (hst : exec i (s.behind cs xs h) = .next t) :
    ∃ t₀ : State, t = t₀.behind cs xs h ∧
      ∀ cs' xs' h', exec i (s.behind cs' xs' h') = .next (t₀.behind cs' xs' h') := by
  have hb : Behind cs xs h (exec i s) (exec i (s.behind cs xs h)) := exec_behind i
  rw [hst] at hb
  obtain ⟨t₀, hs, ht⟩ := hb.exists_next
  refine ⟨t₀, ht, fun cs' xs' h' => ?_⟩
  have hb' : Behind cs' xs' h' (exec i s) (exec i (s.behind cs' xs' h')) := exec_behind i
  rw [hs] at hb'
  exact hb'.of_next

/-- Settles O20: a take removes the first item, and the state stands behind it as it stands behind none. -/
theorem sinkTakesCommuteWithCommands : Obligations.SinkTakesCommuteWithCommands := by
  intro i s t hst
  refine ⟨fun hne => ?_, fun hne => ?_⟩
  · obtain ⟨c, rest, he⟩ := List.exists_cons_of_ne_nil hne
    have hs : s = State.behind [c] [] s.host { s with encOut := rest } := by
      show s = { s with encOut := c :: rest }
      rw [← he]
    rw [hs] at hst
    obtain ⟨t₀, rfl, hall⟩ := exec_behind_next hst
    rw [encTakeTurn_cons he]
    exact hall [] [] _
  · obtain ⟨x, rest, he⟩ := List.exists_cons_of_ne_nil hne
    have hs : s = State.behind [] [x] s.host { s with decOut := rest } := by
      show s = { s with decOut := x :: rest }
      rw [← he]
    rw [hs] at hst
    obtain ⟨t₀, rfl, hall⟩ := exec_behind_next hst
    rw [decTakeTurn_cons he]
    exact hall [] [] _

/-! ### The dictionary entries -/

/-- Every valid code of `u` is valid in `v`, with the same entry. -/
def UnitCore.EntriesKept (u v : UnitCore) : Prop :=
  ∀ k, u.validEntry k → v.validEntry k ∧ Memory.read v.dict k = Memory.read u.dict k

/-- DictWrite stores at `next`, which is no valid code (20_memory.md R71). -/
theorem UnitCore.Inv.entriesKept_insert {p : Params} {u : UnitCore} (h : u.Inv p) (hp : p.wf) {c : Code} {x : Symbol}
    {m : Memory} (hm : dictWrite p u.dict u.next c x = .ok m) (ic oc : Count) :
    u.EntriesKept { u with dict := m, next := u.next + 1, inCount := ic, outCount := oc } := by
  obtain ⟨⟨-, hlt, -⟩, rfl⟩ := dictWrite_ok.1 hm
  rintro k ⟨h1, h2⟩
  refine ⟨⟨h1, ?_⟩, ?_⟩
  · show k < (u.next + 1).toNat
    rw [next_succ hp hlt]
    omega
  · show Memory.read (Memory.write _ _ _) k = _
    rw [Memory.read_write h.dict_wf, if_neg h2.ne]

/-- Of the encoder's commands only START and CLEAR write `next` or the array other than by DictWrite. -/
theorem EncEffect.entriesKept {p : Params} {e e' : EncUnit} {i : Instr} {cs : List Code} (h : EncEffect p e i e' cs)
    (hp : p.wf) (hi : e.Inv p) (hs : i ≠ .encStart) (hc : i ≠ .encClear) :
    e.toUnitCore.EntriesKept e'.toUnitCore := by
  cases h with
  | opened => exact absurd rfl hs
  | cleared => exact absurd rfl hc
  | missed x m _ _ _ _ _ hm => exact hi.core.entriesKept_insert hp hm _ _
  | _ => exact fun _ hk => ⟨hk, rfl⟩

/-- Of the decoder's commands only START and CLEAR write `next` or the array other than by DictWrite. -/
theorem DecEffect.entriesKept {p : Params} {d d' : DecUnit} {i : Instr} {ph : List Symbol}
    (h : DecEffect p d i d' ph) (hp : p.wf) (hi : d.Inv p) (hs : i ≠ .decStart) (hc : i ≠ .decClear) :
    d.toUnitCore.EntriesKept d'.toUnitCore := by
  cases h with
  | opened => exact absurd rfl hs
  | cleared => exact absurd rfl hc
  | later k c x m ph _ _ _ _ _ hm => exact hi.core.entriesKept_insert hp hm _ _
  | _ => exact fun _ hk => ⟨hk, rfl⟩

theorem Effect.encEntriesKept {s t : State} {i : Instr} (h : Effect s i t) (hi : Inv s) (hs : i ≠ .encStart)
    (hc : i ≠ .encClear) : s.enc.toUnitCore.EntriesKept t.enc.toUnitCore := by
  cases h with
  | enc _ he => exact he.entriesKept hi.params hi.enc hs hc
  | _ => exact fun _ hk => ⟨hk, rfl⟩

theorem Effect.decEntriesKept {s t : State} {i : Instr} (h : Effect s i t) (hi : Inv s) (hs : i ≠ .decStart)
    (hc : i ≠ .decClear) : s.dec.toUnitCore.EntriesKept t.dec.toUnitCore := by
  cases h with
  | dec _ hd => exact hd.entriesKept hi.params hi.dec hs hc
  | _ => exact fun _ hk => ⟨hk, rfl⟩

/-- Settles O46: an accepted word other than the unit's START and CLEAR writes at most the entry at `next`, and a turn
of the host or of a sink writes none. -/
theorem entriesAreWrittenOnce : Obligations.EntriesAreWrittenOnce := by
  intro s t hi hst hr
  rcases step_cases hst with ⟨w, ha, -, -, -, he⟩ | ⟨-, hr', -⟩ | ⟨-, -, hq⟩
  · have hef : Effect s.accepting (instrOf w) t := exec_effect he
    have hne {v : Word} {i : Instr} (h : acceptedWord s ≠ some v) (hv : encode i = v) : instrOf w ≠ i :=
      ne_of_word (fun hwv => h (by rw [ha, hwv])) hv
    exact ⟨fun h1 h2 => hef.encEntriesKept hi.accepting (hne h1 rfl) (hne h2 rfl),
      fun h1 h2 => hef.decEntriesKept hi.accepting (hne h1 rfl) (hne h2 rfl)⟩
  · exact absurd hr' hr
  · rw [hq.enc, hq.dec]
    exact ⟨fun _ _ _ hk => ⟨hk, rfl⟩, fun _ _ _ hk => ⟨hk, rfl⟩⟩

end Sys2Proof.Machine
end

section
/-! The decoder, the encoder and the assembler (spec/30_encoding.md R100 to R107): what the decoder answers for each class
of opcodes, which words are ill-formed, and which words a row of the opcode table covers. -/

namespace Sys2Proof.Machine

/-! ### The decoder, by class of opcodes -/

/-- The opcodes of operand class `NONE` (30_encoding.md R103, R104(b)). -/
abbrev zeroOperandOpcodes : List Nat := [0x0, 0x1, 0x3, 0x4, 0x5, 0x7, 0x8, 0x9]

theorem decode_reservedAB {w : Word} (h : (opcodeOf w).toNat = 0xA ∨ (opcodeOf w).toNat = 0xB) :
    decode w = .ok (.illegalAB w) := by
  rcases h with h | h <;> simp only [decode, h]

theorem decode_reservedCF {w : Word} (h : 0xC ≤ (opcodeOf w).toNat) : decode w = .ok (.illegalCF w) := by
  have hlt := (opcodeOf w).isLt
  obtain h | h | h | h : (opcodeOf w).toNat = 0xC ∨ (opcodeOf w).toNat = 0xD ∨ (opcodeOf w).toNat = 0xE ∨
      (opcodeOf w).toNat = 0xF := by omega
  all_goals simp only [decode, h]

theorem decode_reserved {w : Word} (h : 0xA ≤ (opcodeOf w).toNat) :
    decode w = .ok (.illegalAB w) ∨ decode w = .ok (.illegalCF w) := by
  by_cases hc : 0xC ≤ (opcodeOf w).toNat
  · exact .inr (decode_reservedCF hc)
  · exact .inl (decode_reservedAB (by omega))

theorem decode_zeroOperand {w : Word} (h : (opcodeOf w).toNat ∈ zeroOperandOpcodes) :
    ∃ i, decode w = decodeNone i w := by
  simp only [List.mem_cons, List.not_mem_nil, or_false] at h
  rcases h with h | h | h | h | h | h | h | h <;> rw [decode, h] <;> exact ⟨_, rfl⟩

/-- The decoder rejects exactly the words of 30_encoding.md R104(b). -/
theorem decode_eq_error_iff {w : Word} {r : Reject} :
    decode w = .error r ↔
      ((opcodeOf w).toNat ∈ zeroOperandOpcodes ∧ operandOf w ≠ 0) ∧ r = .operandNotZero w := by
  constructor
  · intro h
    refine ⟨?_, decode_error h⟩
    unfold decode at h
    split at h <;> rename_i hn
    all_goals first
      | exact ⟨by simp [hn], (decodeNone_error.1 h).1⟩
      | cases h
  · rintro ⟨⟨ho, hx⟩, hr⟩
    obtain ⟨i, hi⟩ := decode_zeroOperand ho
    rw [hi]
    exact decodeNone_error.2 ⟨hx, hr⟩

/-! ### Well-formed instructions and ill-formed words -/

theorem wellFormed_illegalAB {w : Word} :
    (Instr.illegalAB w).wellFormed = true ↔ (opcodeOf w).toNat = 0xA ∨ (opcodeOf w).toNat = 0xB := by
  have h := opcodeOf_topBits w 29 3 _ rfl (by decide) rfl
  simp only [Instr.wellFormed, beq_iff_eq, ← BitVec.toNat_inj, ← h, BitVec.toNat_ofNat]
  omega

theorem wellFormed_illegalCF {w : Word} :
    (Instr.illegalCF w).wellFormed = true ↔ 0xC ≤ (opcodeOf w).toNat := by
  have h := opcodeOf_topBits w 30 2 _ rfl (by decide) rfl
  have hlt := (opcodeOf w).isLt
  simp only [Instr.wellFormed, beq_iff_eq, ← BitVec.toNat_inj, ← h, BitVec.toNat_ofNat]
  omega

/-- The decoder reads only instructions that a word can spell. -/
theorem wellFormed_of_decode {w : Word} {i : Instr} (h : decode w = .ok i) : i.wellFormed = true := by
  unfold decode at h
  split at h <;> rename_i hn
  case h_11 | h_12 => cases h; exact wellFormed_illegalAB.2 (by omega)
  case h_13 =>
    cases h
    simp only [imp_false] at *
    exact wellFormed_illegalCF.2 (by omega)
  case h_3 | h_7 => cases h; rfl
  all_goals
    obtain ⟨-, rfl⟩ := decodeNone_ok.1 h
    rfl

theorem contains_reserved (o : BitVec 4) :
    [0xA#4, 0xB#4, 0xC#4, 0xD#4, 0xE#4, 0xF#4].contains o = true ↔ 0xA ≤ o.toNat := by
  revert o
  decide

theorem contains_zeroOperand (o : BitVec 4) :
    [0x0#4, 0x1#4, 0x3#4, 0x4#4, 0x5#4, 0x7#4, 0x8#4, 0x9#4].contains o = true ↔ o.toNat ∈ zeroOperandOpcodes := by
  revert o
  decide

/-- 30_encoding.md R104, its two cases as numbers. -/
theorem illFormed_iff {w : Word} :
    illFormed w = true ↔
      0xA ≤ (opcodeOf w).toNat ∨ (opcodeOf w).toNat ∈ zeroOperandOpcodes ∧ operandOf w ≠ 0 := by
  rw [illFormed, Bool.or_eq_true, Bool.and_eq_true, contains_reserved, contains_zeroOperand, bne_iff_ne]
  rfl

/-! ### The rows of the opcode table -/

theorem row_mem_opcodeTable (i : Instr) : i.row ∈ opcodeTable := by
  cases i <;> simp [opcodeTable, Instr.row]

/-- The word of a well-formed instruction is of the instruction's row: the laws of Laws/PerInstr.lean together. -/
theorem row_covers_encode (i : Instr) : Laws.EncodeRow.Statement i := by
  cases i with
  | nop => exact Laws.EncodeRow.nop
  | encStart => exact Laws.EncodeRow.encStart
  | encSym s => exact Laws.EncodeRow.encSym s
  | encEnd => exact Laws.EncodeRow.encEnd
  | encClear => exact Laws.EncodeRow.encClear
  | decStart => exact Laws.EncodeRow.decStart
  | decCode k => exact Laws.EncodeRow.decCode k
  | decEnd => exact Laws.EncodeRow.decEnd
  | decClear => exact Laws.EncodeRow.decClear
  | blkClear => exact Laws.EncodeRow.blkClear
  | illegalAB w => exact Laws.EncodeRow.illegalAB w
  | illegalCF w => exact Laws.EncodeRow.illegalCF w

/-- Two rows that share a word agree where both masks look. -/
theorem pattern_and_mask_comm_of_covers {r r' : OpcodeRow} {w : Word} (h : r.covers w = true)
    (h' : r'.covers w = true) : r.pattern &&& r'.mask = r'.pattern &&& r.mask := by
  simp only [OpcodeRow.covers, beq_iff_eq] at h h'
  rw [← h, ← h', BitVec.and_assoc, BitVec.and_assoc, BitVec.and_comm r.mask]

theorem row_eq_of_pattern_and_mask_comm :
    ∀ r ∈ opcodeTable, ∀ r' ∈ opcodeTable, r.pattern &&& r'.mask = r'.pattern &&& r.mask → r = r' := by
  decide

/-- A row covers a word exactly when it covers both fields of it. -/
theorem covers_iff_fields {r : OpcodeRow} {w : Word} :
    r.covers w = true ↔
      opcodeOf w &&& opcodeOf r.mask = opcodeOf r.pattern ∧
        operandOf w &&& operandOf r.mask = operandOf r.pattern := by
  rw [← covers_cmdWord, cmdWord_fields, cmdWord_fields, cmdWord_fields]

/-- A row of the table that has an opcode of class `NONE` asks for the operand 0. -/
theorem row_operand_zero :
    ∀ r ∈ opcodeTable, ∀ o : BitVec 4, o.toNat ∈ zeroOperandOpcodes → o &&& opcodeOf r.mask = opcodeOf r.pattern →
      operandOf r.mask = BitVec.allOnes 28 ∧ operandOf r.pattern = 0 := by
  decide

/-- No row covers a word of 30_encoding.md R104(b). -/
theorem not_covers_of_badOperand {r : OpcodeRow} {w : Word} (hr : r ∈ opcodeTable)
    (ho : (opcodeOf w).toNat ∈ zeroOperandOpcodes) (hx : operandOf w ≠ 0) : r.covers w = false := by
  refine Bool.eq_false_iff.2 fun hc => hx ?_
  obtain ⟨hop, hopd⟩ := covers_iff_fields.1 hc
  obtain ⟨hm, hp⟩ := row_operand_zero r hr _ ho hop
  rwa [hm, hp, BitVec.and_allOnes] at hopd

/-! ### The assembler -/

/-- An operand that fits its field is assembled into it. -/
theorem assemble_cmd_operand {m : String} {o : BitVec 4} (h : asmOpcode m = some (o, true)) (x : Operand) :
    assemble (.cmd m (some x.toNat)) = some (cmdWord o x) := by
  simp only [assemble, h, BitVec.ofNat_toNat, BitVec.setWidth_eq]
  exact if_pos x.isLt

theorem assemble_word (w : Word) : assemble (.word w.toNat) = some w := by
  simp only [assemble, BitVec.ofNat_toNat, BitVec.setWidth_eq]
  exact if_pos w.isLt

theorem assemble_cmd_of_too_wide (m : String) {v : Nat} (hv : 0x10000000 ≤ v) :
    assemble (.cmd m (some v)) = none := by
  simp only [assemble]
  split
  next heq => cases heq; exact if_neg (by omega)
  next heq => cases heq
  next => rfl

/-! ### The statements -/

/-- Settles O2: an encoded command has its own opcode and operand fields, and the word of a well-formed reserved row
has an opcode of that row. -/
theorem decodeOfEncode : Obligations.DecodeOfEncode := by
  intro i hi
  cases i with
  | encSym s => simp [encode, decode]
  | decCode k => simp [encode, decode]
  | illegalAB w => exact decode_reservedAB (wellFormed_illegalAB.1 hi)
  | illegalCF w => exact decode_reservedCF (wellFormed_illegalCF.1 hi)
  | _ => rfl

/-- Settles O3: the two kinds of ill-formed words by class of opcode, every other word by `instrOf_cases`. -/
theorem decoderReadsExactlyTheLegalWords : Obligations.DecoderReadsExactlyTheLegalWords := by
  intro w
  refine ⟨decode_reserved, fun hb => decode_eq_error_iff.2 ⟨hb, rfl⟩, fun hr hb => ?_, illFormed_iff⟩
  rcases instrOf_cases w with ⟨hw, -⟩ | ⟨-, hd, hn⟩
  · exact absurd (illFormed_iff.1 hw) (not_or.2 ⟨hr, hb⟩)
  · exact ⟨_, hd, encode_of_decode hd, wellFormed_of_decode hd, fun v => (hn v).1, fun v => (hn v).2⟩

/-- Settles O4: rows that share a word agree under both masks, and no two of the table do; the decoder answers the
instruction whose word it read, and rejects only words that no row covers. -/
theorem opcodeRowsDoNotOverlap : Obligations.OpcodeRowsDoNotOverlap := by
  refine ⟨fun w r hr r' hr' h h' =>
    row_eq_of_pattern_and_mask_comm r hr r' hr' (pattern_and_mask_comm_of_covers h h'), fun w i h => ?_,
    fun w r h row hrow => ?_⟩
  · have hc := row_covers_encode i (wellFormed_of_decode h)
    rw [encode_of_decode h] at hc
    exact ⟨row_mem_opcodeTable i, hc⟩
  · obtain ⟨⟨ho, hx⟩, -⟩ := decode_eq_error_iff.1 h
    exact not_covers_of_badOperand hrow ho hx

/-- Settles O5: each mnemonic has the opcode of its command, and an operand or literal that fits keeps its value. -/
theorem assemblerEmitsTheEncoding : Obligations.AssemblerEmitsTheEncoding := by
  refine ⟨fun i => ?_, assemble_word, fun m _ => assemble_cmd_of_too_wide m⟩
  cases i with
  | encSym s => exact assemble_cmd_operand rfl s
  | decCode k => exact assemble_cmd_operand rfl k
  | illegalAB w => exact assemble_word w
  | illegalCF w => exact assemble_word w
  | _ => rfl

/-- Settles O1: the ten words with a row are the words of their instructions, by O2; the two others have a zero-operand
opcode and an operand. -/
theorem specWordsDecode : Obligations.SpecWordsDecode :=
  ⟨decodeOfEncode .nop rfl, decodeOfEncode .encStart rfl, decodeOfEncode (.encSym 300) rfl,
    decodeOfEncode (.encSym 268435455) rfl, decodeOfEncode .encClear rfl, decodeOfEncode (.decCode 999999) rfl,
    decodeOfEncode .decEnd rfl, decodeOfEncode .blkClear rfl, decodeOfEncode (.illegalAB 0xB1234567#32) rfl,
    decodeOfEncode (.illegalCF 0xF0000000#32) rfl, decode_eq_error_iff.2 (by decide),
    decode_eq_error_iff.2 (by decide)⟩

end Sys2Proof.Machine
end

section
/-! The dispatch of accepted words (spec/40_dispatch.md R130 to R136): which words are discarded, what the block commands
and the ill-formed words do, and that a command of one unit runs alike whatever the rest of the block holds. -/

namespace Sys2Proof.Machine

/-! ### The checks that discard a word -/

theorem unlessIllegal_true {s : State} (h : s.blk.illegal = true) (k : Answer) : unlessIllegal s k = .next s := by
  rw [unlessIllegal, if_pos h]

theorem unlessEncDiscards_error {s : State} (h : s.enc.state = .error) (k : Answer) :
    unlessEncDiscards s k = .next s := by
  rw [unlessEncDiscards, if_pos h, unlessIllegal, ite_self]

theorem unlessDecDiscards_error {s : State} (h : s.dec.state = .error) (k : Answer) :
    unlessDecDiscards s k = .next s := by
  rw [unlessDecDiscards, if_pos h, unlessIllegal, ite_self]

/-- Every meaning but BLK_CLEAR's stands behind the first check of 40_dispatch.md R130. -/
theorem exec_eq_unlessIllegal {i : Instr} (hi : i ≠ .blkClear) (s : State) : ∃ k, exec i s = unlessIllegal s k := by
  cases i with
  | blkClear => exact absurd rfl hi
  | _ => exact ⟨_, rfl⟩

/-- Settles O27: every instruction but BLK_CLEAR meets the first check. -/
theorem illegalFlagDiscardsAllButBlkClear : Obligations.IllegalFlagDiscardsAllButBlkClear := by
  intro s i hb hi
  obtain ⟨k, hk⟩ := exec_eq_unlessIllegal hi s
  rw [hk, unlessIllegal_true hb]

/-- Settles O28: the three commands stand behind the second check of 40_dispatch.md R130. -/
theorem unitInErrorDiscardsAllButClear : Obligations.UnitInErrorDiscardsAllButClear :=
  ⟨fun _ h => ⟨unlessEncDiscards_error h _, fun _ => unlessEncDiscards_error h _, unlessEncDiscards_error h _⟩,
    fun _ h => ⟨unlessDecDiscards_error h _, fun _ => unlessDecDiscards_error h _, unlessDecDiscards_error h _⟩⟩

/-! ### Block commands and ill-formed words -/

/-- Settles O26: IllegalCommand records the word behind the first check. -/
theorem reservedOpcodesAreRecorded : Obligations.ReservedOpcodesAreRecorded :=
  fun _ _ => ⟨fun hb => ⟨unlessIllegal_false hb _, unlessIllegal_false hb _⟩,
    fun hb => ⟨unlessIllegal_true hb _, unlessIllegal_true hb _⟩⟩

/-- Only the exact word `0x90000000` is performed as BLK_CLEAR (40_dispatch.md R133). -/
theorem instrOf_ne_blkClear {w : Word} (hw : w ≠ 0x90000000#32) : instrOf w ≠ .blkClear := by
  intro h
  rw [← encode_instrOf w, h] at hw
  exact hw rfl

/-- While the block is illegal every word but `0x90000000` is discarded (40_dispatch.md R130, R133). -/
theorem exec_instrOf_of_illegal {s : State} {w : Word} (hb : s.blk.illegal = true) (hw : w ≠ 0x90000000#32) :
    exec (instrOf w) s = .next s :=
  illegalFlagDiscardsAllButBlkClear s (instrOf w) hb (instrOf_ne_blkClear hw)

/-- The first ill-formed word is recorded (40_dispatch.md R134). -/
theorem exec_instrOf_of_illFormed {s : State} {w : Word} (hb : s.blk.illegal = false) (hw : illFormed w = true) :
    exec (instrOf w) s = .next { s with blk := { illegal := true, illegalWord := w } } := by
  obtain ⟨hAB, hCF⟩ := (reservedOpcodesAreRecorded s w).1 hb
  rcases instrOf_cases w with ⟨-, h | h⟩ | ⟨h, -⟩
  · rw [h, hAB]
  · rw [h, hCF]
  · rw [hw] at h
    cases h

/-- Settles O25: NOP answers the state whether it is performed or discarded; the other words by O27. -/
theorem nopAndBlkClear : Obligations.NopAndBlkClear := by
  refine ⟨rfl, rfl, fun s => ite_self _, fun s => rfl, fun x hx => illFormed_iff.2 (.inr ?_), fun s w hb hw => ?_⟩
  · change (opcodeOf (cmdWord 0x0#4 x)).toNat ∈ zeroOperandOpcodes ∧ operandOf (cmdWord 0x0#4 x) ≠ 0
    rw [opcodeOf_cmdWord, operandOf_cmdWord]
    exact ⟨by decide, hx⟩
  · rw [perform_eq, exec_instrOf_of_illegal hb hw]

/-- Settles O14: the accepted word is performed in the state without it, where `blk` is as it was. -/
theorem illFormedWordFreezesTheBlock : Obligations.IllFormedWordFreezesTheBlock := by
  intro s w ts ht hp hh
  rw [step_block ht hp hh]
  refine ⟨fun hb hw => exec_instrOf_of_illFormed hb hw, fun hb hw => exec_instrOf_of_illegal hb hw, ?_⟩
  rintro rfl
  rfl

/-! ### The two units -/

/-- The answer with its next state changed by `f`; a stop stays as it is. -/
def mapNext (f : State → State) : Answer → Answer
  | .next t => .next (f t)
  | .fault r => .fault r
  | .refused r => .refused r

/-! `mapNext` goes through the branches of a meaning and through the checks before it. -/

theorem ite_eq_mapNext {f : State → State} {c : Prop} [Decidable c] {a a' b b' : Answer} (ha : a' = mapNext f a)
    (hb : b' = mapNext f b) : (if c then a' else b') = mapNext f (if c then a else b) := by
  rw [ha, hb, apply_ite (mapNext f)]

theorem unlessIllegal_eq_mapNext {f : State → State} {s : State} {k k' : Answer}
    (hb : (f s).blk.illegal = s.blk.illegal) (hk : k' = mapNext f k) :
    unlessIllegal (f s) k' = mapNext f (unlessIllegal s k) := by
  rw [unlessIllegal, hb]
  exact ite_eq_mapNext rfl hk

/-- The state `r` with the encoder and the code stream of `s`. -/
def State.withEncoderOf (r s : State) : State := { r with enc := s.enc, encOut := s.encOut }

@[simp] theorem State.withEncoderOf_params (r s : State) : (r.withEncoderOf s).params = r.params := rfl
@[simp] theorem State.withEncoderOf_enc (r s : State) : (r.withEncoderOf s).enc = s.enc := rfl

theorem State.withEncoderOf_eq {r s : State} (he : r.enc = s.enc) (ho : r.encOut = s.encOut) :
    r.withEncoderOf s = r := by
  rw [State.withEncoderOf, ← he, ← ho]

/-- The state `r` with the decoder and the symbol stream of `s`. -/
def State.withDecoderOf (r s : State) : State := { r with dec := s.dec, decOut := s.decOut }

@[simp] theorem State.withDecoderOf_params (r s : State) : (r.withDecoderOf s).params = r.params := rfl
@[simp] theorem State.withDecoderOf_dec (r s : State) : (r.withDecoderOf s).dec = s.dec := rfl

theorem State.withDecoderOf_eq {r s : State} (hd : r.dec = s.dec) (ho : r.decOut = s.decOut) :
    r.withDecoderOf s = r := by
  rw [State.withDecoderOf, ← hd, ← ho]

section
variable {r s : State} (hp : r.params = s.params) (hb : r.blk.illegal = s.blk.illegal)

include hb in
theorem unlessEncDiscards_withEncoderOf {k k' : Answer} (hk : k' = mapNext r.withEncoderOf k) :
    unlessEncDiscards (r.withEncoderOf s) k' = mapNext r.withEncoderOf (unlessEncDiscards s k) :=
  unlessIllegal_eq_mapNext hb <| ite_eq_mapNext (c := s.enc.state = .error) rfl hk

include hp in
theorem encMiss_withEncoderOf (x : Symbol) :
    encMiss x (r.withEncoderOf s) = mapNext r.withEncoderOf (encMiss x s) := by
  simp only [encMiss, State.withEncoderOf_params, State.withEncoderOf_enc, hp]
  refine ite_eq_mapNext rfl ?_
  rcases dictWrite s.params s.enc.dict s.enc.next s.enc.wCode x with f | m <;> rfl

include hp hb in
theorem execEncSym_withEncoderOf (x : Operand) :
    execEncSym x (r.withEncoderOf s) = mapNext r.withEncoderOf (execEncSym x s) := by
  refine unlessEncDiscards_withEncoderOf hb <| ite_eq_mapNext (c := s.enc.state = .active) ?_ rfl
  rcases symbolOf x with _ | c
  · rfl
  refine ite_eq_mapNext (c := s.enc.wValid = true) ?_ rfl
  rw [State.withEncoderOf_enc]
  rcases camFind s.enc.dict s.enc.next s.enc.wCode c with _ | k
  · exact encMiss_withEncoderOf hp c
  · rfl

theorem encFlush_withEncoderOf : encFlush (r.withEncoderOf s) = r.withEncoderOf (encFlush s) := by
  rw [encFlush, encFlush, apply_ite r.withEncoderOf]
  rfl

include hb in
theorem execEncEnd_withEncoderOf : execEncEnd (r.withEncoderOf s) = mapNext r.withEncoderOf (execEncEnd s) := by
  refine unlessEncDiscards_withEncoderOf hb <| ite_eq_mapNext (c := s.enc.state = .active) ?_ rfl
  rw [encFlush_withEncoderOf]
  rfl

include hp hb in
/-- An encoder command runs in any block around the same encoder, with the same parameter and illegal flag, as it runs
in its own (40_dispatch.md R136). -/
theorem exec_withEncoderOf {i : Instr} (hi : i = .encStart ∨ (∃ x, i = .encSym x) ∨ i = .encEnd ∨ i = .encClear) :
    exec i (r.withEncoderOf s) = mapNext r.withEncoderOf (exec i s) := by
  rcases hi with rfl | ⟨x, rfl⟩ | rfl | rfl
  · exact unlessEncDiscards_withEncoderOf hb rfl
  · exact execEncSym_withEncoderOf hp hb x
  · exact execEncEnd_withEncoderOf hb
  · exact unlessIllegal_eq_mapNext (f := r.withEncoderOf) (s := s) hb rfl

include hb in
theorem unlessDecDiscards_withDecoderOf {k k' : Answer} (hk : k' = mapNext r.withDecoderOf k) :
    unlessDecDiscards (r.withDecoderOf s) k' = mapNext r.withDecoderOf (unlessDecDiscards s k) :=
  unlessIllegal_eq_mapNext hb <| ite_eq_mapNext (c := s.dec.state = .error) rfl hk

include hb in
theorem execDecEnd_withDecoderOf : execDecEnd (r.withDecoderOf s) = mapNext r.withDecoderOf (execDecEnd s) :=
  unlessDecDiscards_withDecoderOf hb <|
    ite_eq_mapNext (c := s.dec.state = .active) (ite_eq_mapNext (c := s.dec.havePrev = true) rfl rfl) rfl

variable (hbuf : r.phraseBuf = [])
include hbuf

theorem State.emitPhrase_withDecoderOf (p : List Symbol) :
    (r.withDecoderOf s).emitPhrase p = r.withDecoderOf (s.emitPhrase p) := by
  simp only [State.emitPhrase, State.withDecoderOf, hbuf]

include hp in
theorem decNext_withDecoderOf (k c : Code) :
    decNext k c (r.withDecoderOf s) = mapNext r.withDecoderOf (decNext k c s) := by
  simp only [decNext, State.withDecoderOf_params, State.withDecoderOf_dec, hp, State.emitPhrase_withDecoderOf hbuf]
  refine ite_eq_mapNext rfl ?_
  rcases firstSym s.dec.dict s.dec.next s.params.phraseCap c with f | x
  · rfl
  dsimp only
  rcases dictWrite s.params s.dec.dict s.dec.next s.dec.prev x with f | m
  · rfl
  dsimp only
  rcases walk m (s.dec.next + 1) s.params.phraseCap k [] with f | ph <;> rfl

include hp hb in
theorem execDecCode_withDecoderOf (k : Operand) :
    execDecCode k (r.withDecoderOf s) = mapNext r.withDecoderOf (execDecCode k s) := by
  refine unlessDecDiscards_withDecoderOf hb <| ite_eq_mapNext (c := s.dec.state = .active) ?_ rfl
  rw [State.withDecoderOf_dec]
  cases classify s.dec k with
  | first x =>
    dsimp only
    rw [decFirst, State.emitPhrase_withDecoderOf hbuf]
    rfl
  | known => exact decNext_withDecoderOf hp hbuf k k
  | selfRef => exact decNext_withDecoderOf hp hbuf k s.dec.prev
  | _ => rfl

include hp hb in
/-- A decoder command runs in any block around the same decoder, with the same parameter and illegal flag and no symbol
in the phrase buffer, as it runs in its own (40_dispatch.md R136, 10_state.md R34). -/
theorem exec_withDecoderOf {i : Instr} (hi : i = .decStart ∨ (∃ k, i = .decCode k) ∨ i = .decEnd ∨ i = .decClear) :
    exec i (r.withDecoderOf s) = mapNext r.withDecoderOf (exec i s) := by
  rcases hi with rfl | ⟨k, rfl⟩ | rfl | rfl
  · exact unlessDecDiscards_withDecoderOf hb rfl
  · exact execDecCode_withDecoderOf hp hb hbuf k
  · exact execDecEnd_withDecoderOf hb
  · exact unlessIllegal_eq_mapNext (f := r.withDecoderOf) (s := s) hb rfl

end

/-- Settles O29: run in its own block, the command shows what it leaves unchanged; run in the other block, what it
depends on. -/
theorem unitsAreIndependent : Obligations.UnitsAreIndependent := by
  constructor
  · intro i s s' t hi hst
    have run : ∀ r : State, r.params = s.params → r.blk.illegal = s.blk.illegal →
        exec i (r.withEncoderOf s) = .next (r.withEncoderOf t) := by
      intro r hp hb
      rw [exec_withEncoderOf hp hb hi, hst, mapNext]
    refine ⟨?_, fun he ho hp hb => ?_⟩
    · have ht : t = s.withEncoderOf t := Host.Outcome.next.inj (hst.symm.trans (run s rfl rfl))
      rw [ht]
      rfl
    · rw [← State.withEncoderOf_eq he ho]
      exact run s' hp hb
  · intro i s s' t hi hbuf hbuf' hst
    have run : ∀ r : State, r.params = s.params → r.blk.illegal = s.blk.illegal → r.phraseBuf = [] →
        exec i (r.withDecoderOf s) = .next (r.withDecoderOf t) := by
      intro r hp hb hr
      rw [exec_withDecoderOf hp hb hr hi, hst, mapNext]
    refine ⟨?_, fun hd ho hp hb => ?_⟩
    · have ht : t = s.withDecoderOf t := Host.Outcome.next.inj (hst.symm.trans (run s rfl rfl hbuf))
      rw [ht]
      rfl
    · rw [← State.withDecoderOf_eq hd ho]
      exact run s' hp hb hbuf'

end Sys2Proof.Machine
end

section
/-! The encoder's commands (spec/41_encoder.md R152 to R155), case by case, in a legal block whose encoder is not in
ERROR: what each answers, and that it has one of the effects of Laws/Effects.lean. -/

namespace Sys2Proof.Machine

section
variable {s : State}

theorem held_encStart : held 0x10000000#32 s = true ↔ s.encOut ≠ [] := by
  simp [held]

theorem held_encClear : held 0x40000000#32 s = true ↔ s.encOut ≠ [] := by
  simp [held]

/-- Settles O34: behind the checks ENC_START answers the opened unit. -/
theorem encStartOpensASession : Obligations.EncStartOpensASession :=
  ⟨rfl, fun _ => held_encStart, fun _ hb hs => unlessEncDiscards_false hb hs _⟩

/-- Settles O37: ENC_CLEAR stands behind the first check only, and the six registers show fields it resets. -/
theorem encClearReturnsToIdle : Obligations.EncClearReturnsToIdle := by
  refine ⟨rfl, fun _ => held_encClear, fun s hb => ?_⟩
  have hx : exec .encClear s = .next _ := unlessIllegal_false hb _
  refine ⟨hx, fun t ht i hi => ?_⟩
  obtain rfl := Host.Outcome.next.inj (hx.symm.trans ht)
  fin_cases hi <;> rfl

variable (hb : s.blk.illegal = false)
include hb

theorem exec_encEnd_of_not_active (hs : s.enc.state ≠ .error) (ha : s.enc.state ≠ .active) :
    exec .encEnd s = raiseEnc .sequenceError (encode .encEnd) s :=
  (unlessEncDiscards_false hb hs _).trans (if_neg ha)

theorem exec_encSym_of_not_active (hs : s.enc.state ≠ .error) (ha : s.enc.state ≠ .active) (x : Operand) :
    exec (.encSym x) s = raiseEnc .sequenceError (encode (.encSym x)) s :=
  (unlessEncDiscards_false hb hs _).trans (if_neg ha)

variable (ha : s.enc.state = .active)
include ha

theorem unlessEncDiscards_of_active (k : Answer) : unlessEncDiscards s k = k :=
  unlessEncDiscards_false hb (by rw [ha]; decide) k

theorem exec_encEnd_of_active :
    exec .encEnd s =
      .next ((encFlush s).setEnc { (encFlush s).enc with wValid := false, wCode := 0, state := .done }) :=
  (unlessEncDiscards_of_active hb ha _).trans (if_pos ha)

variable {x : Operand}

theorem exec_encSym_of_invalid (hx : 255 < x.toNat) :
    exec (.encSym x) s = raiseEnc .invalidSymbol (zext32 x) s := by
  rw [exec, execEncSym, unlessEncDiscards_of_active hb ha, if_pos ha, symbolOf_none.2 hx]

variable (hx : x.toNat ≤ 255)
include hx

theorem exec_encSym_of_empty (hw : s.enc.wValid = false) : exec (.encSym x) s = .next (encAdvance x s) := by
  rw [exec, execEncSym, unlessEncDiscards_of_active hb ha, if_pos ha, symbolOf_some.2 ⟨hx, rfl⟩]
  simp only [hw, Bool.false_eq_true, if_false, seedCode_setWidth hx]

variable (hw : s.enc.wValid = true)
include hw

theorem exec_encSym_of_hit {k : Nat} (hk : camFind s.enc.dict s.enc.next s.enc.wCode (x.setWidth 8) = some k) :
    exec (.encSym x) s = .next (encAdvance (BitVec.ofNat 28 k) s) := by
  rw [exec, execEncSym, unlessEncDiscards_of_active hb ha, if_pos ha, symbolOf_some.2 ⟨hx, rfl⟩]
  simp only [hw, if_true, hk]

variable (hk : camFind s.enc.dict s.enc.next s.enc.wCode (x.setWidth 8) = none)
include hk

theorem exec_encSym_of_miss : exec (.encSym x) s = encMiss (x.setWidth 8) s := by
  rw [exec, execEncSym, unlessEncDiscards_of_active hb ha, if_pos ha, symbolOf_some.2 ⟨hx, rfl⟩]
  simp only [hw, if_true, hk]

theorem exec_encSym_of_full (hn : s.enc.next.toNat = s.params.dictCap) :
    exec (.encSym x) s = raiseEnc .dictFull (zext32 s.enc.next) s :=
  (exec_encSym_of_miss hb ha hx hw hk).trans (if_pos hn)

theorem exec_encSym_of_insert (hn : s.enc.next.toNat ≠ s.params.dictCap) {m : Memory}
    (hm : dictWrite s.params s.enc.dict s.enc.next s.enc.wCode (x.setWidth 8) = .ok m) :
    exec (.encSym x) s = .next ((s.emitCode s.enc.wCode).setEnc
      { s.enc with
        outCount := addCount s.enc.outCount 1, dict := m, next := s.enc.next + 1, wCode := x,
        inCount := addCount s.enc.inCount 1 }) := by
  rw [exec_encSym_of_miss hb ha hx hw hk, encMiss, if_neg hn, hm, seedCode_setWidth hx]

end

/-- A next code in its 32-bit word has zeros above bit 28 (60_exceptions.md R224). -/
theorem zext32_nextCode (n : NextCode) : zext32 n = 0#3 ++ n := by
  apply BitVec.eq_of_toNat_eq
  rw [zext32_toNat (by decide), BitVec.toNat_append]
  simp

/-- Settles O36: ENC_END in each state, and in ACTIVE with and without a code to flush. -/
theorem encEndEmitsTheLastCode : Obligations.EncEndEmitsTheLastCode := by
  refine ⟨rfl, fun s hb hs => ⟨exec_encEnd_of_not_active hb hs, fun ha hw => ?_, fun ha hw => ?_⟩⟩
  · rw [exec_encEnd_of_active hb ha, encFlush, if_pos hw]
    rfl
  · rw [exec_encEnd_of_active hb ha, encFlush, if_neg (by simp [hw])]
    rfl

/-- Settles O35: under the invariant CamFind answers the valid code that stores the pair, if there is one, and a miss
stores the pair at `next`. -/
theorem encSymIsOneGreedyStep : Obligations.EncSymIsOneGreedyStep := by
  refine ⟨fun _ => rfl, ?_⟩
  intro s x hi hb hs raised pair
  refine ⟨?_, ?_, ?_, ?_, ?_⟩
  · exact fun ha => exec_encSym_of_not_active hb hs ha x
  · intro ha hx
    rw [exec_encSym_of_invalid hb ha hx, zext32_code]
    rfl
  · exact fun ha hx hw => exec_encSym_of_empty hb ha hx hw
  · intro k ha hx hw hv hr
    rw [exec_encSym_of_hit hb ha hx hw (hi.enc.camFind_iff.2 ⟨hv, hr⟩), BitVec.ofNat_toNat, BitVec.setWidth_eq,
      encAdvance, ← hw]
    rfl
  · intro ha hx hw hmiss
    have hk := (camFind_none hi.enc.core.dict_wf).2 fun k h1 h2 => hmiss k ⟨h1, h2⟩
    refine ⟨fun hn => ?_, fun hn => ?_⟩
    · rw [exec_encSym_of_full hb ha hx hw hk hn, zext32_nextCode]
      rfl
    · obtain ⟨m, hm⟩ := hi.enc.core.dictWrite_answers hn (hi.enc.w_code_lt hw) (x.setWidth 8)
      refine ⟨m, exec_encSym_of_insert hb ha hx hw hk hn hm, fun j => ?_⟩
      obtain ⟨-, rfl⟩ := dictWrite_ok.1 hm
      exact Memory.read_write hi.enc.core.dict_wf _ _ _

/-! ### A command that is not discarded is performed -/

/-- The command has one of the encoder's effects and answers the state after it. -/
def EncPerforms (s : State) (i : Instr) : Prop :=
  ∃ e cs, EncEffect s.params s.enc i e cs ∧ exec i s = .next { s with enc := e, encOut := s.encOut ++ cs }

theorem EncPerforms.silent {s : State} {i : Instr} {e : EncUnit} (he : EncEffect s.params s.enc i e [])
    (hx : exec i s = .next (s.setEnc e)) : EncPerforms s i := by
  refine ⟨e, [], he, ?_⟩
  rw [hx, List.append_nil]
  rfl

theorem encPerforms_encSym {s : State} (hi : s.enc.Inv s.params) (hb : s.blk.illegal = false)
    (ha : s.enc.state = .active) (x : Operand) : EncPerforms s (.encSym x) := by
  rcases Nat.lt_or_ge 255 x.toNat with hx | hx
  · exact .silent (.invalidSymbol x ha hx) (exec_encSym_of_invalid hb ha hx)
  cases hw : s.enc.wValid with
  | false => exact .silent (.started x ha hx hw) (exec_encSym_of_empty hb ha hx hw)
  | true =>
    rcases hk : camFind s.enc.dict s.enc.next s.enc.wCode (x.setWidth 8) with _ | k
    · by_cases hn : s.enc.next.toNat = s.params.dictCap
      · exact .silent (.dictFull x ha hx hw hn hk) (exec_encSym_of_full hb ha hx hw hk hn)
      · obtain ⟨m, hm⟩ := hi.core.dictWrite_answers hn (hi.w_code_lt hw) (x.setWidth 8)
        exact ⟨_, _, .missed x m ha hx hw hn hk hm, exec_encSym_of_insert hb ha hx hw hk hn hm⟩
    · exact .silent (.extended x k ha hx hw hk) (exec_encSym_of_hit hb ha hx hw hk)

theorem encPerforms_encEnd {s : State} (hb : s.blk.illegal = false) (ha : s.enc.state = .active) :
    EncPerforms s .encEnd := by
  obtain ⟨-, hflush, hclose⟩ := encEndEmitsTheLastCode.2 s hb (by rw [ha]; decide)
  cases hw : s.enc.wValid with
  | false => exact .silent (.closed ha hw) (hclose ha hw)
  | true => exact ⟨_, _, .flushed ha hw, hflush ha hw⟩

end Sys2Proof.Machine
end

section
/-! Dictionary growth (spec/41_encoder.md R157, spec/42_decoder.md R189): what the effects of a unit's commands keep of
it. -/

namespace Sys2Proof.Machine

/-- One more event, counted without wrapping (00_scope.md R8). -/
theorem addCount_one_toNat {c : Count} (h : c.toNat < 2 ^ 32 - 1) : (addCount c 1).toNat = c.toNat + 1 := by
  rw [addCount, BitVec.toNat_add, BitVec.toNat_ofNat]
  omega

/-- No command leaves DONE but by an error, START or CLEAR, so only what ENC_SYM and ENC_END do in ACTIVE is to be
counted. -/
theorem EncEffect.growth {p : Params} {e e' : EncUnit} {i : Instr} {cs : List Code} (h : EncEffect p e i e' cs)
    (hp : p.wf) (hi : e.Inv p) (hg : e.Growth) : e'.Growth := by
  have hnext := hi.core.next_le
  have hcap := hp.2
  cases h with
  | opened => exact ⟨fun _ => ⟨rfl, fun _ => rfl⟩, nofun⟩
  | cleared => exact ⟨nofun, nofun⟩
  | wrongState => exact ⟨nofun, nofun⟩
  | invalidSymbol => exact ⟨nofun, nofun⟩
  | dictFull => exact ⟨nofun, nofun⟩
  | started x ha => exact ⟨fun _ => ⟨(hg.active ha).1, nofun⟩, fun hd => by simp [ha] at hd⟩
  | extended x k ha => exact ⟨fun _ => ⟨(hg.active ha).1, nofun⟩, fun hd => by simp [ha] at hd⟩
  | missed x m ha _ hw _ _ hm =>
    obtain ⟨⟨-, hlt, -⟩, -⟩ := dictWrite_ok.1 hm
    refine ⟨fun _ => ⟨?_, fun hw' => by simp [hw] at hw'⟩, fun hd => by simp [ha] at hd⟩
    have := (hg.active ha).1
    show (addCount e.outCount 1).toNat + 256 = (e.next + 1).toNat
    rw [next_succ hp hlt, addCount_one_toNat (by omega)]
    omega
  | flushed ha =>
    refine ⟨nofun, fun _ => .inr ?_⟩
    have := (hg.active ha).1
    show (addCount e.outCount 1).toNat + 255 = e.next.toNat
    rw [addCount_one_toNat (by omega)]
    omega
  | closed ha hw =>
    obtain ⟨hout, hfresh⟩ := hg.active ha
    have hnext : e.next = 256 := hfresh hw
    refine ⟨nofun, fun _ => .inl ⟨BitVec.eq_of_toNat_eq ?_, hnext⟩⟩
    show e.outCount.toNat = 0
    rw [hnext, show (256 : NextCode).toNat = 256 from rfl] at hout
    omega

/-- Only DEC_CODE counts codes and inserts entries; an error and DEC_END keep both counts. -/
theorem DecEffect.growth {p : Params} {d d' : DecUnit} {i : Instr} {ph : List Symbol} (h : DecEffect p d i d' ph)
    (hp : p.wf) (hi : d.Inv p) (hg : d.Growth) : d'.Growth := by
  have hnext := hi.core.next_le
  have hcap := hp.2
  cases h with
  | opened => exact ⟨fun _ => ⟨rfl, rfl⟩, nofun⟩
  | cleared => exact ⟨fun _ => ⟨rfl, rfl⟩, nofun⟩
  | first k _ hv =>
    obtain ⟨hin, hfresh⟩ := hg.none hv
    refine ⟨nofun, fun _ => ?_⟩
    show (addCount d.inCount 1).toNat + 255 = d.next.toNat
    rw [hin, hfresh]
    rfl
  | later k c x m ph _ hv _ _ _ hm =>
    obtain ⟨⟨-, hlt, -⟩, -⟩ := dictWrite_ok.1 hm
    refine ⟨fun hv' => by simp [hv] at hv', fun _ => ?_⟩
    have := hg.some hv
    show (addCount d.inCount 1).toNat + 255 = (d.next + 1).toNat
    rw [next_succ hp hlt, addCount_one_toNat (by omega)]
    omega
  | _ => exact ⟨hg.none, hg.some⟩

theorem Effect.growth {s t : State} {i : Instr} (h : Effect s i t) (hi : Inv s) (hg : Growth s) : Growth t := by
  cases h with
  | enc _ he => exact ⟨he.growth hi.params hi.enc hg.1, hg.2⟩
  | dec _ hd => exact ⟨hg.1, hd.growth hi.params hi.dec hg.2⟩
  | _ => exact hg

/-- Settles O11: a performed word has one of the commands' effects, after a reset nothing has grown, and every other
turn leaves the units alone. -/
theorem stepKeepsDictionaryGrowth : Obligations.StepKeepsDictionaryGrowth := by
  intro s t hi hg hst
  rcases step_cases hst with ⟨w, -, -, -, -, he⟩ | ⟨-, -, rfl⟩ | ⟨-, -, hq⟩
  · have hef : Effect s.accepting (instrOf w) t := exec_effect he
    exact hef.growth hi.accepting hg
  · exact growth_resetWith s.params
  · rw [Growth, hq.enc, hq.dec]
    exact hg

end Sys2Proof.Machine
end

section
/-! The source's `encode` on whole sequences (spec/41_encoder.md R153, R156): one round of its loop, and how many codes
it emits. -/

namespace Sys2Proof.Source

/-- Every single symbol is a seed (41_encoder.md R152). -/
theorem singleton_mem_seeds (x : Symbol) : [x] ∈ seeds := by
  refine List.mem_map.2 ⟨x.toNat, List.mem_range.2 x.isLt, ?_⟩
  rw [BitVec.ofNat_toNat, BitVec.setWidth_eq]

variable {d : Dict} {w : List Symbol} {c : Symbol}

theorem encodeLoop_of_mem (h : w ++ [c] ∈ d) (cs : List Symbol) :
    encodeLoop d w (c :: cs) = encodeLoop d (w ++ [c]) cs :=
  if_pos h

theorem encodeLoop_of_notMem (h : w ++ [c] ∉ d) (cs : List Symbol) :
    encodeLoop d w (c :: cs) = d.idxOf w :: encodeLoop (d ++ [w ++ [c]]) [c] cs :=
  if_neg h

/-- A non-empty `w` has at least its own code to come. -/
theorem length_encodeLoop_pos (hw : w ≠ []) (cs : List Symbol) : 0 < (encodeLoop d w cs).length := by
  induction cs generalizing w with
  | nil => simp [encodeLoop, hw]
  | cons c cs ih =>
    by_cases h : w ++ [c] ∈ d
    · rw [encodeLoop_of_mem h]
      exact ih (by simp)
    · rw [encodeLoop_of_notMem h]
      exact Nat.succ_pos _

/-- A non-empty `w` gives at most one code more than the symbols to come. -/
theorem length_encodeLoop_le (hw : w ≠ []) (cs : List Symbol) : (encodeLoop d w cs).length ≤ cs.length + 1 := by
  induction cs generalizing d w with
  | nil => simp [encodeLoop, hw]
  | cons c cs ih =>
    by_cases h : w ++ [c] ∈ d
    · rw [encodeLoop_of_mem h]
      exact (ih (by simp)).trans (Nat.le_succ _)
    · rw [encodeLoop_of_notMem h]
      exact Nat.succ_le_succ (ih (by simp))

/-- `len(C) <= len(S)` (30_encoding.md R108): the first symbol emits nothing. -/
theorem length_encode_le (cs : List Symbol) : (encode cs).length ≤ cs.length := by
  cases cs with
  | nil => exact le_rfl
  | cons c cs =>
    rw [encode, encodeLoop_of_mem (singleton_mem_seeds c)]
    exact length_encodeLoop_le (by simp) cs

end Sys2Proof.Source
end

section
/-! A unit's dictionary as the source's (spec/10_state.md R27): the list of the phrases of its codes, which DictWrite
extends by one phrase, and in which the encoder's codes stand at their own positions. -/

namespace Sys2Proof.Machine

/-- The phrase of code `k`, empty where it is undefined. -/
def UnitCore.phraseOf (u : UnitCore) (k : Nat) : List Symbol := (u.phrase k).getD []

/-- The dictionary in the source's form: the phrase at position `k` has code `k`. -/
def UnitCore.sourceDict (u : UnitCore) : Source.Dict := (List.range u.next.toNat).map u.phraseOf

theorem UnitCore.mem_sourceDict {u : UnitCore} {w : List Symbol} :
    w ∈ u.sourceDict ↔ ∃ k < u.next.toNat, u.phraseOf k = w := by
  simp [UnitCore.sourceDict]

theorem UnitCore.phraseOf_seed (u : UnitCore) {k : Nat} (hk : k < 256) : u.phraseOf k = [BitVec.ofNat 8 k] := by
  rw [UnitCore.phraseOf, UnitCore.phrase_eq, phraseIn_seed _ _ hk, Option.getD_some]

/-- A symbol candidate in range is the code of its symbol (10_state.md R25). -/
theorem UnitCore.phraseOf_operand (u : UnitCore) {x : Operand} (hx : x.toNat ≤ 255) :
    u.phraseOf x.toNat = [x.setWidth 8] := by
  rw [u.phraseOf_seed (by omega), BitVec.ofNat_toNat]

/-- A fresh dictionary is the source's (41_encoder.md R152). -/
theorem UnitCore.sourceDict_fresh {u : UnitCore} (hn : u.next = 256) : u.sourceDict = Source.seeds := by
  rw [UnitCore.sourceDict, hn]
  exact List.map_congr_left fun k hk => u.phraseOf_seed (List.mem_range.1 hk)

section
variable {p : Params} {u : UnitCore}

theorem UnitCore.Inv.phrase_eq_some (h : u.Inv p) {k : Nat} (hk : k < u.next.toNat) :
    u.phrase k = some (u.phraseOf k) := by
  obtain ⟨w, hw, -⟩ := h.phrase_fits hk
  rw [UnitCore.phraseOf, UnitCore.phrase_eq, hw, Option.getD_some]

theorem UnitCore.Inv.phraseOf_ne_nil (h : u.Inv p) {k : Nat} (hk : k < u.next.toNat) : u.phraseOf k ≠ [] :=
  phraseIn_ne_nil h.chained hk (h.phrase_eq_some hk)

/-- DictWrite adds one phrase: that of the given code with the given symbol at its end (20_memory.md R71). -/
theorem UnitCore.Inv.sourceDict_insert (h : u.Inv p) (hp : p.wf) {c : Code} {x : Symbol} {v : UnitCore}
    (hm : dictWrite p u.dict u.next c x = .ok v.dict) (hn : v.next = u.next + 1) :
    v.sourceDict = u.sourceDict ++ [u.phraseOf c.toNat ++ [x]] := by
  obtain ⟨⟨h256, hlt, hc⟩, hdict⟩ := dictWrite_ok.1 hm
  have hnext : v.next.toNat = u.next.toNat + 1 := hn ▸ next_succ hp hlt
  have hphrase (k : Nat) : v.phraseOf k = (phraseIn v.dict (u.next.toNat + 1) k).getD [] := by
    rw [UnitCore.phraseOf, UnitCore.phrase_eq, hnext]
  have hold : ∀ k ∈ List.range u.next.toNat, v.phraseOf k = u.phraseOf k := fun k hk => by
    rw [hphrase, hdict, phraseIn_write_of_lt h.dict_wf h.chained hc k (List.mem_range.1 hk)]
    rfl
  have hnew : v.phraseOf u.next.toNat = u.phraseOf c.toNat ++ [x] := by
    rw [hphrase, hdict, phraseIn_write_self h.dict_wf h.chained hc h256, ← UnitCore.phrase_eq, h.phrase_eq_some hc]
    rfl
  rw [UnitCore.sourceDict, hnext, List.range_succ, List.map_append, List.map_singleton, hnew, List.map_congr_left hold]
  rfl

end

section
variable {p : Params} {e : EncUnit}

/-- In the encoder a phrase stands at the position of its code (10_state.md R26(c)). -/
theorem EncUnit.Inv.idxOf_sourceDict (h : e.Inv p) {k : Nat} (hk : k < e.next.toNat) :
    e.sourceDict.idxOf (e.phraseOf k) = k := by
  have hnodup : e.sourceDict.Nodup := by
    refine List.Nodup.map_on (fun i hi j hj hij => ?_) List.nodup_range
    rw [List.mem_range] at hi hj
    exact h.phrase_inj hi hj (h.core.phrase_eq_some hi) (hij ▸ h.core.phrase_eq_some hj)
  have hlen : k < e.sourceDict.length := by simpa [UnitCore.sourceDict] using hk
  have hget : e.sourceDict[k] = e.phraseOf k := by simp [UnitCore.sourceDict]
  rw [← hget, hnodup.idxOf_getElem]

/-- For the encoder alone: a CamFind hit is the code whose phrase is `w ++ [x]` (10_state.md R27). -/
theorem EncUnit.Inv.camFind_iff_phraseOf (h : e.Inv p) (hp : p.wf) {c : Code} (hc : c.toNat < e.next.toNat) {x : Symbol}
    {k : Nat} :
    camFind e.dict e.next c x = some k ↔ k < e.next.toNat ∧ e.phraseOf k = e.phraseOf c.toNat ++ [x] := by
  have hi : Machine.Inv { State.resetWith p with enc := e } := { inv_resetWith hp with enc := h }
  refine (camHitIffPhraseIsAKey _ c x _ hi hc (h.core.phrase_eq_some hc) k).trans (and_congr_right fun hk => ?_)
  show e.phrase k = _ ↔ _
  rw [h.core.phrase_eq_some hk, Option.some_inj]

theorem EncUnit.Inv.camFind_none_iff (h : e.Inv p) (hp : p.wf) {c : Code} (hc : c.toNat < e.next.toNat) {x : Symbol} :
    camFind e.dict e.next c x = none ↔ e.phraseOf c.toNat ++ [x] ∉ e.sourceDict := by
  rw [Option.eq_none_iff_forall_ne_some, UnitCore.mem_sourceDict]
  simp [h.camFind_iff_phraseOf hp hc]

end

end Sys2Proof.Machine
end

section
/-! The encoder refines the source's `encode` (spec/41_encoder.md R156): an ENC_SYM that does not fail is one round of
the source's loop on the unit's dictionary and its `w`, ENC_END is its last round, and DictFull falls in a round with
codes still to come. -/

namespace Sys2Proof.Machine

/-- The source's current phrase `w` (10_state.md R22). -/
def EncUnit.matched (e : EncUnit) : List Symbol := if e.wValid then e.phraseOf e.wCode.toNat else []

/-- The codes the source would still emit from here. -/
def EncUnit.toCome (e : EncUnit) (rest : List Symbol) : List Nat := Source.encodeLoop e.sourceDict e.matched rest

section
variable {p : Params} {e e' : EncUnit} {cs : List Code} {x : Operand}

theorem EncUnit.matched_of_empty (hw : e.wValid = false) : e.matched = [] := by
  rw [EncUnit.matched, hw, if_neg Bool.false_ne_true]

theorem EncUnit.matched_of_valid (hw : e.wValid = true) : e.matched = e.phraseOf e.wCode.toNat := if_pos hw

/-- A code of the dictionary fits its 28 bits (10_state.md R24). -/
theorem EncUnit.Inv.code_toNat (h : e.Inv p) (hp : p.wf) {k : Nat} (hk : k < e.next.toNat) :
    (BitVec.ofNat 28 k).toNat = k := by
  have := h.core.next_le
  have := hp.2
  rw [BitVec.toNat_ofNat]
  omega

/-- Restarted at a single symbol, `w` is that symbol (41_encoder.md R153). -/
theorem EncUnit.toCome_of_seed (hw : e.wValid = true) (hc : e.wCode.toNat ≤ 255) (rest : List Symbol) :
    e.toCome rest = Source.encodeLoop e.sourceDict [e.wCode.setWidth 8] rest := by
  rw [EncUnit.toCome, EncUnit.matched_of_valid hw, e.phraseOf_operand hc]

/-- A miss is the source's `else`: `w ++ [x]` is no key, and the code of `w` is emitted (41_encoder.md R153). -/
theorem EncUnit.Inv.toCome_of_miss (h : e.Inv p) (hp : p.wf) (hw : e.wValid = true) {c : Symbol}
    (hk : camFind e.dict e.next e.wCode c = none) (rest : List Symbol) :
    e.toCome (c :: rest) = e.wCode.toNat :: Source.encodeLoop (e.sourceDict ++ [e.matched ++ [c]]) [c] rest := by
  have hlt := h.w_code_lt hw
  rw [EncUnit.toCome, EncUnit.matched_of_valid hw,
    Source.encodeLoop_of_notMem ((h.camFind_none_iff hp hlt).1 hk), h.idxOf_sourceDict hlt]

/-- An ENC_SYM that does not fail is one round of the source's loop (41_encoder.md R153). -/
theorem EncEffect.toCome_cons (h : EncEffect p e (.encSym x) e' cs) (hp : p.wf) (hi : e.Inv p)
    (hs : e'.state = .active) (rest : List Symbol) :
    e.toCome (x.setWidth 8 :: rest) = cs.map (·.toNat) ++ e'.toCome rest := by
  cases h with
  | wrongState => nomatch hs
  | invalidSymbol => nomatch hs
  | dictFull => nomatch hs
  | started _ _ hx hw =>
    have hkey : e.phraseOf x.toNat = [] ++ [x.setWidth 8] := e.phraseOf_operand hx
    have hmem : [] ++ [x.setWidth 8] ∈ e.sourceDict :=
      UnitCore.mem_sourceDict.2 ⟨x.toNat, by have := hi.core.next_ge; omega, hkey⟩
    rw [EncUnit.toCome, EncUnit.matched_of_empty hw, Source.encodeLoop_of_mem hmem, ← hkey]
    rfl
  | extended _ k _ _ hw hk =>
    obtain ⟨hlt, hkey⟩ := (hi.camFind_iff_phraseOf hp (hi.w_code_lt hw)).1 hk
    have hcode : e.phraseOf (BitVec.ofNat 28 k).toNat = e.phraseOf k := by rw [hi.code_toNat hp hlt]
    rw [EncUnit.toCome, EncUnit.matched_of_valid hw,
      Source.encodeLoop_of_mem (UnitCore.mem_sourceDict.2 ⟨k, hlt, hkey⟩), ← hkey, ← hcode]
    rfl
  | missed _ m _ hx hw _ hk hm =>
    rw [hi.toCome_of_miss hp hw hk, EncUnit.toCome_of_seed, EncUnit.matched_of_valid hw]
    · exact congrArg (e.wCode.toNat :: Source.encodeLoop · [x.setWidth 8] rest)
        (hi.core.sourceDict_insert hp hm rfl).symm
    · exact hw
    · exact hx

/-- ENC_END is the last round of the source's loop (41_encoder.md R154). -/
theorem EncEffect.toCome_nil (h : EncEffect p e .encEnd e' cs) (hi : e.Inv p) (hs : e'.state = .done) :
    e.toCome [] = cs.map (·.toNat) := by
  cases h with
  | wrongState => nomatch hs
  | flushed _ hw =>
    have hlt := hi.w_code_lt hw
    rw [EncUnit.toCome, EncUnit.matched_of_valid hw, Source.encodeLoop, if_neg (hi.core.phraseOf_ne_nil hlt),
      hi.idxOf_sourceDict hlt]
    rfl
  | closed _ hw =>
    rw [EncUnit.toCome, EncUnit.matched_of_empty hw]
    rfl

end

/-! ### A session's symbols so far -/

section
variable {p : Params} {e e' : EncUnit} {ins : List Symbol} {out : List Nat} {cs : List Code} {x : Operand}

/-- An open session has encoded `ins` so far, to the codes `out`: whatever symbols follow, the source's encode starts
with `out` and goes on from the unit's dictionary and its `w`. -/
structure EncUnit.Encoding (p : Params) (e : EncUnit) (ins : List Symbol) (out : List Nat) : Prop where
  inv : e.Inv p
  active : e.state = .active
  encode_append : ∀ rest, Source.encode (ins ++ rest) = out ++ e.toCome rest
  next_eq : e.next.toNat = 256 + out.length
  out_nil : e.wValid = false → out = []
  inCount_eq : e.inCount = BitVec.ofNat 32 ins.length
  outCount_eq : e.outCount = BitVec.ofNat 32 out.length

/-- A session has ended after encoding `ins` to `out`. -/
structure EncUnit.Encoded (p : Params) (e : EncUnit) (ins : List Symbol) (out : List Nat) : Prop where
  state : e.state = .done
  out_eq : out = Source.encode ins
  fits : out.length ≤ p.dictCap - 255
  next_eq : e.next.toNat = 256 + (out.length - 1)
  inCount_eq : e.inCount = BitVec.ofNat 32 ins.length
  outCount_eq : e.outCount = BitVec.ofNat 32 out.length

/-- A session has failed in DictFull after the codes `out`: whatever symbols follow `ins`, they have more codes than the
dictionary has room for. -/
structure EncUnit.Overflowed (p : Params) (e : EncUnit) (ins : List Symbol) (out : List Nat) : Prop where
  state : e.state = .error
  err : e.err = .dictFull
  errinfo : e.errinfo = BitVec.ofNat 32 p.dictCap
  long : ∀ rest, p.dictCap - 255 < (Source.encode (ins ++ rest)).length
  out_eq : ∀ rest, out = (Source.encode (ins ++ rest)).take (p.dictCap - 256)

/-- ENC_START begins with nothing encoded (41_encoder.md R152). -/
theorem EncUnit.Inv.encoding_opened (h : e.Inv p) (hp : p.wf) :
    EncUnit.Encoding p { e with toUnitCore := e.toUnitCore.opened, wValid := false, wCode := 0 } [] [] where
  inv := h.restart hp (.inl rfl)
  active := rfl
  encode_append rest := by
    rw [EncUnit.toCome, EncUnit.matched_of_empty rfl, UnitCore.sourceDict_fresh rfl]
    rfl
  next_eq := rfl
  out_nil _ := rfl
  inCount_eq := rfl
  outCount_eq := rfl

theorem addCount_ofNat (n k : Nat) : addCount (BitVec.ofNat 32 n) k = BitVec.ofNat 32 (n + k) :=
  (BitVec.ofNat_add n k).symm

/-- What an ENC_SYM that does not fail counts: one symbol, and one entry for each code emitted (41_encoder.md R153). -/
theorem EncEffect.encSym_counts (h : EncEffect p e (.encSym x) e' cs) (hp : p.wf) (hs : e'.state = .active) :
    e'.wValid = true ∧ e'.next.toNat = e.next.toNat + cs.length ∧ e'.inCount = addCount e.inCount 1 ∧
      e'.outCount = addCount e.outCount cs.length := by
  have hnone : e.outCount = addCount e.outCount 0 := (BitVec.add_zero _).symm
  cases h with
  | wrongState => nomatch hs
  | invalidSymbol => nomatch hs
  | dictFull => nomatch hs
  | started => exact ⟨rfl, rfl, rfl, hnone⟩
  | extended => exact ⟨rfl, rfl, rfl, hnone⟩
  | missed _ m _ _ hw _ _ hm =>
    obtain ⟨⟨-, hlt, -⟩, -⟩ := dictWrite_ok.1 hm
    exact ⟨hw, next_succ hp hlt, rfl, rfl⟩

/-- An ENC_SYM that does not fail takes its symbol into the session's encoding. -/
theorem EncEffect.encoding (h : EncEffect p e (.encSym x) e' cs) (hp : p.wf) (hs : e'.state = .active)
    (he : e.Encoding p ins out) : e'.Encoding p (ins ++ [x.setWidth 8]) (out ++ cs.map (·.toNat)) := by
  obtain ⟨hw, hnext, hin, hout⟩ := h.encSym_counts hp hs
  constructor
  case inv => exact h.inv hp he.inv
  case active => exact hs
  case encode_append =>
    intro rest
    rw [List.append_assoc, List.append_assoc, ← h.toCome_cons hp he.inv hs, ← he.encode_append]
    rfl
  case next_eq => rw [hnext, he.next_eq, List.length_append, List.length_map, Nat.add_assoc]
  case out_nil => simp [hw]
  case inCount_eq => rw [hin, he.inCount_eq, addCount_ofNat, List.length_append, List.length_singleton]
  case outCount_eq => rw [hout, he.outCount_eq, addCount_ofNat, List.length_append, List.length_map]

/-- Of a symbol in range only DictFull can come, and then the code of `w` and at least one more are still to come. -/
theorem EncEffect.overflowed (h : EncEffect p e (.encSym x) e' cs) (hp : p.wf) (hx : x.toNat ≤ 255)
    (hs : e'.state ≠ .active) (he : e.Encoding p ins out) :
    e'.Overflowed p (ins ++ [x.setWidth 8]) (out ++ cs.map (·.toNat)) := by
  cases h with
  | wrongState _ ha => exact absurd he.active ha
  | invalidSymbol _ _ hx' => omega
  | dictFull _ _ _ hw hn hk =>
    have hcap := hp.1
    have hout : out.length = p.dictCap - 256 := by
      have := he.next_eq
      omega
    have hcodes (rest : List Symbol) : ∃ c more, more ≠ [] ∧
        Source.encode (ins ++ [x.setWidth 8] ++ rest) = out ++ c :: more := by
      rw [List.append_assoc, List.singleton_append, he.encode_append, he.inv.toCome_of_miss hp hw hk]
      exact ⟨_, _, List.length_pos_iff.1 (Source.length_encodeLoop_pos (List.cons_ne_nil _ _) rest), rfl⟩
    refine ⟨rfl, rfl, ?_, fun rest => ?_, fun rest => ?_⟩
    · show zext32 e.next = _
      rw [← hn, BitVec.ofNat_toNat]
      rfl
    · obtain ⟨c, more, hne, hall⟩ := hcodes rest
      rw [hall]
      have := List.length_pos_iff.2 hne
      simp
      omega
    · obtain ⟨c, more, -, hall⟩ := hcodes rest
      rw [hall, ← hout, List.take_left, List.map_nil, List.append_nil]
  | started _ ha => exact absurd ha hs
  | extended _ _ ha => exact absurd ha hs
  | missed _ _ ha => exact absurd ha hs

/-- ENC_END completes the encoding: the code of a non-empty `w` is the one that has no entry (41_encoder.md R157). -/
theorem EncEffect.encoded (h : EncEffect p e .encEnd e' cs) (hp : p.wf) (he : e.Encoding p ins out) :
    e'.Encoded p ins (out ++ cs.map (·.toNat)) := by
  have hall (hs : e'.state = .done) : out ++ cs.map (·.toNat) = Source.encode ins := by
    rw [← h.toCome_nil he.inv hs, ← he.encode_append, List.append_nil]
  have hroom := he.inv.core.next_le
  have hnext := he.next_eq
  cases h with
  | wrongState _ ha => exact absurd he.active ha
  | flushed _ hw =>
    refine ⟨rfl, hall rfl, ?_, ?_, he.inCount_eq, ?_⟩
    · simp
      omega
    · simpa using hnext
    · show addCount e.outCount 1 = _
      rw [he.outCount_eq, addCount_ofNat]
      simp
  | closed _ hw =>
    obtain rfl := he.out_nil hw
    exact ⟨rfl, hall rfl, Nat.zero_le _, hnext, he.inCount_eq, he.outCount_eq⟩

/-- Symbols that come after the failure change nothing. -/
theorem EncUnit.Overflowed.append (h : e.Overflowed p ins out) (more : List Symbol) :
    e.Overflowed p (ins ++ more) out where
  state := h.state
  err := h.err
  errinfo := h.errinfo
  long rest := by rw [List.append_assoc]; exact h.long _
  out_eq rest := by rw [List.append_assoc]; exact h.out_eq _

end

/-! ### The commands of a session -/

theorem execList_cons {i : Instr} {is : List Instr} {s t : State} (h : exec i s = .next t) :
    execList (i :: is) s = execList is t := by
  rw [execList, h]

/-- ENC_START opens a session with nothing encoded. -/
theorem encStart_encoding {s : State} (hi : Inv s) (hb : s.blk.illegal = false) (hs : s.enc.state ≠ .error)
    (hempty : s.encOut = []) :
    ∃ e, exec .encStart s = .next (s.setEnc e) ∧ e.Encoding s.params [] (s.encOut.map (·.toNat)) := by
  refine ⟨_, encStartOpensASession.2.2 s hb hs, ?_⟩
  rw [hempty]
  exact hi.enc.encoding_opened hi.params

/-- After an error the rest of a session's commands is discarded (40_dispatch.md R135). -/
theorem execList_of_enc_error {s : State} (h : s.enc.state = .error) (S : List Operand) :
    execList (S.map .encSym ++ [.encEnd]) s = .next s := by
  obtain ⟨-, hsym, hend⟩ := unitInErrorDiscardsAllButClear.1 s h
  induction S with
  | nil => exact execList_cons hend
  | cons x S ih => exact (execList_cons (hsym x)).trans ih

/-- From an open session, symbols in range and ENC_END end it or run into DictFull. -/
theorem execList_of_encoding {s : State} (hp : s.params.wf) (hb : s.blk.illegal = false) {S : List Operand}
    (hS : ∀ x ∈ S, x.toNat ≤ 255) {ins : List Symbol}
    (he : s.enc.Encoding s.params ins (s.encOut.map (·.toNat))) :
    ∃ e out, execList (S.map .encSym ++ [.encEnd]) s = .next { s with enc := e, encOut := out } ∧
      (e.Encoded s.params (ins ++ S.map (·.setWidth 8)) (out.map (·.toNat)) ∨
        e.Overflowed s.params (ins ++ S.map (·.setWidth 8)) (out.map (·.toNat))) := by
  induction S generalizing s ins with
  | nil =>
    obtain ⟨e, cs, heff, hx⟩ := encPerforms_encEnd hb he.active
    refine ⟨e, s.encOut ++ cs, execList_cons hx, .inl ?_⟩
    rw [List.map_nil, List.append_nil, List.map_append]
    exact heff.encoded hp he
  | cons x S ih =>
    obtain ⟨hx, hS⟩ := List.forall_mem_cons.1 hS
    obtain ⟨e, cs, heff, hrun⟩ := encPerforms_encSym he.inv hb he.active x
    rw [List.map_cons, List.map_cons, List.cons_append, execList_cons hrun, List.append_cons ins]
    by_cases hs : e.state = .active
    · refine ih (s := { s with enc := e, encOut := s.encOut ++ cs }) hp hb hS ?_
      rw [List.map_append]
      exact heff.encoding hp hs he
    · have hover := heff.overflowed hp hx hs he
      have hrest := execList_of_enc_error (s := { s with enc := e, encOut := s.encOut ++ cs }) hover.state S
      refine ⟨e, s.encOut ++ cs, hrest, .inr ?_⟩
      rw [List.map_append]
      exact hover.append _

/-- Settles O48: ENC_START begins with nothing encoded, and the session that follows ends with the source's codes or
overflows with more codes than fit. -/
theorem encoderSessionIsTheSourcesEncode : Obligations.EncoderSessionIsTheSourcesEncode := by
  intro s S hi hb hs hempty hS C
  have hlen : C.length ≤ S.length := by
    simpa only [List.length_map] using Source.length_encode_le (S.map (·.setWidth 8))
  obtain ⟨e₀, hstart, hopen⟩ := encStart_encoding hi hb hs hempty
  obtain ⟨e, out, hrun, hend⟩ := execList_of_encoding (s := s.setEnc e₀) hi.params hb hS hopen
  have hall : execList (Pseudo.encSeq S) s = .next { s with enc := e, encOut := out } :=
    (execList_cons hstart).trans hrun
  rcases hend with ⟨hstate, hout, hfits, hnext, hin, hcount⟩ | ⟨hstate, herr, hinfo, hlong, hout⟩
  · have hC : out.map (·.toNat) = C := hout
    rw [hC] at hfits hnext hcount
    refine ⟨hlen, fun _ => ⟨_, hall, hC, hstate, ?_, hcount, hnext, rfl⟩, fun hlong => ?_⟩
    · simpa using hin
    · exact absurd hfits (Nat.not_le.2 hlong)
  · have hlong : s.params.dictCap - 255 < C.length := by simpa using hlong []
    refine ⟨hlen, fun hfits => ?_, fun _ _ => ⟨_, hall, by simpa using hout [], hstate, herr, hinfo, rfl⟩⟩
    rcases hfits with hfits | rfl
    · exact absurd hfits (Nat.not_le.2 hlong)
    · exact absurd hlen (Nat.not_le.2 (Nat.zero_lt_of_lt hlong))

end Sys2Proof.Machine
end

section
/-! The decoder's commands (spec/42_decoder.md R180 to R185), case by case, in a legal block whose decoder is not in
ERROR: what each answers, that the sequencer emits the phrase of R31, and that DEC_CODE has one of the effects of
Laws/Effects.lean. -/

namespace Sys2Proof.Machine

/-! ### START, END and CLEAR -/

section
variable {s : State}

theorem held_decStart : held 0x50000000#32 s = true ↔ s.decOut ≠ [] := by
  simp [held]

theorem held_decClear : held 0x80000000#32 s = true ↔ s.decOut ≠ [] := by
  simp [held]

/-- Settles O38: behind the checks DEC_START answers the opened unit. -/
theorem decStartOpensASession : Obligations.DecStartOpensASession :=
  ⟨rfl, fun _ => held_decStart, fun _ hb hs => unlessDecDiscards_false hb hs _⟩

/-- Settles O41: DEC_CLEAR stands behind the first check only, and the six registers show fields it resets. -/
theorem decClearReturnsToIdle : Obligations.DecClearReturnsToIdle := by
  refine ⟨rfl, fun _ => held_decClear, fun s hb => ?_⟩
  have hx : exec .decClear s = .next _ := unlessIllegal_false hb _
  refine ⟨hx, fun t ht i hi => ?_⟩
  obtain rfl := Host.Outcome.next.inj (hx.symm.trans ht)
  fin_cases hi <;> rfl

variable (hb : s.blk.illegal = false)
include hb

theorem exec_decEnd_of_not_active (hs : s.dec.state ≠ .error) (ha : s.dec.state ≠ .active) :
    exec .decEnd s = raiseDec .sequenceError (encode .decEnd) s :=
  (unlessDecDiscards_false hb hs _).trans (if_neg ha)

theorem exec_decCode_of_not_active (hs : s.dec.state ≠ .error) (ha : s.dec.state ≠ .active) (k : Operand) :
    exec (.decCode k) s = raiseDec .sequenceError (encode (.decCode k)) s :=
  (unlessDecDiscards_false hb hs _).trans (if_neg ha)

variable (ha : s.dec.state = .active)
include ha

theorem unlessDecDiscards_of_active (k : Answer) : unlessDecDiscards s k = k :=
  unlessDecDiscards_false hb (by rw [ha]; decide) k

theorem exec_decEnd_of_none (hv : s.dec.havePrev = false) : exec .decEnd s = raiseDec .emptyStream 0 s := by
  rw [exec, execDecEnd, unlessDecDiscards_of_active hb ha, if_pos ha, if_neg (by simp [hv])]

theorem exec_decEnd_of_some (hv : s.dec.havePrev = true) :
    exec .decEnd s = .next (s.setDec { s.dec with state := .done }) := by
  rw [exec, execDecEnd, unlessDecDiscards_of_active hb ha, if_pos ha, if_pos hv]

end

/-- Settles O40: DEC_END in each state, and in ACTIVE before and after the first code. -/
theorem decEndClosesTheSession : Obligations.DecEndClosesTheSession :=
  ⟨rfl, fun _ hb hs => ⟨exec_decEnd_of_not_active hb hs, exec_decEnd_of_none hb, exec_decEnd_of_some hb⟩⟩

/-- The sequencer emits the phrase of a code below `next`, which fits its slots (42_decoder.md R181, 10_state.md
R33). -/
theorem UnitCore.Inv.walk_of_phrase {p : Params} {u : UnitCore} (h : u.Inv p) {k : Code} (hk : k.toNat < u.next.toNat)
    {w : List Symbol} (hw : u.phrase k.toNat = some w) : walk u.dict u.next p.phraseCap k [] = .ok w := by
  obtain ⟨w', hw', hlen⟩ := h.phrase_fits hk
  cases hw.symm.trans hw'
  rw [walk_eq h.chained _ k [] (.inr hk) hw hlen, List.append_nil]

/-- Settles O43: a code below `next` has a phrase. -/
theorem sequencerEmitsThePhrase : Obligations.SequencerEmitsThePhrase :=
  fun _ hi _ hk => ⟨_, hi.dec.core.phrase_eq_some hk, hi.dec.core.walk_of_phrase hk (hi.dec.core.phrase_eq_some hk)⟩

/-! ### DEC_CODE -/

section
variable {d : DecUnit} {k : Operand}

/-! The classes of 42_decoder.md R180, each from its own condition. -/

theorem classify_of_first (hv : d.havePrev = false) (hk : k.toNat ≤ 255) : classify d k = .first (k.setWidth 8) := by
  rw [classify, if_neg (by simp [hv]), symbolOf_some.2 ⟨hk, rfl⟩]

theorem classify_of_firstBad (hv : d.havePrev = false) (hk : 255 < k.toNat) : classify d k = .firstBad := by
  rw [classify, if_neg (by simp [hv]), symbolOf_none.2 hk]

variable (hv : d.havePrev = true)
include hv

theorem classify_of_bad (hk : d.next.toNat < k.toNat) : classify d k = .bad := by
  rw [classify, if_pos hv, if_neg (by omega), if_neg (by omega)]

theorem classify_of_known (hk : k.toNat < d.next.toNat) : classify d k = .known := by
  rw [classify, if_pos hv, if_pos hk]

theorem classify_of_selfRef (hk : k.toNat = d.next.toNat) : classify d k = .selfRef := by
  rw [classify, if_pos hv, if_neg (by omega), if_pos hk]

end

/-- For the later code `k`, `c` is the code whose first symbol the new entry ends with (42_decoder.md R183): `k` itself
for KNOWN, `prev` for SELFREF. -/
def DecUnit.IsEntryCode (d : DecUnit) (k : Operand) (c : Code) : Prop :=
  k.toNat < d.next.toNat ∧ c = k ∨ k.toNat = d.next.toNat ∧ c = d.prev

theorem DecUnit.IsEntryCode.le {d : DecUnit} {k : Operand} {c : Code} (h : d.IsEntryCode k c) :
    k.toNat ≤ d.next.toNat := by
  rcases h with ⟨hlt, -⟩ | ⟨heq, -⟩
  · exact hlt.le
  · exact heq.le

theorem DecUnit.exists_isEntryCode {d : DecUnit} {k : Operand} (hk : k.toNat ≤ d.next.toNat) :
    ∃ c, d.IsEntryCode k c := by
  rcases Nat.lt_or_eq_of_le hk with hlt | heq
  · exact ⟨k, .inl ⟨hlt, rfl⟩⟩
  · exact ⟨d.prev, .inr ⟨heq, rfl⟩⟩

section
variable {p : Params} {d : DecUnit} (h : d.Inv p) (hv : d.havePrev = true) {k : Operand} {c : Code}
  (hk : d.IsEntryCode k c)
include h hv hk

theorem DecUnit.Inv.entryCode_lt : c.toNat < d.next.toNat := by
  rcases hk with ⟨hlt, rfl⟩ | ⟨-, rfl⟩
  · exact hlt
  · exact h.prev_lt hv

/-- A later code that finds room can be performed: `first` and DictWrite answer (42_decoder.md R183). -/
theorem DecUnit.Inv.later_answers (hn : d.next.toNat ≠ p.dictCap) :
    ∃ x m, firstSym d.dict d.next p.phraseCap c = .ok x ∧ dictWrite p d.dict d.next d.prev x = .ok m := by
  obtain ⟨x, hx⟩ := h.core.firstSym_answers (h.entryCode_lt hv hk)
  obtain ⟨m, hm⟩ := h.core.dictWrite_answers hn (h.prev_lt hv) x
  exact ⟨x, m, hx, hm⟩

/-- A later code's phrase in the dictionary that holds the new entry, which the sequencer emits: what a known code had
before, and `w ++ [w[0]]` for `next` itself (42_decoder.md R181, R183). -/
theorem DecUnit.Inv.later_phrase (hp : p.wf) {x : Symbol} {m : Memory}
    (hx : firstSym d.dict d.next p.phraseCap c = .ok x) (hm : dictWrite p d.dict d.next d.prev x = .ok m) :
    ∃ rest, (k.toNat < d.next.toNat → d.phrase k.toNat = some (x :: rest)) ∧
      (k.toNat = d.next.toNat → ∃ w, d.phrase d.prev.toNat = some (x :: w) ∧ rest = w ++ [x]) ∧
      phraseIn m (d.next + 1).toNat k.toNat = some (x :: rest) ∧
      walk m (d.next + 1) p.phraseCap k [] = .ok (x :: rest) := by
  have hc := h.entryCode_lt hv hk
  obtain ⟨ph, hph, hfit⟩ := h.core.phrase_fits hc
  obtain ⟨y, w, rfl, hy⟩ := firstSym_eq h.core.chained _ c (.inr hc) hph hfit
  cases hx.symm.trans hy
  have hnew := h.core.insert hp hm 0 0
  obtain ⟨⟨h256, hcap, hprev⟩, rfl⟩ := dictWrite_ok.1 hm
  have hnext := next_succ hp hcap
  have hlt : k.toNat < (d.next + 1).toNat := hnext ▸ Nat.lt_succ_of_le hk.le
  rcases hk with ⟨hknown, rfl⟩ | ⟨hself, rfl⟩
  · have hq := (phraseIn_write_of_lt h.core.dict_wf h.core.chained hprev (x := x) _ hknown).trans hph
    rw [← hnext] at hq
    exact ⟨w, fun _ => hph, fun hself => absurd hknown hself.not_lt, hq, hnew.walk_of_phrase hlt hq⟩
  · have hq := phraseIn_write_self h.core.dict_wf h.core.chained hprev (x := x) h256
    rw [hph, ← hnext] at hq
    rw [hself]
    exact ⟨w ++ [x], fun hlt => absurd hlt (lt_irrefl _), fun _ => ⟨w, hph, rfl⟩, hq,
      hnew.walk_of_phrase hlt (hself ▸ hq)⟩

end

section
variable {s : State} {k : Operand} (hb : s.blk.illegal = false) (ha : s.dec.state = .active)
include hb ha

theorem exec_decCode_of_first (hv : s.dec.havePrev = false) (hk : k.toNat ≤ 255) :
    exec (.decCode k) s = .next (decFirst (k.setWidth 8) s) := by
  rw [exec, execDecCode, unlessDecDiscards_of_active hb ha, if_pos ha, classify_of_first hv hk]

theorem exec_decCode_of_firstBad (hv : s.dec.havePrev = false) (hk : 255 < k.toNat) :
    exec (.decCode k) s = raiseDec .badCode (zext32 k) s := by
  rw [exec, execDecCode, unlessDecDiscards_of_active hb ha, if_pos ha, classify_of_firstBad hv hk]

variable (hv : s.dec.havePrev = true)
include hv

theorem exec_decCode_of_bad (hk : s.dec.next.toNat < k.toNat) :
    exec (.decCode k) s = raiseDec .badCode (zext32 k) s := by
  rw [exec, execDecCode, unlessDecDiscards_of_active hb ha, if_pos ha, classify_of_bad hv hk]

theorem exec_decCode_of_later {c : Code} (hk : s.dec.IsEntryCode k c) :
    exec (.decCode k) s = decNext k c s := by
  rw [exec, execDecCode, unlessDecDiscards_of_active hb ha, if_pos ha]
  rcases hk with ⟨hlt, rfl⟩ | ⟨heq, rfl⟩
  · rw [classify_of_known hv hlt]
  · rw [classify_of_selfRef hv heq]

theorem exec_decCode_of_full (hk : k.toNat ≤ s.dec.next.toNat) (hn : s.dec.next.toNat = s.params.dictCap) :
    exec (.decCode k) s = raiseDec .dictFull (zext32 s.dec.next) s := by
  obtain ⟨c, hc⟩ := DecUnit.exists_isEntryCode hk
  exact (exec_decCode_of_later hb ha hv hc).trans (if_pos hn)

theorem exec_decCode_of_insert {c : Code} (hk : s.dec.IsEntryCode k c)
    (hn : s.dec.next.toNat ≠ s.params.dictCap) {x : Symbol} {m : Memory} {ph : List Symbol}
    (hx : firstSym s.dec.dict s.dec.next s.params.phraseCap c = .ok x)
    (hm : dictWrite s.params s.dec.dict s.dec.next s.dec.prev x = .ok m)
    (hph : walk m (s.dec.next + 1) s.params.phraseCap k [] = .ok ph) :
    exec (.decCode k) s = .next ((s.emitPhrase ph).setDec
      { s.dec with
        dict := m, next := s.dec.next + 1, outCount := addCount s.dec.outCount ph.length, prev := k,
        inCount := addCount s.dec.inCount 1 }) := by
  rw [exec_decCode_of_later hb ha hv hk, decNext, if_neg hn, hx]
  simp only [hm, hph]

end

theorem State.emitPhrase_of_buffer_empty {s : State} (h : s.phraseBuf = []) (ph : List Symbol) :
    s.emitPhrase ph = { s with decOut := s.decOut ++ ph } := by
  rw [State.emitPhrase, ← h]

/-- Settles O39: a failing or a first code is answered as its class says; a later code that finds room stores
`(prev, entry[0])` at `next`, and the sequencer walks in the dictionary that holds it. -/
theorem decCodeEmitsThePhrase : Obligations.DecCodeEmitsThePhrase := by
  refine ⟨fun _ => rfl, ?_⟩
  intro s k hi hb hs raised
  refine ⟨?_, ?_, ?_, ?_, ?_, ?_⟩
  · exact fun ha => exec_decCode_of_not_active hb hs ha k
  · intro ha hv hk
    rw [exec_decCode_of_first hb ha hv hk, decFirst, seedCode_setWidth hk,
      State.emitPhrase_of_buffer_empty hi.buffer_empty]
    rfl
  · intro ha hv hk
    rw [exec_decCode_of_firstBad hb ha hv hk, zext32_code]
    rfl
  · intro ha hv hk
    rw [exec_decCode_of_bad hb ha hv hk, zext32_code]
    rfl
  · intro ha hv hk hn
    rw [exec_decCode_of_full hb ha hv hk hn, zext32_nextCode]
    rfl
  · intro ha hv hk hn
    obtain ⟨c, hc⟩ := DecUnit.exists_isEntryCode hk
    obtain ⟨x, m, hx, hm⟩ := hi.dec.later_answers hv hc hn
    obtain ⟨rest, hknown, hself, hph, hwalk⟩ := hi.dec.later_phrase hv hc hi.params hx hm
    refine ⟨m, x, rest, hknown, hself, ?_, fun j => ?_, hph⟩
    · rw [exec_decCode_of_insert hb ha hv hc hn hx hm hwalk, State.emitPhrase_of_buffer_empty hi.buffer_empty]
      rfl
    · obtain ⟨-, rfl⟩ := dictWrite_ok.1 hm
      exact Memory.read_write hi.dec.core.dict_wf _ _ _

/-! ### A command that is not discarded is performed -/

/-- The command has one of the decoder's effects and answers the state after it. -/
def DecPerforms (s : State) (i : Instr) : Prop :=
  ∃ d ph, DecEffect s.params s.dec i d ph ∧ exec i s = .next { s with dec := d, decOut := s.decOut ++ ph }

theorem DecPerforms.silent {s : State} {i : Instr} {d : DecUnit} (he : DecEffect s.params s.dec i d [])
    (hx : exec i s = .next (s.setDec d)) : DecPerforms s i := by
  refine ⟨d, [], he, ?_⟩
  rw [hx, List.append_nil]
  rfl

theorem decPerforms_decCode {s : State} (hi : Inv s) (hb : s.blk.illegal = false) (ha : s.dec.state = .active)
    (k : Operand) : DecPerforms s (.decCode k) := by
  have hemit := State.emitPhrase_of_buffer_empty hi.buffer_empty
  cases hv : s.dec.havePrev with
  | false =>
    rcases Nat.lt_or_ge 255 k.toNat with hk | hk
    · exact .silent (.badCode k ha (.inl ⟨hv, hk⟩)) (exec_decCode_of_firstBad hb ha hv hk)
    · refine ⟨_, _, .first k ha hv hk, ?_⟩
      rw [exec_decCode_of_first hb ha hv hk, decFirst, seedCode_setWidth hk, hemit]
      rfl
  | true =>
    rcases Nat.lt_or_ge s.dec.next.toNat k.toNat with hk | hk
    · exact .silent (.badCode k ha (.inr ⟨hv, hk⟩)) (exec_decCode_of_bad hb ha hv hk)
    by_cases hn : s.dec.next.toNat = s.params.dictCap
    · exact .silent (.dictFull k ha hv hk hn) (exec_decCode_of_full hb ha hv hk hn)
    · obtain ⟨c, hc⟩ := DecUnit.exists_isEntryCode hk
      obtain ⟨x, m, hx, hm⟩ := hi.dec.later_answers hv hc hn
      obtain ⟨rest, -, -, -, hwalk⟩ := hi.dec.later_phrase hv hc hi.params hx hm
      refine ⟨_, _, .later k c x m _ ha hv hc hn hx hm hwalk, ?_⟩
      rw [exec_decCode_of_insert hb ha hv hc hn hx hm hwalk, hemit]
      rfl

end Sys2Proof.Machine
end

section
/-! The source's `decode` on whole sequences (spec/42_decoder.md R183, R187): one round of its loop, and the dictionary
it ends with. -/

namespace Sys2Proof.Source

/-- The symbols `ph` and then what `r` has decoded. -/
def Decoded.after (r : Decoded) (ph : List Symbol) : Decoded := { symbols := ph ++ r.symbols, bad := r.bad }

/-- The source's dictionary when its decode loop ends or stops. -/
def decodeDict (d : Dict) (w : List Symbol) : List Nat → Dict
  | [] => d
  | k :: ks =>
    match entryFor d w k with
    | none => d
    | some e => decodeDict (d ++ [w ++ e.take 1]) e ks

variable {d : Dict} {w : List Symbol} {k : Nat}

theorem entryFor_of_lt (h : k < d.length) : entryFor d w k = d[k]? := if_pos h

theorem entryFor_of_eq (h : k = d.length) : entryFor d w k = some (w ++ w.take 1) := by
  rw [entryFor, if_neg h.not_lt, if_pos h]

theorem entryFor_of_gt (h : d.length < k) : entryFor d w k = none := by
  rw [entryFor, if_neg (by omega), if_neg (by omega)]

theorem exists_entryFor (h : k ≤ d.length) : ∃ e, entryFor d w k = some e := by
  rcases Nat.lt_or_eq_of_le h with hlt | heq
  · exact ⟨d[k], by rw [entryFor_of_lt hlt, List.getElem?_eq_getElem hlt]⟩
  · exact ⟨_, entryFor_of_eq heq⟩

theorem decodeLoop_of_none (h : entryFor d w k = none) (ks : List Nat) :
    decodeLoop d w (k :: ks) = { symbols := [], bad := some k } := by
  rw [decodeLoop, h]

theorem decodeLoop_of_some {e : List Symbol} (h : entryFor d w k = some e) (ks : List Nat) :
    decodeLoop d w (k :: ks) = (decodeLoop (d ++ [w ++ e.take 1]) e ks).after e := by
  rw [decodeLoop, h]
  rfl

theorem decodeDict_of_some {e : List Symbol} (h : entryFor d w k = some e) (ks : List Nat) :
    decodeDict d w (k :: ks) = decodeDict (d ++ [w ++ e.take 1]) e ks := by
  rw [decodeDict, h]

theorem decode_of_bad (h : 255 < k) (ks : List Nat) : decode k ks = { symbols := [], bad := some k } :=
  if_neg (Nat.not_le.2 h)

theorem decode_of_seed (h : k ≤ 255) (ks : List Nat) :
    decode k ks = (decodeLoop seeds [BitVec.ofNat 8 k] ks).after [BitVec.ofNat 8 k] :=
  if_pos h

end Sys2Proof.Source
end

section
/-! The decoder refines the source's `decode` (spec/42_decoder.md R187): a later DEC_CODE that does not fail is one
round of the source's loop on the unit's dictionary and its `w`, BadCode is the source's own failure, and DictFull falls
where the dictionary has no room for the round's entry. -/

namespace Sys2Proof.Machine

/-! ### The dictionary in the source's form -/

theorem UnitCore.length_sourceDict (u : UnitCore) : u.sourceDict.length = u.next.toNat := by
  rw [UnitCore.sourceDict, List.length_map, List.length_range]

/-- The phrase at a position is that of the position's code, and neither is defined from `next` on. -/
theorem UnitCore.Inv.getElem?_sourceDict {p : Params} {u : UnitCore} (h : u.Inv p) (k : Nat) :
    u.sourceDict[k]? = u.phrase k := by
  by_cases hk : k < u.next.toNat
  · rw [h.phrase_eq_some hk, UnitCore.sourceDict, List.getElem?_map, List.getElem?_range hk, Option.map_some]
  · have := h.next_ge
    rw [List.getElem?_eq_none (by rw [u.length_sourceDict]; omega), UnitCore.phrase, phraseFuel, if_neg (by omega),
      if_neg hk]

/-- The source's previous phrase `w` (10_state.md R30), once a code was consumed. -/
def DecUnit.previous (d : DecUnit) : List Symbol := d.phraseOf d.prev.toNat

/-- What the source would still decode from the codes `ks`. -/
def DecUnit.toCome (d : DecUnit) (ks : List Operand) : Source.Decoded :=
  Source.decodeLoop d.sourceDict d.previous (ks.map (·.toNat))

/-- The source's dictionary after the codes `ks`. -/
def DecUnit.dictToCome (d : DecUnit) (ks : List Operand) : Source.Dict :=
  Source.decodeDict d.sourceDict d.previous (ks.map (·.toNat))

section
variable {p : Params} {d d' : DecUnit} {k : Operand} {ph : List Symbol}

/-- One round of the source's decode loop, from `d` to `d'` with the phrase `ph` of code `k` (42_decoder.md R183). -/
structure DecUnit.Round (d : DecUnit) (k : Operand) (d' : DecUnit) (ph : List Symbol) : Prop where
  entry : Source.entryFor d.sourceDict d.previous k.toNat = some ph
  dict : d'.sourceDict = d.sourceDict ++ [d.previous ++ ph.take 1]
  previous : d'.previous = ph

theorem DecUnit.Round.toCome_cons (h : d.Round k d' ph) (ks : List Operand) :
    d.toCome (k :: ks) = (d'.toCome ks).after ph := by
  rw [DecUnit.toCome, DecUnit.toCome, h.dict, h.previous]
  exact Source.decodeLoop_of_some h.entry _

theorem DecUnit.Round.dictToCome_cons (h : d.Round k d' ph) (ks : List Operand) :
    d.dictToCome (k :: ks) = d'.dictToCome ks := by
  rw [DecUnit.dictToCome, DecUnit.dictToCome, h.dict, h.previous]
  exact Source.decodeDict_of_some h.entry _

/-- A later DEC_CODE that does not fail is one round of the source's loop (42_decoder.md R183). -/
theorem DecEffect.round (h : DecEffect p d (.decCode k) d' ph) (hp : p.wf) (hi : d.Inv p) (hv : d.havePrev = true)
    (hs : d'.state = .active) :
    d.Round k d' ph ∧ d'.havePrev = true ∧ d.next.toNat < p.dictCap ∧ d'.next.toNat = d.next.toNat + 1 := by
  cases h with
  | wrongState => nomatch hs
  | badCode => nomatch hs
  | dictFull => nomatch hs
  | first _ _ hv' => simp [hv] at hv'
  | later _ c x m _ _ _ hk _ hx hm hph =>
    obtain ⟨rest, hknown, hself, hnew, hwalk⟩ := hi.later_phrase hv hk hp hx hm
    cases hph.symm.trans hwalk
    obtain ⟨⟨-, hlt, -⟩, -⟩ := dictWrite_ok.1 hm
    refine ⟨⟨?_, hi.core.sourceDict_insert hp hm rfl, ?_⟩, hv, hlt, next_succ hp hlt⟩
    · rcases hk with ⟨hk, -⟩ | ⟨hk, -⟩
      · rw [Source.entryFor_of_lt (by rwa [UnitCore.length_sourceDict]), hi.core.getElem?_sourceDict, hknown hk]
      · obtain ⟨w, hw, rfl⟩ := hself hk
        rw [Source.entryFor_of_eq (by rw [UnitCore.length_sourceDict, hk]), DecUnit.previous, UnitCore.phraseOf, hw]
        rfl
    · exact congrArg (Option.getD · []) hnew

end

/-! ### How a session ends -/

/-- How DEC_END, after the codes `ks`, leaves the decoder `d'` and the appended symbols (42_decoder.md R187). Here `dec`
is what the source decodes from a list of codes, `dict` its dictionary afterwards, and `room` the number of entries there
is still room for. The session ends with the source's bad code, in DictFull, or in DONE with the source's symbols and
dictionary. -/
inductive DecEnds (p : Params) (room : Nat) (dec : List Operand → Source.Decoded) (dict : List Operand → Source.Dict)
    (ks : List Operand) (d' : DecUnit) : List Symbol → Prop
  | badCode (b : Nat) (out : List Symbol) : dec (ks.take (room + 1)) = { symbols := out, bad := some b } →
      d'.state = .error → d'.err = .badCode → d'.errinfo = BitVec.ofNat 32 b → DecEnds p room dec dict ks d' out
  | dictFull : room < ks.length → (dec (ks.take (room + 1))).bad = none → d'.state = .error → d'.err = .dictFull →
      d'.errinfo = BitVec.ofNat 32 p.dictCap → DecEnds p room dec dict ks d' (dec (ks.take room)).symbols
  | done (out : List Symbol) : ks.length ≤ room → dec ks = { symbols := out, bad := none } → d'.state = .done →
      d'.sourceDict = dict ks → DecEnds p room dec dict ks d' out

section
variable {p : Params} {room : Nat} {dec dec' : List Operand → Source.Decoded} {dict dict' : List Operand → Source.Dict}
  {ks : List Operand} {d : DecUnit} {out ph : List Symbol}

/-- More symbols before those of the rest. -/
theorem DecEnds.after (h : DecEnds p room dec' dict' ks d out) (hdec : ∀ l, dec l = (dec' l).after ph)
    (hdict : ∀ l, dict l = dict' l) : DecEnds p room dec dict ks d (ph ++ out) := by
  cases h with
  | badCode b _ hbad hs he hinfo => exact .badCode b _ (by rw [hdec, hbad]; rfl) hs he hinfo
  | dictFull hlen hbad hs he hinfo =>
    rw [show ph ++ (dec' (ks.take room)).symbols = (dec (ks.take room)).symbols by rw [hdec]; rfl]
    exact .dictFull hlen (by rw [hdec]; exact hbad) hs he hinfo
  | done _ hlen hdone hs hd => exact .done _ hlen (by rw [hdec, hdone]; rfl) hs (hd.trans (hdict ks).symm)

/-- One more code in front takes the room of one entry. -/
theorem DecEnds.cons {k : Operand} (h : DecEnds p room (dec <| k :: ·) (dict <| k :: ·) ks d out) :
    DecEnds p (room + 1) dec dict (k :: ks) d out := by
  cases h with
  | badCode b _ hbad hs he hinfo => exact .badCode b _ hbad hs he hinfo
  | dictFull hlen hbad hs he hinfo => exact .dictFull (Nat.succ_lt_succ hlen) hbad hs he hinfo
  | done _ hlen hdone hs hdict => exact .done _ (Nat.succ_le_succ hlen) hdone hs hdict

end

/-! ### The commands of a session -/

theorem zext32_eq_ofNat {n : Nat} (v : BitVec n) : zext32 v = BitVec.ofNat 32 v.toNat := (BitVec.ofNat_toNat 32 v).symm

/-- The invariant with another decoder and symbol stream. -/
theorem Inv.replaceDec {s : State} (h : Inv s) {d : DecUnit} (hd : d.Inv s.params) (out : List Symbol) :
    Inv { s with dec := d, decOut := out } :=
  { h with dec := hd }

/-- After an error the rest of a session's commands is discarded (40_dispatch.md R135). -/
theorem execList_of_dec_error {s : State} (h : s.dec.state = .error) (ks : List Operand) :
    execList (ks.map .decCode ++ [.decEnd]) s = .next s := by
  obtain ⟨-, hcode, hend⟩ := unitInErrorDiscardsAllButClear.2 s h
  induction ks with
  | nil => exact execList_cons hend
  | cons k ks ih => exact (execList_cons (hcode k)).trans ih

/-- A later DEC_CODE that fails ends the session with the source's bad code or, where the dictionary is full, with
DictFull. -/
theorem DecEffect.ends_of_failed {p : Params} {d d' : DecUnit} {k : Operand} {ph : List Symbol}
    (h : DecEffect p d (.decCode k) d' ph) (ha : d.state = .active) (hv : d.havePrev = true) (hs : d'.state ≠ .active)
    (ks : List Operand) :
    d'.state = .error ∧ DecEnds p (p.dictCap - d.next.toNat) d.toCome d.dictToCome (k :: ks) d' ph := by
  cases h with
  | wrongState _ ha' => exact absurd ha ha'
  | badCode _ _ hk =>
    have hbad : d.next.toNat < k.toNat := by simpa [hv] using hk
    refine ⟨rfl, .badCode k.toNat [] ?_ rfl rfl (zext32_eq_ofNat k)⟩
    exact Source.decodeLoop_of_none (Source.entryFor_of_gt (by rwa [UnitCore.length_sourceDict])) _
  | dictFull _ _ _ hk hn =>
    obtain ⟨e, he⟩ := Source.exists_entryFor (w := d.previous) (hk.trans_eq d.length_sourceDict.symm)
    rw [hn, Nat.sub_self]
    refine ⟨rfl, .dictFull (Nat.succ_pos _) ?_ rfl rfl (hn ▸ zext32_eq_ofNat d.next)⟩
    exact congrArg Source.Decoded.bad (Source.decodeLoop_of_some he _)
  | first _ ha' => exact absurd ha' hs
  | later _ _ _ _ _ ha' => exact absurd ha' hs

/-- From an open session with a code consumed, more codes and DEC_END end it as the source's loop says. -/
theorem execList_of_decoding {s : State} (hi : Inv s) (hb : s.blk.illegal = false) (ha : s.dec.state = .active)
    (hv : s.dec.havePrev = true) (ks : List Operand) :
    ∃ d out, execList (ks.map .decCode ++ [.decEnd]) s = .next { s with dec := d, decOut := s.decOut ++ out } ∧
      DecEnds s.params (s.params.dictCap - s.dec.next.toNat) s.dec.toCome s.dec.dictToCome ks d out := by
  induction ks generalizing s with
  | nil =>
    have hx := execList_cons (is := []) (exec_decEnd_of_some hb ha hv)
    refine ⟨{ s.dec with state := .done }, [], ?_, .done [] (Nat.zero_le _) rfl rfl rfl⟩
    rwa [List.append_nil]
  | cons k ks ih =>
    obtain ⟨d, ph, heff, hx⟩ := decPerforms_decCode hi hb ha k
    rw [List.map_cons, List.cons_append, execList_cons hx]
    by_cases hs : d.state = .active
    · obtain ⟨hround, hv', hlt, hnext⟩ := heff.round hi.params hi.dec hv hs
      obtain ⟨d', out, hrun, hend⟩ := ih (s := { s with dec := d, decOut := s.decOut ++ ph })
        (hi.replaceDec (heff.inv hi.params hi.dec) _) hb hs hv'
      refine ⟨d', ph ++ out, by rw [hrun, List.append_assoc], ?_⟩
      rw [show s.params.dictCap - s.dec.next.toNat = s.params.dictCap - d.next.toNat + 1 by omega]
      exact (hend.after hround.toCome_cons hround.dictToCome_cons).cons
    · obtain ⟨herr, hend⟩ := heff.ends_of_failed ha hv hs ks
      exact ⟨d, ph, execList_of_dec_error (s := { s with dec := d, decOut := s.decOut ++ ph }) herr ks, hend⟩

/-- Before the first entry the source's loop on the unit's dictionary and `w` is the source's `decode` (42_decoder.md
R183). -/
theorem DecUnit.decode_of_first {d : DecUnit} {k : Operand} (hn : d.next = 256) (hv : d.prev = k) (hk : k.toNat ≤ 255)
    (l : List Operand) :
    Source.decode k.toNat (l.map (·.toNat)) = (d.toCome l).after [k.setWidth 8] := by
  rw [Source.decode_of_seed hk, DecUnit.toCome, UnitCore.sourceDict_fresh hn, DecUnit.previous, hv,
    d.phraseOf_operand hk, BitVec.ofNat_toNat]

theorem DecUnit.decodeDict_of_first {d : DecUnit} {k : Operand} (hn : d.next = 256) (hv : d.prev = k)
    (hk : k.toNat ≤ 255) (l : List Operand) :
    Source.decodeDict Source.seeds [k.setWidth 8] (l.map (·.toNat)) = d.dictToCome l := by
  rw [DecUnit.dictToCome, UnitCore.sourceDict_fresh hn, DecUnit.previous, hv, d.phraseOf_operand hk]

/-- The first code opens the source's loop: its symbol is emitted and is the source's `w` (42_decoder.md R183). -/
theorem execList_of_first {s : State} (hi : Inv s) (hb : s.blk.illegal = false) (ha : s.dec.state = .active)
    (hv : s.dec.havePrev = false) (k : Operand) (ks : List Operand) :
    ∃ d out, execList ((k :: ks).map .decCode ++ [.decEnd]) s = .next { s with dec := d, decOut := s.decOut ++ out } ∧
      DecEnds s.params (s.params.dictCap - 256) (fun l => Source.decode k.toNat (l.map (·.toNat)))
        (fun l => Source.decodeDict Source.seeds [k.setWidth 8] (l.map (·.toNat))) ks d out := by
  obtain ⟨-, hfirst, hbad, -⟩ := decCodeEmitsThePhrase.2 s k hi hb (by rw [ha]; decide)
  rw [List.map_cons, List.cons_append]
  rcases Nat.lt_or_ge 255 k.toNat with hk | hk
  · refine ⟨{ s.dec with state := .error, err := .badCode, errinfo := 0#4 ++ k }, [], ?_,
      .badCode k.toNat [] (Source.decode_of_bad hk _) rfl rfl ((zext32_code k).symm.trans (zext32_eq_ofNat k))⟩
    rw [execList_cons (hbad ha hv hk), List.append_nil]
    exact execList_of_dec_error rfl ks
  · rw [execList_cons (hfirst ha hv hk)]
    obtain ⟨d, out, hrun, hend⟩ := execList_of_decoding
      (s := { s with
        decOut := s.decOut ++ [k.setWidth 8]
        dec :=
          { s.dec with
            outCount := s.dec.outCount + 1, havePrev := true, prev := k, inCount := s.dec.inCount + 1 } })
      (hi.replaceDec (hi.dec.first ha hk _ _) _) hb ha rfl ks
    refine ⟨d, [k.setWidth 8] ++ out, by rw [hrun, List.append_assoc], ?_⟩
    have hfresh := hi.dec.fresh hv
    rw [show (256 : Nat) = s.dec.next.toNat by rw [hfresh]; rfl]
    exact hend.after (DecUnit.decode_of_first (by exact hfresh) rfl hk)
      (DecUnit.decodeDict_of_first (by exact hfresh) rfl hk)

/-- DEC_SEQ with at least one code ends as the source's `decode` says, within the room of the dictionary. -/
theorem execList_decSeq {s : State} (hi : Inv s) (hb : s.blk.illegal = false) (hs : s.dec.state ≠ .error) (k : Operand)
    (ks : List Operand) :
    ∃ d out, execList (Pseudo.decSeq (k :: ks)) s = .next { s with dec := d, decOut := s.decOut ++ out } ∧
      DecEnds s.params (s.params.dictCap - 256) (fun l => Source.decode k.toNat (l.map (·.toNat)))
        (fun l => Source.decodeDict Source.seeds [k.setWidth 8] (l.map (·.toNat))) ks d out := by
  rw [Pseudo.decSeq, execList_cons (decStartOpensASession.2.2 s hb hs)]
  exact execList_of_first (hi.replaceDec (hi.dec.restart hi.params (.inl rfl)) s.decOut) hb rfl rfl k ks

/-- Settles O49: DEC_START and DEC_END alone leave no code consumed; with codes the session ends in one of three ways,
of which the source's bad code and the number of codes select one. -/
theorem decoderSessionIsTheSourcesDecode : Obligations.DecoderSessionIsTheSourcesDecode := by
  intro s hi hb hs hempty
  refine ⟨?_, ?_⟩
  · have hend := exec_decEnd_of_none
      (s := s.setDec { s.dec with toUnitCore := s.dec.toUnitCore.opened, havePrev := false, prev := 0 }) hb rfl rfl
    exact ⟨_, (execList_cons (decStartOpensASession.2.2 s hb hs)).trans (execList_cons hend), hempty, rfl, rfl, rfl⟩
  · intro k ks fits upTo nats
    obtain ⟨d, out, hrun, hend⟩ := execList_decSeq hi hb hs k ks
    have hupTo : ks.take (s.params.dictCap - 256 + 1) = upTo := by
      have := hi.params.1
      rw [show s.params.dictCap - 256 + 1 = s.params.dictCap - 255 by omega]
    refine ⟨_, hrun, rfl, ?_⟩
    rw [hempty, List.nil_append]
    cases hend with
    | badCode b _ hdec hstate herr hinfo =>
      rw [hupTo] at hdec
      rw [hdec]
      refine ⟨fun b' hb' => ?_, nofun⟩
      cases hb'
      exact ⟨rfl, hstate, herr, hinfo⟩
    | dictFull hlen hdec hstate herr hinfo =>
      rw [hupTo] at hdec
      rw [hdec]
      exact ⟨nofun, fun _ => ⟨fun hle => absurd hlen hle.not_gt, fun _ => ⟨rfl, hstate, herr, hinfo⟩⟩⟩
    | done _ hlen hdec hstate =>
      have hall : upTo = ks := by rw [← hupTo, List.take_of_length_le (by omega)]
      rw [hall, hdec]
      exact ⟨nofun, fun _ => ⟨fun _ => ⟨rfl, hstate⟩, fun hgt => absurd hgt hlen.not_gt⟩⟩

end Sys2Proof.Machine
end

section
/-! What the source's decode loop makes of the codes of its encode loop (spec/42_decoder.md R188): an encoder's round
adds its code in front of codes that the decode loop reads from the dictionary with the round's entry. -/

namespace Sys2Proof.Source

/-- The encoder, at the phrase `w` of the dictionary `d`, has yet to send `codes` for the symbols `rest` and ends with
the dictionary `d'`: the first code is that of the phrase which `w` grows into, and from there the source's decode loop
gives back the other symbols and ends with `d'`. -/
def DecodesTo (d : Dict) (w : List Symbol) (codes : List Nat) (rest : List Symbol) (d' : Dict) : Prop :=
  ∃ k ks u out, codes = k :: ks ∧ d[k]? = some (w ++ u) ∧ rest = u ++ out ∧
    decodeLoop d (w ++ u) ks = { symbols := out, bad := none } ∧ decodeDict d (w ++ u) ks = d'

variable {d d' : Dict} {w rest : List Symbol} {c : Symbol} {k : Nat} {codes : List Nat}

/-- A code of the dictionary with one more entry, `w ++ [c]`, has the same phrase for the decoder that has yet to insert
it, if the phrase begins with `c`: SELFREF is the case where it is that entry (42_decoder.md R183). -/
theorem entryFor_of_getElem? {u : List Symbol} (hw : w ≠ []) (h : (d ++ [w ++ [c]])[k]? = some (c :: u)) :
    entryFor d w k = some (c :: u) := by
  obtain ⟨y, v, rfl⟩ := List.exists_cons_of_ne_nil hw
  obtain ⟨hlt, hget⟩ := List.getElem?_eq_some_iff.1 h
  have hle : k ≤ d.length := by simpa [Nat.lt_succ_iff] using hlt
  rcases Nat.lt_or_eq_of_le hle with hk | hk
  · rw [List.getElem_append_left hk] at hget
    rw [entryFor_of_lt hk, List.getElem?_eq_getElem hk, hget]
  · simp only [hk, List.getElem_concat_length] at hget
    obtain ⟨rfl, rfl⟩ := List.cons.inj hget
    exact entryFor_of_eq hk

/-- ENC_END sends the code of `w`. -/
theorem DecodesTo.last (hk : d[k]? = some w) : DecodesTo d w [k] [] d :=
  ⟨k, [], [], [], rfl, by rwa [List.append_nil], rfl, rfl, rfl⟩

/-- A key: `w` grows. -/
theorem DecodesTo.hit (h : DecodesTo d (w ++ [c]) codes rest d') : DecodesTo d w codes (c :: rest) d' := by
  obtain ⟨k, ks, u, out, hcodes, hk, hrest, hloop, hdict⟩ := h
  rw [← List.append_cons] at hk hloop hdict
  exact ⟨k, ks, c :: u, out, hcodes, hk, by rw [hrest]; rfl, hloop, hdict⟩

/-- No key: the code of `w` is sent, and the next code tells the decoder the entry `w ++ [c]`. -/
theorem DecodesTo.miss (hk : d[k]? = some w) (hw : w ≠ []) (h : DecodesTo (d ++ [w ++ [c]]) [c] codes rest d') :
    DecodesTo d w (k :: codes) (c :: rest) d' := by
  obtain ⟨k', ks, u, out, rfl, hk', rfl, hloop, hdict⟩ := h
  have hentry := entryFor_of_getElem? hw hk'
  refine ⟨k, k' :: ks, [], c :: (u ++ out), rfl, by rwa [List.append_nil], rfl, ?_, ?_⟩
  · rw [List.append_nil, decodeLoop_of_some hentry]
    exact congrArg (Decoded.after · (c :: u)) hloop
  · rw [List.append_nil, decodeDict_of_some hentry]
    exact hdict

/-- From the seeds, the codes are decoded to the symbols. -/
theorem DecodesTo.decode_eq (h : DecodesTo seeds [] codes rest d') :
    ∃ k ks, codes = k :: ks ∧ decode k ks = { symbols := rest, bad := none } ∧
      decodeDict seeds [BitVec.ofNat 8 k] ks = d' := by
  obtain ⟨k, ks, u, out, rfl, hk, rfl, hloop, hdict⟩ := h
  obtain ⟨hlt, hu⟩ := List.getElem?_eq_some_iff.1 hk
  have hseed : [BitVec.ofNat 8 k] = [] ++ u := by simpa [seeds] using hu
  have hk255 : k ≤ 255 := by simpa [seeds, Nat.lt_succ_iff] using hlt
  refine ⟨k, ks, rfl, ?_, hseed ▸ hdict⟩
  rw [decode_of_seed hk255, hseed, hloop]
  rfl

end Sys2Proof.Source
end

section
/-! The decoder undoes the encoder (spec/42_decoder.md R188): the codes of a session that ends DONE are all decoded,
they fit the decoder's dictionary as they fitted the encoder's, and both dictionaries end as the source's. -/

namespace Sys2Proof.Machine

/-! ### The encoder's rounds -/

section
variable {p : Params} {e e' : EncUnit} {x : Operand} {cs : List Code}

/-- After an ENC_SYM the encoder is ACTIVE or has failed. -/
theorem EncEffect.active_or_error (h : EncEffect p e (.encSym x) e' cs) : e'.state = .active ∨ e'.state = .error := by
  cases h with
  | wrongState => exact .inr rfl
  | invalidSymbol => exact .inr rfl
  | dictFull => exact .inr rfl
  | started _ ha => exact .inl ha
  | extended _ _ ha => exact .inl ha
  | missed _ _ ha => exact .inl ha

/-- An ENC_SYM that does not fail lets `w` grow, or emits its code, inserts `w ++ [x]` and restarts at `x`
(41_encoder.md R153). -/
theorem EncEffect.round (h : EncEffect p e (.encSym x) e' cs) (hp : p.wf) (hi : e.Inv p) (hs : e'.state = .active) :
    (cs = [] ∧ e'.sourceDict = e.sourceDict ∧ e'.matched = e.matched ++ [x.setWidth 8]) ∨
      (cs = [e.wCode] ∧ e.wValid = true ∧ e'.sourceDict = e.sourceDict ++ [e.matched ++ [x.setWidth 8]] ∧
        e'.matched = [x.setWidth 8]) := by
  cases h with
  | wrongState => nomatch hs
  | invalidSymbol => nomatch hs
  | dictFull => nomatch hs
  | started _ _ hx hw =>
    rw [EncUnit.matched_of_empty hw]
    exact .inl ⟨rfl, rfl, e.phraseOf_operand hx⟩
  | extended _ k _ _ hw hk =>
    obtain ⟨hlt, hkey⟩ := (hi.camFind_iff_phraseOf hp (hi.w_code_lt hw)).1 hk
    have hcode : e.phraseOf (BitVec.ofNat 28 k).toNat = e.phraseOf k := by rw [hi.code_toNat hp hlt]
    rw [EncUnit.matched_of_valid hw, ← hkey, ← hcode]
    exact .inl ⟨rfl, rfl, rfl⟩
  | missed _ m _ hx hw _ _ hm =>
    rw [EncUnit.matched_of_valid hw]
    refine .inr ⟨rfl, hw, hi.core.sourceDict_insert hp hm rfl, ?_⟩
    rw [EncUnit.matched_of_valid]
    · exact UnitCore.phraseOf_operand _ hx
    · exact hw

theorem EncUnit.Inv.getElem?_wCode (h : e.Inv p) (hw : e.wValid = true) :
    e.sourceDict[e.wCode.toNat]? = some e.matched := by
  rw [h.core.getElem?_sourceDict, h.core.phrase_eq_some (h.w_code_lt hw), EncUnit.matched_of_valid hw]

theorem EncUnit.Inv.matched_ne_nil (h : e.Inv p) (hw : e.wValid = true) : e.matched ≠ [] := by
  rw [EncUnit.matched_of_valid hw]
  exact h.core.phraseOf_ne_nil (h.w_code_lt hw)

end

/-- An open session with a symbol in it, or one to come, that ends DONE has sent codes that decode to its symbols. -/
theorem execList_decodesTo {s t : State} (hp : s.params.wf) (hi : s.enc.Inv s.params) (hb : s.blk.illegal = false)
    (ha : s.enc.state = .active) {S : List Operand} (hne : s.enc.wValid = true ∨ S ≠ [])
    (hrun : execList (S.map .encSym ++ [.encEnd]) s = .next t) (hdone : t.enc.state = .done) :
    ∃ cs : List Code, t.encOut = s.encOut ++ cs ∧
      Source.DecodesTo s.enc.sourceDict s.enc.matched (cs.map (·.toNat)) (S.map (·.setWidth 8)) t.enc.sourceDict := by
  induction S generalizing s with
  | nil =>
    have hw : s.enc.wValid = true := by simpa using hne
    obtain ⟨-, hflush, -⟩ := encEndEmitsTheLastCode.2 s hb (by rw [ha]; decide)
    cases (execList_cons (is := []) (hflush ha hw)).symm.trans hrun
    exact ⟨[s.enc.wCode], rfl, .last (hi.getElem?_wCode hw)⟩
  | cons x S ih =>
    obtain ⟨e, cs, heff, hx⟩ := encPerforms_encSym hi hb ha x
    rw [List.map_cons, List.cons_append, execList_cons hx] at hrun
    rcases heff.active_or_error with hs | hs
    · obtain ⟨hw', -⟩ := heff.encSym_counts hp hs
      obtain ⟨cs', hout, hdec⟩ := ih (s := { s with enc := e, encOut := s.encOut ++ cs }) hp (heff.inv hp hi) hb hs
        (.inl hw') hrun
      refine ⟨cs ++ cs', by rw [hout, List.append_assoc], ?_⟩
      rcases heff.round hp hi hs with ⟨rfl, hdict, hmatched⟩ | ⟨rfl, hw, hdict, hmatched⟩
      · rw [hdict, hmatched] at hdec
        exact hdec.hit
      · rw [hdict, hmatched] at hdec
        exact hdec.miss (hi.getElem?_wCode hw) (hi.matched_ne_nil hw)
    · cases (execList_of_enc_error (s := { s with enc := e, encOut := s.encOut ++ cs }) hs S).symm.trans hrun
      cases hs.symm.trans hdone

/-! ### The two sessions -/

/-- A list of commands without reserved rows keeps the invariant. -/
theorem execList_inv {is : List Instr} {s t : State} (hi : Inv s)
    (hw : ∀ i ∈ is, ∀ w, i = .illegalAB w ∨ i = .illegalCF w → illFormed w = true) (hrun : execList is s = .next t) :
    Inv t := by
  induction is generalizing s with
  | nil =>
    cases hrun
    exact hi
  | cons i is ih =>
    obtain ⟨hwi, hwis⟩ := List.forall_mem_cons.1 hw
    obtain ⟨r, hr⟩ := exec_answers hi i
    rw [execList_cons hr] at hrun
    exact ih ((exec_effect hr).inv hi hwi) hwis hrun

theorem encSeq_inv {S : List Operand} {s t : State} (hi : Inv s) (hrun : execList (Pseudo.encSeq S) s = .next t) :
    Inv t := by
  refine execList_inv hi (fun i hmem w hiw => ?_) hrun
  rcases hiw with rfl | rfl <;> simp [Pseudo.encSeq] at hmem

theorem decSeq_inv {ks : List Operand} {s t : State} (hi : Inv s) (hrun : execList (Pseudo.decSeq ks) s = .next t) :
    Inv t := by
  refine execList_inv hi (fun i hmem w hiw => ?_) hrun
  rcases hiw with rfl | rfl <;> simp [Pseudo.decSeq] at hmem

/-- A decoder session whose codes fit and are none of them bad ends DONE with the source's symbols and dictionary. -/
theorem DecEnds.done_of_fits {p : Params} {room : Nat} {dec : List Operand → Source.Decoded}
    {dict : List Operand → Source.Dict} {ks : List Operand} {d : DecUnit} {out syms : List Symbol}
    (h : DecEnds p room dec dict ks d out) (hlen : ks.length ≤ room)
    (hdec : dec ks = { symbols := syms, bad := none }) : out = syms ∧ d.state = .done ∧ d.sourceDict = dict ks := by
  cases h with
  | badCode b _ hbad =>
    rw [List.take_of_length_le (by omega), hdec] at hbad
    nomatch hbad
  | dictFull hlong => exact absurd hlong hlen.not_gt
  | done _ _ hdone hstate hdict =>
    cases hdone.symm.trans hdec
    exact ⟨rfl, hstate, hdict⟩

section
variable {s t : State} {S : List Operand} (hi : Inv s) (hb : s.blk.illegal = false) (hs : s.enc.state ≠ .error)
  (hempty : s.encOut = []) (hne : S ≠ []) (hrun : execList (Pseudo.encSeq S) s = .next t) (hdone : t.enc.state = .done)
include hi hb hs hempty hne hrun hdone

/-- The codes of an ENC_SEQ that ends DONE fit the dictionary (41_encoder.md R156), and what is not of the encoder stays
as it is. -/
theorem encSeq_fits (hS : ∀ x ∈ S, x.toNat ≤ 255) :
    t.encOut.length ≤ s.params.dictCap - 255 ∧ t.params = s.params ∧ t.blk = s.blk ∧ t.dec = s.dec ∧
      t.decOut = s.decOut := by
  obtain ⟨-, hfits, hlong⟩ := encoderSessionIsTheSourcesEncode s S hi hb hs hempty hS
  rcases Nat.lt_or_ge (s.params.dictCap - 255) (Source.encode (S.map (·.setWidth 8))).length with hlen | hlen
  · obtain ⟨t', hrun', -, herr, -⟩ := hlong hlen hne
    cases hrun.symm.trans hrun'
    cases herr.symm.trans hdone
  · obtain ⟨t', hrun', hout, -, -, -, -, hframe⟩ := hfits (.inl hlen)
    cases hrun.symm.trans hrun'
    rw [← hout, List.length_map] at hlen
    refine ⟨hlen, ?_⟩
    rw [← hframe]
    exact ⟨rfl, rfl, rfl, rfl⟩

/-- Its codes are decoded from the seeds to its symbols. -/
theorem encSeq_decodesTo :
    Source.DecodesTo Source.seeds [] (t.encOut.map (·.toNat)) (S.map (·.setWidth 8)) t.enc.sourceDict := by
  rw [Pseudo.encSeq, execList_cons (encStartOpensASession.2.2 s hb hs)] at hrun
  obtain ⟨cs, hout, hcodes⟩ := execList_decodesTo
    (s := s.setEnc { s.enc with toUnitCore := s.enc.toUnitCore.opened, wValid := false, wCode := 0 })
    hi.params (hi.enc.restart hi.params (.inl rfl)) hb rfl (.inr hne) hrun hdone
  rw [UnitCore.sourceDict_fresh rfl, EncUnit.matched_of_empty rfl] at hcodes
  rw [hout, State.setEnc_encOut, hempty]
  exact hcodes

end

/-- Settles O50: the codes decode to the symbols and to the encoder's dictionary by the source's loops, and the decoder,
for which they fit, does as the source does. -/
theorem decodingAnEncodedSequenceGivesItBack : Obligations.DecodingAnEncodedSequenceGivesItBack := by
  intro s t S hi hb hse hsd hempty hne hS hrun hdone
  obtain ⟨hlen, hparams, hblk, hdec, hdecOut⟩ := encSeq_fits hi hb hse hempty hne hrun hdone hS
  obtain ⟨n, ns, hcodes, hdecode, hdict⟩ := (encSeq_decodesTo hi hb hse hempty hne hrun hdone).decode_eq
  obtain ⟨k, ks, hout, rfl, rfl⟩ := List.map_eq_cons_iff.1 hcodes
  have hit := encSeq_inv hi hrun
  obtain ⟨d, out, hrun', hends⟩ := execList_decSeq hit (hblk ▸ hb) (hdec ▸ hsd) k ks
  have hroom : ks.length ≤ t.params.dictCap - 256 := by
    rw [hout, List.length_cons] at hlen
    rw [hparams]
    omega
  obtain ⟨rfl, hstate, hd⟩ := hends.done_of_fits hroom hdecode
  have hsame : d.sourceDict = t.enc.sourceDict := by
    rw [← hdict, hd, BitVec.ofNat_toNat]
  rw [← hout] at hrun'
  refine ⟨_, hrun', hstate, by rw [hdecOut], ?_, fun j _ => ?_⟩
  · apply BitVec.eq_of_toNat_eq
    rw [← UnitCore.length_sourceDict, ← UnitCore.length_sourceDict]
    exact congrArg List.length hsame
  · have hdinv : d.Inv t.params := (decSeq_inv hit hrun').dec
    show d.phrase j = t.enc.phrase j
    rw [← hdinv.core.getElem?_sourceDict, hsame, hit.enc.core.getElem?_sourceDict]

end Sys2Proof.Machine
end

section
/-! What a session's log accounts for along every run (spec/60_exceptions.md R233): while the session runs, the items
appended so far are those of its inputs so far, and what it has appended at its END no later step changes. Said for
either unit at once; a unit says what its own commands do to the account. -/

namespace Sys2Proof.Machine

section
variable {α : Type} {l : SessionLog α} {ev : SessionEvent} {v v' : UnitView α} {r : Prop}
  {run run' done : List Operand → List α → Prop}

/-- The log's inputs and output are in the relation `run` while the session runs, and in `done` once it has ended. -/
structure SessionLog.Accounts (l : SessionLog α) (run done : List Operand → List α → Prop) : Prop where
  running : l.phase = .running → run l.ins l.out
  ended : l.phase = .ended → done l.ins l.out

theorem SessionLog.accounts_new (h : run [] []) : (SessionLog.new : SessionLog α).Accounts run done where
  running _ := h
  ended hp := nomatch hp

/-- How a step that takes the unit from `v` to `v'` keeps the account of a running session, which is `run` before the
step and `run'` after it: a step that is nothing to the session keeps it, an input that does not fail extends it, and
END completes it. -/
structure KeepsAccount (ev : SessionEvent) (v v' : UnitView α) (run run' done : List Operand → List α → Prop) :
    Prop where
  quiet : ev = .other ∨ ev = .take → v'.state = .active → ∀ ins out, run ins out → run' ins out
  item : ∀ x, ev = .item x → v'.state = .active → ∀ ins out, run ins out →
    run' (ins ++ [x]) (out ++ v'.out.drop v.out.length)
  completes : ev = .completes → ∀ ins out, run ins out → done ins (out ++ v'.out.drop v.out.length)

/-- A step that leaves a running session running is nothing to it or an input of it, and its unit stays ACTIVE. -/
theorem UnitMove.running_cases (h : UnitMove r ev v v') (hp : l.phase = .running) (ha : v.state = .active)
    (hp' : (l.step ev v v').phase = .running) :
    v'.state = .active ∧ ((ev = .other ∨ ev = .take) ∧ v'.out.drop v.out.length = [] ∨ ∃ x, ev = .item x) := by
  rw [SessionLog.step_phase, hp] at hp'
  cases h with
  | other hev hout hs =>
    have : v'.state ≠ .error := fun he => by simp [hev, he, SessionPhase.after] at hp'
    exact ⟨(hs.resolve_right this).trans ha, .inl ⟨.inl hev, by simp [hout]⟩⟩
  | take hev hout hs => exact ⟨hs.trans ha, .inl ⟨.inr hev, by simp [hout]⟩⟩
  | item x hev _ hs =>
    have : v'.state ≠ .error := fun he => by simp [hev, he, SessionPhase.after] at hp'
    exact ⟨hs.resolve_right this, .inr ⟨x, hev⟩⟩
  | completes hev => simp [hev, SessionPhase.after] at hp'
  | opens hev => simp [hev, SessionPhase.after] at hp'
  | clears hev => simp [hev, SessionPhase.after] at hp'

/-- A running session ends only by its END. -/
theorem SessionPhase.after_running_ended {u : SessionState} (h : SessionPhase.running.after ev u = .ended) :
    ev = .completes := by
  cases ev with
  | completes => rfl
  | opens => nomatch h
  | clears => nomatch h
  | _ =>
    simp only [SessionPhase.after] at h
    split at h <;> nomatch h

/-- The account is kept by every step: of a running session because its unit keeps it, of an ended one because no
later step changes its inputs or its output (00_scope.md R12). -/
theorem SessionLog.Accounts.step (h : l.Accounts run done) (hi : l.Inv v) (hm : UnitMove r ev v v')
    (hk : KeepsAccount ev v v' run run' done) (ho : l.closed = false) : (l.step ev v v').Accounts run' done := by
  by_cases hp : l.phase = .running
  · have hrun := h.running hp
    constructor
    case running =>
      intro hp'
      obtain ⟨hs, ⟨hev, hnone⟩ | ⟨x, rfl⟩⟩ := hm.running_cases hp ((hi.phase_fits ho).running_iff.1 hp) hp'
      · rw [step_out, hnone, List.append_nil, step_ins (by rcases hev with rfl | rfl <;> simp)]
        exact hk.quiet hev hs _ _ hrun
      · exact hk.item x rfl hs _ _ hrun
    case ended =>
      intro hp'
      rw [step_phase, hp] at hp'
      obtain rfl := SessionPhase.after_running_ended hp'
      exact hk.completes rfl _ _ hrun
  · have hp' : (l.step ev v v').phase = l.phase := SessionPhase.after_of_ne hp _ _
    refine ⟨fun hr => absurd (hp'.symm.trans hr) hp, fun he => ?_⟩
    have he : l.phase = .ended := hp'.symm.trans he
    obtain ⟨hins, hout, -⟩ := hi.ended_step hm he ho
    rw [hins, hout]
    exact h.ended he

end

/-! ### Runs from a state that meets the invariant -/

theorem EncSession.keeps_inv {s0 s : State} {l : SessionLog Word} (h : EncSession s0 l s) (hi : Inv s0) : Inv s := by
  induction h with
  | opened _ hst => exact stepKeepsTheInvariant _ _ hi hst
  | later _ _ hst ih => exact stepKeepsTheInvariant _ _ ih hst

theorem DecSession.keeps_inv {s0 s : State} {l : SessionLog Symbol} (h : DecSession s0 l s) (hi : Inv s0) : Inv s := by
  induction h with
  | opened _ hst => exact stepKeepsTheInvariant _ _ hi hst
  | later _ _ hst ih => exact stepKeepsTheInvariant _ _ ih hst

/-- No step writes the parameter. -/
theorem step_params {s t : State} (h : step s = .next t) : t.params = s.params :=
  commandsTouchOnlyTheBlock.2 s t h

end Sys2Proof.Machine
end

section
/-! In any interleaving the output of an encoder session that ended is the source's encode of its symbols
(spec/60_exceptions.md R233, spec/41_encoder.md R156): each ENC_SYM performed is one round of the source's loop, and
whatever comes in between leaves the encoder as it is. -/

namespace Sys2Proof.Machine

/-- The words in which the sink gets the codes show the codes (20_memory.md R68). -/
theorem map_toNat_zext32 (cs : List Code) : (cs.map zext32).map (·.toNat) = cs.map (·.toNat) := by
  rw [List.map_map]
  exact List.map_congr_left fun c _ => zext32_toNat (by decide) c

section
variable {s t : State} {i : Instr} {x : Operand}

theorem encSeen_appended {cs : List Code} (h : t.encOut = s.encOut ++ cs) :
    t.encSeen.out.drop s.encSeen.out.length = cs.map zext32 := by
  simp [State.encSeen, h]

/-- A step that is nothing to the encoder's session and raises no error leaves the encoder as it is. -/
theorem enc_kept_of_quiet (hst : step s = .next t) (hev : encEvent s = .other ∨ encEvent s = .take)
    (hs : t.enc.state ≠ .error) : t.enc = s.enc := by
  cases step_encView hst with
  | other _ _ h => exact h.resolve_right fun h => hs h.1
  | take _ _ h => exact h
  | _ => simp_all

/-- A command that is performed in the accepting state has its effect on the encoder and its stream. -/
theorem EncPerforms.of_accepting (h : EncPerforms s.accepting i) (hx : exec i s.accepting = .next t) :
    ∃ cs, EncEffect s.params s.enc i t.enc cs ∧ t.encOut = s.encOut ++ cs := by
  obtain ⟨e, cs, heff, hx'⟩ := h
  cases hx.symm.trans hx'
  exact ⟨cs, heff, rfl⟩

theorem encEffect_of_item (hi : Inv s) (hst : step s = .next t) (hev : encEvent s = .item x) :
    ∃ cs, EncEffect s.params s.enc (.encSym x) t.enc cs ∧ t.encOut = s.encOut ++ cs := by
  cases step_encView hst with
  | item y hev' ha hb hx =>
    cases hev.symm.trans hev'
    exact (encPerforms_encSym (s := s.accepting) hi.enc hb ha x).of_accepting hx
  | _ => simp_all

theorem encEffect_of_completes (hst : step s = .next t) (hev : encEvent s = .completes) :
    ∃ cs, EncEffect s.params s.enc .encEnd t.enc cs ∧ t.encOut = s.encOut ++ cs := by
  cases step_encView hst with
  | completes _ ha hb hx => exact (encPerforms_encEnd (s := s.accepting) hb ha).of_accepting hx
  | _ => simp_all

/-- An ENC_SYM that does not fail had a symbol in range (60_exceptions.md R221). -/
theorem EncEffect.symbol_le {p : Params} {e e' : EncUnit} {cs : List Code} (h : EncEffect p e (.encSym x) e' cs)
    (hs : e'.state = .active) : x.toNat ≤ 255 := by
  cases h with
  | wrongState => nomatch hs
  | invalidSymbol => nomatch hs
  | dictFull => nomatch hs
  | _ => assumption

/-- A session opens when an ENC_START is performed. -/
theorem encEvent_opens (h : encEvent s = .opens) :
    acceptedWord s = some 0x10000000#32 ∧ s.blk.illegal = false ∧ s.enc.state ≠ .error := by
  unfold encEvent at h
  split at h
  · cases h
  · cases h
  · split at h
    · cases h
    · rename_i w ha
      generalize decode w = d at h
      split_ifs at h with hb hw he ho hs
      · exact ⟨by rw [ha, ho], by simpa using hb, he⟩
      · rcases d with _ | i
        · cases h
        · cases i <;> cases h

/-- A step that accepts a word performs its instruction. -/
theorem exec_of_acceptedWord {w : Word} (hst : step s = .next t) (ha : acceptedWord s = some w) :
    exec (instrOf w) s.accepting = .next t := by
  rcases step_cases hst with ⟨w', ha', -, -, -, hx⟩ | ⟨ha', -⟩ | ⟨ha', -⟩
  · cases ha.symm.trans ha'
    exact hx
  · nomatch ha.symm.trans ha'
  · nomatch ha.symm.trans ha'

end

/-! ### The account of an encoder session -/

/-- A running encoder session's account: its symbols are in range and encoded so far to its output. -/
def State.EncodingSoFar (s : State) (ins : List Operand) (out : List Word) : Prop :=
  (∀ x ∈ ins, x.toNat ≤ 255) ∧ s.enc.Encoding s.params (ins.map (·.setWidth 8)) (out.map (·.toNat))

/-- An ended encoder session's account: its output is the source's encode of its symbols. -/
def EncodedAll (ins : List Operand) (out : List Word) : Prop :=
  (∀ x ∈ ins, x.toNat ≤ 255) ∧ out.map (·.toNat) = Source.encode (ins.map (·.setWidth 8))

theorem step_encodingSoFar {s t : State} (hi : Inv s) (hst : step s = .next t) :
    KeepsAccount (encEvent s) s.encSeen t.encSeen s.EncodingSoFar t.EncodingSoFar EncodedAll where
  quiet hev hs ins out h := by
    have hs : t.enc.state = .active := hs
    rwa [State.EncodingSoFar, step_params hst, enc_kept_of_quiet hst hev (by rw [hs]; decide)]
  item x hev hs ins out := by
    rintro ⟨hle, he⟩
    obtain ⟨cs, heff, hout⟩ := encEffect_of_item hi hst hev
    refine ⟨List.forall_mem_append.2 ⟨hle, List.forall_mem_singleton.2 (heff.symbol_le hs)⟩, ?_⟩
    rw [step_params hst, encSeen_appended hout, List.map_append, List.map_append, map_toNat_zext32]
    exact heff.encoding hi.params hs he
  completes hev ins out := by
    rintro ⟨hle, he⟩
    obtain ⟨cs, heff, hout⟩ := encEffect_of_completes hst hev
    refine ⟨hle, ?_⟩
    rw [encSeen_appended hout, List.map_append, map_toNat_zext32]
    exact (heff.encoded hi.params he).out_eq

/-- A session opens with nothing encoded (41_encoder.md R152). -/
theorem encodingSoFar_opened {s t : State} (hi : Inv s) (hev : encEvent s = .opens) (hst : step s = .next t) :
    t.EncodingSoFar [] [] := by
  obtain ⟨hw, hb, hs⟩ := encEvent_opens hev
  have hx := exec_of_acceptedWord hst hw
  have hempty : s.encOut = [] := encOut_of_not_held (.inl rfl) (not_held_of_accepted hw)
  obtain ⟨e, hx', he⟩ := encStart_encoding hi.accepting hb hs hempty
  rw [show instrOf 0x10000000#32 = .encStart by decide] at hx
  cases hx.symm.trans hx'
  rw [hempty] at he
  exact ⟨by simp, he⟩

theorem EncSession.accounts {s0 s : State} {l : SessionLog Word} (h : EncSession s0 l s) (hi : Inv s0) :
    l.Accounts s.EncodingSoFar EncodedAll := by
  induction h with
  | opened hev hst => exact SessionLog.accounts_new (encodingSoFar_opened hi hev hst)
  | later h ho hst ih =>
    rw [encLogAfter_eq_step]
    exact ih.step h.inv (step_encMove hst) (step_encodingSoFar (h.keeps_inv hi) hst) ho

/-- Settles O57: along the run every symbol performed is a round of the source's loop, and ENC_END its last; nothing
after it changes the session. -/
theorem validEncoderOutputIsRight : Obligations.ValidEncoderOutputIsRight :=
  fun _ _ _ hi h hc => (h.accounts hi).ended hc.1

end Sys2Proof.Machine
end

section
/-! In any interleaving the output of a decoder session that ended is the source's decode of its codes
(spec/60_exceptions.md R233, spec/42_decoder.md R187): its first DEC_CODE opens the source's loop, each later one is a
round of it, and whatever comes in between leaves the decoder as it is. -/

namespace Sys2Proof.Source

theorem Decoded.after_after (r : Decoded) (a b : List Symbol) : (r.after b).after a = r.after (a ++ b) := by
  simp only [Decoded.after, List.append_assoc]

end Sys2Proof.Source

namespace Sys2Proof.Machine

/-! ### A session's codes so far -/

/-- An open session of the decoder `d` has decoded the codes `ins` so far, to the symbols `out`: whatever codes follow,
the source's decode starts with `out` and goes on from the unit's dictionary and its `w`. -/
inductive DecUnit.Decoding (d : DecUnit) : List Operand → List Symbol → Prop
  | fresh : d.havePrev = false → Decoding d [] []
  | consumed {k : Operand} {ks : List Operand} {out : List Symbol} : d.havePrev = true →
      (∀ rest : List Operand, Source.decode k.toNat ((ks ++ rest).map (·.toNat)) = (d.toCome rest).after out) →
      Decoding d (k :: ks) out

/-- An ended decoder session's account: its output is the source's decode of its codes, of which there is one. -/
def DecodedAll (ins : List Operand) (out : List Symbol) : Prop :=
  ∃ k ks, ins = k :: ks ∧ Source.decode k.toNat (ks.map (·.toNat)) = { symbols := out, bad := none }

section
variable {p : Params} {d d' : DecUnit} {ins : List Operand} {out ph : List Symbol} {k : Operand}

/-- The first DEC_CODE of a session, if it does not fail, opens the source's loop (42_decoder.md R183). -/
theorem DecEffect.decoding_first (h : DecEffect p d (.decCode k) d' ph) (hi : d.Inv p) (hv : d.havePrev = false)
    (hs : d'.state = .active) : d'.Decoding [k] ph := by
  cases h with
  | wrongState => nomatch hs
  | badCode => nomatch hs
  | dictFull => nomatch hs
  | first _ _ _ hk =>
    refine .consumed rfl fun rest => ?_
    rw [List.nil_append]
    exact DecUnit.decode_of_first (k := k) (by exact hi.fresh hv) rfl hk rest
  | later _ _ _ _ _ _ hv' => nomatch hv.symm.trans hv'

/-- A DEC_CODE that does not fail takes its code into the session's decoding. -/
theorem DecEffect.decoding (h : DecEffect p d (.decCode k) d' ph) (hp : p.wf) (hi : d.Inv p) (hs : d'.state = .active)
    (hd : d.Decoding ins out) : d'.Decoding (ins ++ [k]) (out ++ ph) := by
  cases hd with
  | fresh hv => exact h.decoding_first hi hv hs
  | consumed hv hall =>
    obtain ⟨hround, hv', -⟩ := h.round hp hi hv hs
    rw [List.cons_append]
    refine .consumed hv' fun rest => ?_
    rw [List.append_assoc, List.singleton_append, hall, hround.toCome_cons, Source.Decoded.after_after]

/-- DEC_END after a code completes the decoding: no code is left to come (42_decoder.md R184). -/
theorem DecUnit.Decoding.all (h : d.Decoding ins out) (hv : d.havePrev = true) : DecodedAll ins out := by
  cases h with
  | fresh hv' => nomatch hv.symm.trans hv'
  | consumed _ hall =>
    refine ⟨_, _, rfl, ?_⟩
    simpa [DecUnit.toCome, Source.decodeLoop, Source.Decoded.after] using hall []

end

/-! ### The account of a decoder session -/

section
variable {s t : State} {k : Operand}

theorem decSeen_appended {ph : List Symbol} (h : t.decOut = s.decOut ++ ph) :
    t.decSeen.out.drop s.decSeen.out.length = ph := by
  simp [State.decSeen, h]

/-- A step that is nothing to the decoder's session and raises no error leaves the decoder as it is. -/
theorem dec_kept_of_quiet (hst : step s = .next t) (hev : decEvent s = .other ∨ decEvent s = .take)
    (hs : t.dec.state ≠ .error) : t.dec = s.dec := by
  cases step_decView hst with
  | other _ _ h => exact h.resolve_right fun h => hs h.1
  | take _ _ h => exact h
  | _ => simp_all

theorem decEffect_of_item (hi : Inv s) (hst : step s = .next t) (hev : decEvent s = .item k) :
    ∃ ph, DecEffect s.params s.dec (.decCode k) t.dec ph ∧ t.decOut = s.decOut ++ ph := by
  cases step_decView hst with
  | item _ hev' ha hb hx =>
    cases hev.symm.trans hev'
    obtain ⟨d, ph, heff, hx'⟩ := decPerforms_decCode hi.accepting hb ha k
    cases hx.symm.trans hx'
    exact ⟨ph, heff, rfl⟩
  | _ => simp_all

/-- A DEC_END that succeeds comes after a code and appends nothing. -/
theorem decOut_of_completes (hst : step s = .next t) (hev : decEvent s = .completes) :
    s.dec.havePrev = true ∧ t.decOut = s.decOut := by
  cases step_decView hst with
  | completes _ ha hv hb hx =>
    cases hx.symm.trans (exec_decEnd_of_some (s := s.accepting) hb ha hv)
    exact ⟨hv, rfl⟩
  | _ => simp_all

theorem step_decoding (hi : Inv s) (hst : step s = .next t) :
    KeepsAccount (decEvent s) s.decSeen t.decSeen s.dec.Decoding t.dec.Decoding DecodedAll where
  quiet hev hs ins out h := by
    have hs : t.dec.state = .active := hs
    rwa [dec_kept_of_quiet hst hev (by rw [hs]; decide)]
  item k hev hs ins out h := by
    obtain ⟨ph, heff, hout⟩ := decEffect_of_item hi hst hev
    rw [decSeen_appended hout]
    exact heff.decoding hi.params hi.dec hs h
  completes hev ins out h := by
    obtain ⟨hv, hout⟩ := decOut_of_completes hst hev
    rw [decSeen_appended (ph := []) (by rw [hout, List.append_nil]), List.append_nil]
    exact h.all hv

end

theorem DecSession.accounts {s0 s : State} {l : SessionLog Symbol} (h : DecSession s0 l s) (hi : Inv s0) :
    l.Accounts s.dec.Decoding DecodedAll := by
  induction h with
  | opened hev hst =>
    cases step_decView hst with
    | opens _ _ _ _ hv => exact SessionLog.accounts_new (.fresh hv)
    | _ => simp_all
  | later h ho hst ih =>
    rw [decLogAfter_eq_step]
    exact ih.step h.inv (step_decMove hst) (step_decoding (h.keeps_inv hi) hst) ho

/-- Settles O58: along the run the first code opens the source's loop and every later one is a round of it; DEC_END
leaves none to come, and nothing after it changes the session. -/
theorem validDecoderOutputIsRight : Obligations.ValidDecoderOutputIsRight :=
  fun _ _ _ hi h hc => (h.accounts hi).ended hc.1

end Sys2Proof.Machine
end

section
/-! What a session's sink took (spec/70_reset_and_hazards.md R265, R271): while the session is open, that and what is
still in the stream are what it appended, so a session that has ended well has its whole output taken. Said for either
unit at once. -/

namespace Sys2Proof.Machine

section
variable {α : Type} {l : SessionLog α} {ev : SessionEvent} {v v' : UnitView α} {r : Prop}

/-- What an event does to a unit's stream: the sink takes its head, the unit appends to it, or it is emptied. -/
inductive StreamMove (ev : SessionEvent) (v v' : UnitView α) : Prop
  | takes : ev = .take → v'.out = v.out.tail → StreamMove ev v v'
  | appends (items : List α) : ev ≠ .take → v'.out = v.out ++ items → StreamMove ev v v'
  | cleared : ev = .clears → StreamMove ev v v'

/-- What the sink took since the session's START, and what is still in the stream, is what the session appended; once
the session has ended well all of it is taken, whatever the stream holds by now. -/
structure SessionLog.Delivered (l : SessionLog α) (v : UnitView α) : Prop where
  owned : l.closed = false → l.taken ++ v.out = l.out
  drained : l.well = true → l.taken = l.out

theorem SessionLog.delivered_new (h : v.out = []) : (SessionLog.new : SessionLog α).Delivered v where
  owned _ := h
  drained hw := nomatch hw

theorem SessionLog.step_taken_of_take : (l.step .take v v').taken = l.taken ++ v.out.take 1 := rfl

theorem SessionLog.step_taken (h : ev ≠ .take) : (l.step ev v v').taken = l.taken := by
  cases ev with
  | take => exact absurd rfl h
  | _ => rfl

/-- An item goes from the stream to the sink, or from the unit to the stream. -/
theorem SessionLog.owned_step (h : l.taken ++ v.out = l.out) (hs : StreamMove ev v v') (hc : ev ≠ .clears) :
    (l.step ev v v').taken ++ v'.out = (l.step ev v v').out := by
  cases hs with
  | takes hev hout =>
    subst hev
    rw [step_taken_of_take, step_out, hout, List.drop_eq_nil_of_le (by simp), List.append_nil, List.append_assoc,
      ← List.drop_one, List.take_append_drop, h]
  | appends items hev hout => rw [step_taken hev, step_out, hout, List.drop_left, ← List.append_assoc, h]
  | cleared hev => exact absurd hev hc

/-- Once a session has ended well nothing is appended, and the stream is empty or no longer its own. -/
theorem SessionLog.Delivered.drained_step (h : l.Delivered v) (hi : l.Inv v) (hm : UnitMove r ev v v')
    (ho : l.closed = false) (hw : l.well = true) : (l.step ev v v').taken = (l.step ev v v').out := by
  have hp : l.phase = .ended := (hi.well_valid hw).1.1
  have hempty : v.out = [] := by simpa [h.drained hw] using h.owned ho
  rw [step_out, (hm.outside (hi.not_active_of_ended ho hp)).2.1, List.append_nil, ← h.drained hw]
  by_cases hev : ev = .take
  · rw [hev, step_taken_of_take, hempty, List.take_nil, List.append_nil]
  · exact step_taken hev

/-- A START or CLEAR leaves its unit in another state than DONE. -/
theorem UnitMove.not_closing_of_done (h : UnitMove r ev v v') (hd : v'.state = .done) : ev ≠ .opens ∧ ev ≠ .clears := by
  cases h with
  | opens _ _ _ hs => rw [hd] at hs; cases hs
  | clears _ _ _ hs => rw [hd] at hs; cases hs
  | _ => simp_all

theorem SessionLog.Delivered.step (h : l.Delivered v) (hi : l.Inv v) (hm : UnitMove r ev v v')
    (hs : StreamMove ev v v') (ho : l.closed = false) : (l.step ev v v').Delivered v' where
  owned hc' := owned_step (h.owned ho) hs (step_open.1 hc').2.2
  drained hw' := by
    rcases step_well.1 hw' with hw | ⟨-, hd, -, hout⟩
    · exact h.drained_step hi hm ho hw
    · simpa [hout] using owned_step (h.owned ho) hs (hm.not_closing_of_done hd).2

/-- R271 and R233 of a session in an open or closed log. -/
theorem SessionLog.Delivered.well_cases (h : l.Delivered v) (hi : l.Inv v) :
    (l.phase = .ended ∧ v.state = .done ∧ l.clean = true ∧ v.out = [] → l.well = true ∧ v.illegal = false) ∧
    (l.well = true → ¬ l.void ∧ l.valid ∧ l.taken = l.out) := by
  refine ⟨fun ⟨hp, hd, hc, hout⟩ => ⟨hi.ended_well hp hd hc hout, hi.legal hc⟩, fun hw => ?_⟩
  have hv := hi.well_valid hw
  exact ⟨hv.2, hv, h.drained hw⟩

end

/-! ### The streams of the two units -/

theorem step_encStream {s t : State} (h : step s = .next t) : StreamMove (encEvent s) s.encSeen t.encSeen := by
  have hgrows {cs : List Code} (hev : encEvent s ≠ .take) (hout : t.encOut = s.encOut ++ cs) :
      StreamMove (encEvent s) s.encSeen t.encSeen :=
    .appends (cs.map zext32) hev (by simp [State.encSeen, hout])
  cases step_encView h with
  | other hev hout => exact hgrows (cs := []) (by simp [hev]) (by simp [hout])
  | take hev hout => exact .takes hev (by simp [State.encSeen, hout])
  | item _ hev _ _ hx =>
    obtain ⟨_, hout, -⟩ := (exec_effect hx).encOut_grows
    exact hgrows (by simp [hev]) hout
  | completes hev _ _ hx =>
    obtain ⟨_, hout, -⟩ := (exec_effect hx).encOut_grows
    exact hgrows (by simp [hev]) hout
  | opens hev hout hout' => exact hgrows (cs := []) (by simp [hev]) (by simp [hout, hout'])
  | clears hev => exact .cleared hev

theorem step_decStream {s t : State} (h : step s = .next t) : StreamMove (decEvent s) s.decSeen t.decSeen := by
  cases step_decView h with
  | other hev hout => exact .appends [] (by simp [hev]) (by simp [State.decSeen, hout])
  | take hev hout => exact .takes hev hout
  | item _ hev _ _ hx =>
    obtain ⟨_, hout, -⟩ := (exec_effect hx).decOut_grows
    exact .appends _ (by simp [hev]) hout
  | completes hev _ _ _ hx =>
    obtain ⟨_, hout, -⟩ := (exec_effect hx).decOut_grows
    exact .appends _ (by simp [hev]) hout
  | opens hev hout hout' => exact .appends [] (by simp [hev]) (by simp [State.decSeen, hout, hout'])
  | clears hev => exact .cleared hev

theorem EncSession.delivered {s0 s : State} {l : SessionLog Word} (h : EncSession s0 l s) : l.Delivered s.encSeen := by
  induction h with
  | opened hev hst =>
    cases step_encView hst with
    | opens _ _ hout => exact SessionLog.delivered_new (by simp [State.encSeen, hout])
    | _ => simp_all
  | later h ho hst ih =>
    rw [encLogAfter_eq_step]
    exact ih.step h.inv (step_encMove hst) (step_encStream hst) ho

theorem DecSession.delivered {s0 s : State} {l : SessionLog Symbol} (h : DecSession s0 l s) :
    l.Delivered s.decSeen := by
  induction h with
  | opened hev hst =>
    cases step_decView hst with
    | opens _ _ hout => exact SessionLog.delivered_new hout
    | _ => simp_all
  | later h ho hst ih =>
    rw [decLogAfter_eq_step]
    exact ih.step h.inv (step_decMove hst) (step_decStream hst) ho

/-- Settles O56: a session that ends well is valid by the log's invariant, and its sink has then taken all it
appended. -/
theorem endedWellIsNeverVoid : Obligations.EndedWellIsNeverVoid := by
  refine ⟨fun s0 s l h => ?_, fun s0 s l h => h.delivered.well_cases h.inv⟩
  obtain ⟨hends, hwell⟩ := h.delivered.well_cases h.inv
  exact ⟨fun ⟨hp, hd, hc, hout⟩ => hends ⟨hp, hd, hc, by simp [State.encSeen, hout]⟩, hwell⟩

end Sys2Proof.Machine
end

section
/-! Errors (spec/60_exceptions.md R220, R228 to R232, R241): what the command that raises one writes, how a unit leaves
ERROR and the block `blk.illegal`, and what ERR shows. -/

namespace Sys2Proof.Machine

/-! ### Entering ERROR -/

/-- The effect that takes the encoder to ERROR is `raise` and emits nothing (60_exceptions.md R228, R229). -/
theorem EncEffect.raised_of_error {p : Params} {e e' : EncUnit} {i : Instr} {cs : List Code}
    (h : EncEffect p e i e' cs) (hs : e.state ≠ .error) (hs' : e'.state = .error) :
    e'.err ≠ .none ∧ e' = { e with state := .error, err := e'.err, errinfo := e'.errinfo } ∧ cs = [] := by
  cases h with
  | wrongState => exact ⟨ErrCode.noConfusion, rfl, rfl⟩
  | invalidSymbol => exact ⟨ErrCode.noConfusion, rfl, rfl⟩
  | dictFull => exact ⟨ErrCode.noConfusion, rfl, rfl⟩
  | opened => nomatch hs'
  | cleared => nomatch hs'
  | flushed => nomatch hs'
  | closed => nomatch hs'
  | _ => exact absurd hs' hs

/-- The effect that takes the decoder to ERROR is `raise` and emits nothing (60_exceptions.md R228, R229). -/
theorem DecEffect.raised_of_error {p : Params} {d d' : DecUnit} {i : Instr} {ph : List Symbol}
    (h : DecEffect p d i d' ph) (hs : d.state ≠ .error) (hs' : d'.state = .error) :
    d'.err ≠ .none ∧ d' = { d with state := .error, err := d'.err, errinfo := d'.errinfo } ∧ ph = [] := by
  cases h with
  | wrongState => exact ⟨ErrCode.noConfusion, rfl, rfl⟩
  | emptyStream => exact ⟨ErrCode.noConfusion, rfl, rfl⟩
  | badCode => exact ⟨ErrCode.noConfusion, rfl, rfl⟩
  | dictFull => exact ⟨ErrCode.noConfusion, rfl, rfl⟩
  | opened => nomatch hs'
  | cleared => nomatch hs'
  | closed => nomatch hs'
  | _ => exact absurd hs' hs

/-- Settles O30: only an effect on the unit itself changes its state, and to ERROR only `raise`. -/
theorem errorEntryIsPrecise : Obligations.ErrorEntryIsPrecise := by
  intro i s t h
  refine ⟨fun hs hs' => ?_, fun hs hs' => ?_⟩
  · cases exec_effect h with
    | enc _ he =>
      obtain ⟨herr, heq, rfl⟩ := he.raised_of_error hs hs'
      rw [List.append_nil]
      exact ⟨herr, congrArg s.setEnc heq⟩
    | _ => exact absurd hs' hs
  · cases exec_effect h with
    | dec _ hd hbuf =>
      obtain ⟨herr, heq, rfl⟩ := hd.raised_of_error hs hs'
      obtain ⟨-, rfl⟩ := hbuf.resolve_right fun hbuf => hs (hbuf.2.symm.trans hs')
      rw [List.append_nil]
      exact ⟨herr, congrArg s.setDec heq⟩
    | _ => exact absurd hs' hs

/-! ### Leaving ERROR -/

/-- A unit after CLEAR or reset (60_exceptions.md R231). -/
structure UnitCore.Recovered (u : UnitCore) : Prop where
  state : u.state = .idle
  err : u.err = .none
  errinfo : u.errinfo = 0

/-- Of a unit in ERROR only CLEAR has an effect (40_dispatch.md R135). -/
theorem EncEffect.recovers {p : Params} {e e' : EncUnit} {i : Instr} {cs : List Code} (h : EncEffect p e i e' cs)
    (hs : e.state = .error) : i = .encClear ∧ e'.toUnitCore.Recovered := by
  cases h with
  | cleared => exact ⟨rfl, rfl, rfl, rfl⟩
  | _ => simp_all

theorem DecEffect.recovers {p : Params} {d d' : DecUnit} {i : Instr} {ph : List Symbol} (h : DecEffect p d i d' ph)
    (hs : d.state = .error) : i = .decClear ∧ d'.toUnitCore.Recovered := by
  cases h with
  | cleared => exact ⟨rfl, rfl, rfl, rfl⟩
  | _ => simp_all

section
variable {s t : State} {i : Instr}

theorem Effect.enc_kept_or_recovers (h : Effect s i t) (hs : s.enc.state = .error) :
    t.enc = s.enc ∨ i = .encClear ∧ t.enc.toUnitCore.Recovered := by
  cases h with
  | enc _ he => exact .inr (he.recovers hs)
  | _ => exact .inl rfl

theorem Effect.dec_kept_or_recovers (h : Effect s i t) (hs : s.dec.state = .error) :
    t.dec = s.dec ∨ i = .decClear ∧ t.dec.toUnitCore.Recovered := by
  cases h with
  | dec _ hd => exact .inr (hd.recovers hs)
  | _ => exact .inl rfl

theorem Effect.blk_kept_or_cleared (h : Effect s i t) (hb : s.blk.illegal = true) :
    t.blk = s.blk ∨ i = .blkClear ∧ t.blk.illegal = false := by
  cases h with
  | recorded _ _ hb' => nomatch hb.symm.trans hb'
  | blkCleared => exact .inr ⟨rfl, rfl⟩
  | _ => exact .inl rfl

/-- What every command but `c` keeps, and every turn but reset, only the word of `c` and reset end. -/
theorem step_kept_or_left (hst : step s = .next t) {kept left : Prop} {c : Instr}
    (hcmd : ∀ i, Effect s.accepting i t → kept ∨ i = c ∧ left) (hreset : t = resetTurn s.accepting → left)
    (hquiet : SameBlock s t → kept) :
    kept ∨ (acceptedWord s = some (encode c) ∨ (nextTurn s).1 = .reset) ∧ left := by
  rcases step_cases hst with ⟨w, ha, -, -, -, hx⟩ | ⟨-, hr, rfl⟩ | ⟨-, -, hq⟩
  · refine (hcmd _ (exec_effect hx)).imp_right fun ⟨hi, hl⟩ => ⟨.inl ?_, hl⟩
    rw [ha, ← hi, encode_instrOf]
  · exact .inr ⟨.inr hr, hreset rfl⟩
  · exact .inl (hquiet hq.toSameBlock)

/-- An encoder in ERROR keeps every field until the word of ENC_CLEAR or reset (60_exceptions.md R231, R232). -/
theorem step_enc_kept_or_recovers (hst : step s = .next t) (hs : s.enc.state = .error) :
    t.enc = s.enc ∨
      (acceptedWord s = some 0x40000000#32 ∨ (nextTurn s).1 = .reset) ∧ t.enc.toUnitCore.Recovered :=
  step_kept_or_left (c := .encClear) hst (fun _ h => h.enc_kept_or_recovers hs) (by rintro rfl; exact ⟨rfl, rfl, rfl⟩)
    SameBlock.enc

/-- A decoder in ERROR keeps every field until the word of DEC_CLEAR or reset (60_exceptions.md R231, R232). -/
theorem step_dec_kept_or_recovers (hst : step s = .next t) (hs : s.dec.state = .error) :
    t.dec = s.dec ∨
      (acceptedWord s = some 0x80000000#32 ∨ (nextTurn s).1 = .reset) ∧ t.dec.toUnitCore.Recovered :=
  step_kept_or_left (c := .decClear) hst (fun _ h => h.dec_kept_or_recovers hs) (by rintro rfl; exact ⟨rfl, rfl, rfl⟩)
    SameBlock.dec

/-- An illegal block keeps the recorded word until the word of BLK_CLEAR or reset (60_exceptions.md R231, R232). -/
theorem step_blk_kept_or_cleared (hst : step s = .next t) (hb : s.blk.illegal = true) :
    t.blk = s.blk ∨ (acceptedWord s = some 0x90000000#32 ∨ (nextTurn s).1 = .reset) ∧ t.blk.illegal = false :=
  step_kept_or_left (c := .blkClear) hst (fun _ h => h.blk_kept_or_cleared hb) (by rintro rfl; rfl) SameBlock.blk

end

/-- Settles O31: what is not kept was left by CLEAR, BLK_CLEAR or reset. -/
theorem onlyClearOrResetLeavesAnError : Obligations.OnlyClearOrResetLeavesAnError := by
  intro s t hst
  refine ⟨fun hs hs' => ?_, fun hs hs' => ?_, fun hb hb' => ?_⟩
  · obtain ⟨hleft, hstate, herr, hinfo⟩ :=
      (step_enc_kept_or_recovers hst hs).resolve_left fun h => hs' (by rw [h, hs])
    exact ⟨hleft, hstate, herr, hinfo⟩
  · obtain ⟨hleft, hstate, herr, hinfo⟩ :=
      (step_dec_kept_or_recovers hst hs).resolve_left fun h => hs' (by rw [h, hs])
    exact ⟨hleft, hstate, herr, hinfo⟩
  · exact ((step_blk_kept_or_cleared hst hb).resolve_left fun h => by simp [h, hb] at hb').1

/-- Settles O32: what is left by CLEAR, BLK_CLEAR or reset is no longer in error. -/
theorem firstErrorIsKept : Obligations.FirstErrorIsKept := by
  intro s t hst
  refine ⟨fun hs hs' => ?_, fun hs hs' => ?_, fun hb hb' => ?_⟩
  · exact (step_enc_kept_or_recovers hst hs).resolve_right fun h => nomatch h.2.state.symm.trans hs'
  · exact (step_dec_kept_or_recovers hst hs).resolve_right fun h => nomatch h.2.state.symm.trans hs'
  · exact (step_blk_kept_or_cleared hst hb).resolve_right fun h => nomatch h.2.symm.trans hb'

/-! ### No word offered, and ERR -/

/-- Settles O18: the block's listed turn finds an empty port, and the default turn is an offer of nothing. -/
theorem nothingOfferedNothingDone : Obligations.NothingOfferedNothingDone := by
  refine ⟨fun s ts ht hp => ?_, fun s ht hc hp => ?_⟩
  · simp only [step_listed ht, takeTurn, blockTurn, hp]
  · have hturn : nextTurn s = (.offer, s) := by rw [nextTurn, ht, defaultTurn, hp]
    simp only [step, hturn, takeTurn, offerTurn, hp, hc]

/-- Settles O24: both registers are status words, whose ERR field is the number of the unit's error. -/
theorem errorCodesAreTheSpecs : Obligations.ErrorCodesAreTheSpecs := by
  intro s u hu
  rcases List.mem_pair.1 hu with rfl | rfl
  · obtain ⟨-, -, -, herr, -⟩ := statusWord_fields s.enc.toUnitCore s.enc.wValid
    rw [show register 0x4 s = statusWord s.enc.toUnitCore s.enc.wValid from rfl, herr]
    cases s.enc.err <;> rfl
  · obtain ⟨-, -, -, herr, -⟩ := statusWord_fields s.dec.toUnitCore s.dec.havePrev
    rw [show register 0xA s = statusWord s.dec.toUnitCore s.dec.havePrev from rfl, herr]
    cases s.dec.err <;> rfl

end Sys2Proof.Machine
end

section
/-! Reset and the hold (spec/70_reset_and_hazards.md R260, R261, R264, R265): what the block shows right after reset, and
the words that wait for their stream to drain. -/

namespace Sys2Proof.Machine

/-! ### Reset -/

theorem blkStatus_atReset : blkStatus { illegal := false, illegalWord := 0 } = 0 := by decide

theorem statusWord_atReset : statusWord UnitCore.atReset false = 0 := by decide

/-- Right after reset the registers show the block's identity and its parameter, both `next` registers 256, and 0
elsewhere (70_reset_and_hazards.md R261). -/
theorem register_resetWith (p : Params) (i : BitVec 4) : register i (State.resetWith p) =
    if i = 0 then Config.idValue else if i = 1 then BitVec.ofNat 32 p.dictCap
    else if i = 7 ∨ i = 13 then 0x100#32 else 0 := by
  obtain ⟨n, hn⟩ := i
  match n, hn with
  | 2, _ => exact blkStatus_atReset
  | 4, _ | 10, _ => exact statusWord_atReset
  | 0, _ | 1, _ | 3, _ | 5, _ | 6, _ | 7, _ | 8, _ | 9, _ | 11, _ | 12, _ | 13, _ | 14, _ | 15, _ => rfl
  | n + 16, hn => exact absurd hn (by omega)

/-- Settles O6: the fields are those of `State.resetWith`, and the registers show them. -/
theorem resetValuesOfEveryField : Obligations.ResetValuesOfEveryField := by
  intro p
  refine ⟨rfl, ⟨rfl, rfl, rfl, rfl, rfl, rfl, rfl, rfl⟩, ⟨rfl, rfl, rfl, rfl, rfl, rfl, rfl, rfl⟩, rfl, rfl, rfl, rfl,
    rfl, fun i h0 h1 => ?_⟩
  rw [register_resetWith, if_neg h0, if_neg h1]

/-- Settles O7: the reset turn answers the reset state with the parameter and the host's data kept. -/
theorem resetTurnResetsTheBlock : Obligations.ResetTurnResetsTheBlock :=
  fun _ _ ht => ⟨_, step_listed ht, rfl, rfl, rfl, rfl, rfl, rfl, rfl, rfl, rfl⟩

/-! ### The hold -/

/-- The hold of R265, as a proposition. -/
theorem held_iff {w : Word} {s : State} : held w s = true ↔
    ((w = 0x10000000#32 ∨ w = 0x40000000#32) ∧ s.encOut ≠ []) ∨
      ((w = 0x50000000#32 ∨ w = 0x80000000#32) ∧ s.decOut ≠ []) := by
  simp [held]

/-- On a listed turn of the block, a held word stays offered and nothing happens (20_memory.md R67). -/
theorem step_block_held {s : State} {w : Word} {ts : List Turn} (ht : s.host.turns = .block :: ts)
    (hp : s.port = some w) (hh : held w s = true) :
    step s = .next { s with host := { s.host with turns := ts } } := by
  rw [step_listed ht]
  simp only [takeTurn, blockTurn, hp]
  exact if_pos hh

/-- Settles O15: a word that is not held is performed with the port freed, and no command puts a word there. -/
theorem startAndClearWaitForTheirStream : Obligations.StartAndClearWaitForTheirStream := by
  refine fun s w ts ht hp => ⟨fun h => step_block_held ht hp (held_iff.2 h), fun h t hst => ?_⟩
  rw [step_block ht hp (Bool.eq_false_iff.2 (mt held_iff.1 h))] at hst
  exact (commandsTouchOnlyTheBlock.1 _ _ _ hst).2.1

/-! ### A held START, once its stream is drained -/

theorem run_succ_of_step {M : Host.Core} {s t : M.State} (h : M.step s = .next t) (k : Nat) :
    M.run (k + 1) s = M.run k t := by
  rw [Host.Core.run, h]

theorem run_one (M : Host.Core) (s : M.State) : M.run 1 s = M.step s := by
  rw [Host.Core.run]
  cases M.step s <;> rfl

/-- The state after the ENC_OUT sink has taken every item, with the turns `ts` still to come: it got each code, in
order, as a 32-bit word (20_memory.md R68, R70). -/
def State.encDrained (ts : List Turn) (s : State) : State :=
  { s with
    encOut := []
    host := { s.host with turns := ts, encTaken := s.host.encTaken ++ s.encOut.map zext32 } }

/-- As many takes as there are items drain the stream. -/
theorem run_encTakes (k : Nat) (ts : List Turn) : ∀ (out : List Code) (s : State), s.encOut = out →
    s.host.turns = List.replicate out.length .encTake ++ ts →
    core.run (out.length + k) s = core.run k (s.encDrained ts)
  | [], s, ho, ht => by
    have hs : s.encDrained ts = s := by
      obtain ⟨⟩ := s
      cases ho
      cases ht
      simp [State.encDrained]
    rw [hs, List.length_nil, Nat.zero_add]
  | c :: rest, s, ho, ht => by
    have hst := step_listed ht
    rw [takeTurn, encTakeTurn_cons (by exact ho)] at hst
    rw [List.length_cons, Nat.add_right_comm]
    refine (run_succ_of_step (M := core) hst _).trans ((run_encTakes k ts rest _ rfl rfl).trans ?_)
    simp [State.encDrained, ho]

/-- Settles O16: the sink's takes leave the stream empty, so the START that stands on the port is no longer held. -/
theorem heldStartRunsOnceDrained : Obligations.HeldStartRunsOnceDrained := by
  intro s ts hp ht
  have hx : step (s.encDrained (.block :: ts)) = exec (instrOf 0x10000000#32) _ :=
    step_block rfl hp (Bool.eq_false_iff.2 fun hh => held_encStart.1 hh rfl)
  rw [show instrOf 0x10000000#32 = .encStart by decide] at hx
  rw [run_encTakes 1 (.block :: ts) s.encOut s rfl ht]
  exact (run_one core _).trans hx

end Sys2Proof.Machine
end

section
/-! The result of a session and its failure (spec/70_reset_and_hazards.md R271): what its sink took is its output while
it is open and once it has ended well, and a session that has failed stays failed until CLEAR, BLK_CLEAR or reset and
never ends well. -/

namespace Sys2Proof.Machine

/-! ### The result -/

/-- Settles O53: an item goes from the unit to the stream and from the stream to the sink, and nowhere else. -/
theorem streamItemsBelongToTheSession : Obligations.StreamItemsBelongToTheSession :=
  ⟨fun _ _ _ h => h.delivered.owned, fun _ _ _ h => h.delivered.owned⟩

/-- Settles O59: a session that ended well is completed and its sink took its whole output, which is the source's
encode. -/
theorem encoderSessionThatEndedWellIsRight : Obligations.EncoderSessionThatEndedWellIsRight := by
  intro s0 s l hi h hw
  obtain ⟨-, ⟨hdone, -⟩, htaken⟩ := (endedWellIsNeverVoid.1 s0 s l h).2 hw
  rw [htaken]
  exact validEncoderOutputIsRight s0 s l hi h hdone

/-- Settles O60: a session that ended well is completed and its sink took its whole output, which is the source's
decode. -/
theorem decoderSessionThatEndedWellIsRight : Obligations.DecoderSessionThatEndedWellIsRight := by
  intro s0 s l hi h hw
  obtain ⟨-, ⟨hdone, -⟩, htaken⟩ := (endedWellIsNeverVoid.2 s0 s l h).2 hw
  rw [htaken]
  exact validDecoderOutputIsRight s0 s l hi h hdone

/-! ### Failure -/

section
variable {α : Type} {l : SessionLog α} {ev : SessionEvent} {v v' : UnitView α} {r cleared legalised : Prop}

/-- R271's failed for either unit: `EncFailed` and `DecFailed` are this of what the log sees of the unit. -/
def SessionLog.Failed (l : SessionLog α) (v : UnitView α) : Prop :=
  l.closed = false ∧ l.well = false ∧ (v.state = .error ∨ v.illegal = true)

/-- A session that an error stopped has failed. -/
theorem SessionLog.Inv.failed_of_phase (hi : l.Inv v) (hp : l.phase = .failed) (ho : l.closed = false) : l.Failed v :=
  ⟨ho, hi.void_unwell (.inl hp), .inl (hi.error_of_failed ho hp)⟩

/-- `clean` remembers that `blk.illegal` was 1. -/
theorem SessionLog.Inv.error_or_unclean (hi : l.Inv v) (h : v.state = .error ∨ v.illegal = true) :
    v.state = .error ∨ l.clean = false :=
  h.imp_right fun hb => Bool.eq_false_iff.2 fun hc => by rw [hi.legal hc] at hb; cases hb

/-- A session that has failed does not end well in the next step. -/
theorem SessionLog.Inv.unwell_step (hi : l.Inv v) (hm : UnitMove r ev v v') (h : l.Failed v) :
    (l.step ev v v').well = false := by
  obtain ⟨ho, hw, hf⟩ := h
  refine Bool.eq_false_iff.2 fun hw' => ?_
  obtain ⟨-, hd, ⟨hc, -⟩, -⟩ := (step_well.1 hw').resolve_left (by simp [hw])
  have hever := (hi.failed_iff ho hw).2 (hi.error_or_unclean hf)
  rw [hi.not_failed_of_done hm ho hw hc hd] at hever
  cases hever

/-- A session whose block was illegal never ends well: BLK_CLEAR does not undo it. -/
theorem SessionLog.unclean_step (hw : l.well = false) (hc : l.clean = false) :
    (l.step ev v v').well = false ∧ (l.step ev v v').clean = false := by
  refine ⟨Bool.eq_false_iff.2 fun hw' => ?_, step_unclean.2 (.inl hc)⟩
  rcases step_well.1 hw' with h | ⟨-, -, ⟨h, -⟩, -⟩
  · rw [hw] at h; cases h
  · rw [hc] at h; cases h

/-- A START or CLEAR leaves its unit in another state than ERROR. -/
theorem UnitMove.not_closing_of_error (h : UnitMove r ev v v') (he : v'.state = .error) :
    ev ≠ .opens ∧ ev ≠ .clears := by
  cases h with
  | opens _ _ _ hs => nomatch he.symm.trans hs
  | clears _ _ _ hs => nomatch he.symm.trans hs
  | _ => simp_all

/-- While its unit stays in ERROR a session stays failed; a unit that goes to IDLE closes it. -/
theorem SessionLog.Inv.failed_step_of_error (hi : l.Inv v) (hm : UnitMove r ev v v') (h : l.Failed v)
    (he : v.state = .error) (hk : v'.state = .error ∨ cleared ∧ v'.state = .idle) :
    (l.step ev v v').Failed v' ∨ (l.step ev v v').closed = true ∧ cleared := by
  rcases hk with he' | ⟨hl, hs⟩
  · exact .inl ⟨step_open.2 ⟨h.1, hm.not_closing_of_error he'⟩, hi.unwell_step hm h, .inl he'⟩
  · obtain ⟨hev, -⟩ := (hm.error_kept he).resolve_left fun he' => nomatch he'.symm.trans hs
    exact .inr ⟨step_closed.2 (.inr hev), hl⟩

/-- While the block stays illegal an open session stays failed: START and CLEAR are discarded. -/
theorem SessionLog.Inv.failed_step_of_illegal (hi : l.Inv v) (hm : UnitMove r ev v v') (h : l.Failed v)
    (hc : ev = .opens ∨ ev = .clears → v'.illegal = false) (hb : v'.illegal = true) : (l.step ev v v').Failed v' := by
  have hopen : ¬ (ev = .opens ∨ ev = .clears) := fun hev => by rw [hc hev] at hb; cases hb
  exact ⟨step_open.2 ⟨h.1, not_or.1 hopen⟩, hi.unwell_step hm h, .inr hb⟩

/-- A failed session after one more step, where only `cleared` takes the unit out of ERROR and only `legalised` makes
the block legal again. -/
theorem SessionLog.Inv.failed_step (hi : l.Inv v) (hm : UnitMove r ev v v') (h : l.Failed v)
    (hc : ev = .opens ∨ ev = .clears → v'.illegal = false)
    (hk : v.state = .error → v'.state = .error ∨ cleared ∧ v'.state = .idle)
    (hb : v.illegal = true → v'.illegal = true ∨ legalised) :
    (l.step ev v v').well = false ∧
    (v.state = .error → (l.step ev v v').Failed v' ∨ (l.step ev v v').closed = true ∧ cleared) ∧
    (v.illegal = true → (l.step ev v v').Failed v' ∨ legalised) :=
  ⟨hi.unwell_step hm h, fun he => hi.failed_step_of_error hm h he (hk he),
    fun hill => (hb hill).imp_left (hi.failed_step_of_illegal hm h hc)⟩

/-- What a failed session is in the state it failed in (70_reset_and_hazards.md R271). -/
theorem SessionLog.Inv.failed_cases (hi : l.Inv v) (h : l.Failed v) :
    l.void ∧ ¬ (l.phase = .ended ∧ v.state = .done ∧ l.clean = true ∧ v.out = []) ∧
      (v.state = .error ∨ l.clean = false) := by
  obtain ⟨ho, hw, hf⟩ := h
  have hcause := hi.error_or_unclean hf
  have hvoid : l.void := (hi.void_iff_of_open ho hw).2 hcause
  exact ⟨hvoid, (hi.void_cases.1 hvoid).2, hcause⟩

end

section
variable {s t : State}

/-- A START or CLEAR that is performed, and reset, leave the block legal. -/
theorem legal_of_enc_closing (hst : step s = .next t) (hev : encEvent s = .opens ∨ encEvent s = .clears) :
    t.blk.illegal = false := by
  cases step_encView hst with
  | opens _ _ _ _ _ _ hb => exact hb
  | clears _ _ _ hb => exact hb
  | _ => simp_all

theorem legal_of_dec_closing (hst : step s = .next t) (hev : decEvent s = .opens ∨ decEvent s = .clears) :
    t.blk.illegal = false := by
  cases step_decView hst with
  | opens _ _ _ _ _ _ hb => exact hb
  | clears _ _ _ hb => exact hb
  | _ => simp_all

theorem step_enc_error (hst : step s = .next t) (hs : s.enc.state = .error) : t.enc.state = .error ∨
    (acceptedWord s = some 0x40000000#32 ∨ (nextTurn s).1 = .reset) ∧ t.enc.state = .idle :=
  (step_enc_kept_or_recovers hst hs).imp (fun h => by rw [h, hs]) fun ⟨hl, hr⟩ => ⟨hl, hr.state⟩

theorem step_dec_error (hst : step s = .next t) (hs : s.dec.state = .error) : t.dec.state = .error ∨
    (acceptedWord s = some 0x80000000#32 ∨ (nextTurn s).1 = .reset) ∧ t.dec.state = .idle :=
  (step_dec_kept_or_recovers hst hs).imp (fun h => by rw [h, hs]) fun ⟨hl, hr⟩ => ⟨hl, hr.state⟩

theorem step_illegal (hst : step s = .next t) (hb : s.blk.illegal = true) :
    t.blk.illegal = true ∨ acceptedWord s = some 0x90000000#32 ∨ (nextTurn s).1 = .reset :=
  (step_blk_kept_or_cleared hst hb).imp (fun h => by rw [h, hb]) And.left

end

/-- Settles O54: the log's invariant makes a failed session void; only the unit's CLEAR or reset takes the unit out of
ERROR, only BLK_CLEAR or reset makes the block legal, and neither lets the session end well. -/
theorem failedSessionsStayFailedAndNeverEndWell : Obligations.FailedSessionsStayFailedAndNeverEndWell := by
  refine ⟨fun s0 s l h => ⟨h.inv.failed_of_phase, fun hf => ?_⟩, fun s0 s l h => ⟨h.inv.failed_of_phase, fun hf => ?_⟩,
    fun s t l hw hc => ?_, fun s t l hw hc => ?_⟩
  · obtain ⟨hvoid, hwell, hcause⟩ := h.inv.failed_cases hf
    refine ⟨hvoid, fun ⟨hp, hd, hc, hout⟩ => hwell ⟨hp, hd, hc, by simp [State.encSeen, hout]⟩, hcause, fun t hst => ?_⟩
    rw [encLogAfter_eq_step]
    exact h.inv.failed_step (step_encMove hst) hf (legal_of_enc_closing hst) (step_enc_error hst) (step_illegal hst)
  · obtain ⟨hvoid, hwell, hcause⟩ := h.inv.failed_cases hf
    refine ⟨hvoid, hwell, hcause, fun t hst => ?_⟩
    rw [decLogAfter_eq_step]
    exact h.inv.failed_step (step_decMove hst) hf (legal_of_dec_closing hst) (step_dec_error hst) (step_illegal hst)
  · rw [encLogAfter_eq_step]
    exact SessionLog.unclean_step hw hc
  · rw [decLogAfter_eq_step]
    exact SessionLog.unclean_step hw hc

end Sys2Proof.Machine
end
